-- ==== Sys2Proof/Word.lean ====
section
/-! DEFINITION. The fixed widths of `00_scope.md` rules R10 and R11. -/

namespace Sys2Proof

/-- A data byte, the shift register's contents, an RX byte (rule R10). -/
abbrev Byte := BitVec 8

/-- A 16-bit operand: N, the repeat count, the initial step value, an RX index (rules R11 and R80). -/
abbrev Half := BitVec 16

/-- A command word on the CMD port (rule R100). -/
abbrev Word := BitVec 32

end Sys2Proof
end

