-- ==== Sys2Proof/Config.lean ====
section
/-! DEFINITION. The parameters of `00_scope.md` rule R9, fixed for a whole run (`10_state.md` rule R46).
Each parameter's type holds exactly the values the rule admits, so every `Config` is a legal one. -/

namespace Sys2Proof

/-- The names of the seven Delays (`40_timing_profile.md` rule R140). -/
inductive DelayName where
  | preStart | postStart | preStop | idle | preClockHigh | postClockHigh | postTransfer
  deriving DecidableEq, Repr

/-- The seven Delays, each a natural count of CPU cycles with no upper bound (rule R140). -/
structure Delays where
  preStart : Nat
  postStart : Nat
  preStop : Nat
  idle : Nat
  preClockHigh : Nat
  postClockHigh : Nat
  postTransfer : Nat
  deriving DecidableEq, Repr

/-- The configuration: the TimingProfile of rule R140 (seven Delays and the device address) with
POLL_BOUND, 1 to 256, held as its predecessor, and STEP_WIDTH, at least 1, held as its predecessor. -/
structure Config where
  dly : Delays
  devAddr : BitVec 7
  pollBoundPred : Fin 256
  stepWidthPred : Nat
  deriving DecidableEq, Repr

/-- The configuration of `State.reset`: devAddr, POLL_BOUND and STEP_WIDTH as the setting of
`95_test_vectors.md` section 0.1 has them, every Delay 0 (rule R144 admits it).
DESIGN CHOICE (log entry 3): the spec leaves every one of them a parameter. -/
def Config.ofVectors : Config where
  dly :=
    { preStart := 0, postStart := 0, preStop := 0, idle := 0, preClockHigh := 0
      postClockHigh := 0, postTransfer := 0 }
  devAddr := 0x3C
  pollBoundPred := 255
  stepWidthPred := 15

end Sys2Proof
end

