-- ==== Sys2Proof/Syntax.lean ====
section
/-! DEFINITION. The 13 commands of `30_encoding.md` rule R102, with the operands of rule R103, and the
assembler's source lines of rules R107 and R108. -/

namespace Sys2Proof

/-- BITX's bit count: "No other bit count can be encoded" (rule R103). -/
inductive BitCount where
  | one | eight
  deriving DecidableEq, Repr

/-- TRANSMIT's phase: `address` is isAddressPhase = true (rule R103). -/
inductive TxPhase where
  | data | address
  deriving DecidableEq, Repr

/-- "Direction is one of {Send, Receive}" (`00_scope.md` rule R19). -/
inductive Direction where
  | send | receive
  deriving DecidableEq, Repr

/-- The commands: one constructor per row of rule R102. -/
inductive Instr where
  | bitx (n : BitCount)
  | start
  | stop
  | transmit (ph : TxPhase) (b : Byte)
  | receive (n : Half)
  | startSending
  | send (b : Byte)
  | sOpen (step0 : Half)
  | sSend (b : Byte)
  | sSendRepeated (count : Half) (b : Byte)
  | sValid
  | sReceive (n : Half)
  | sStop
  deriving DecidableEq, Repr

/-- A source line of the assembler (rule R107) with its operands as written, in range or not, and the
pseudo-instruction `ADDRESS` of rule R108. -/
inductive AsmLine where
  | bitx (n : Nat)
  | start
  | stop
  | transmit (ph : TxPhase) (b : Nat)
  | receive (n : Nat)
  | startSending
  | send (b : Nat)
  | sOpen (s : Nat)
  | sSend (b : Nat)
  | sSendRepeated (c b : Nat)
  | sValid
  | sReceive (n : Nat)
  | sStop
  | address (dir : Direction)
  deriving DecidableEq, Repr

/-- The source line that writes a command (rule R107). -/
def Instr.toAsm : Instr → AsmLine
  | .bitx .one => .bitx 1
  | .bitx .eight => .bitx 8
  | .start => .start
  | .stop => .stop
  | .transmit ph b => .transmit ph b.toNat
  | .receive n => .receive n.toNat
  | .startSending => .startSending
  | .send b => .send b.toNat
  | .sOpen s => .sOpen s.toNat
  | .sSend b => .sSend b.toNat
  | .sSendRepeated c b => .sSendRepeated c.toNat b.toNat
  | .sValid => .sValid
  | .sReceive n => .sReceive n.toNat
  | .sStop => .sStop

end Sys2Proof
end

