-- ==== Sys2Proof/WellFormed.lean ====
section
/-! DEFINITION. The operand ranges of `30_encoding.md` rule R107: "Operand ranges: b is 0..255, and n, c
and s are 0..65535. An operand out of range is an assembly error, not a word." BITX takes 1 or 8 (rule
R103). A command (`Instr`) holds its operands in types of exactly these ranges. -/

namespace Sys2Proof

/-- The assembly errors, one per range of rule R107 and one for BITX's count. -/
inductive AsmError where
  /-- BITX with a count other than 1 or 8. -/
  | badBitCount
  /-- A byte operand above 255. -/
  | byteOutOfRange
  /-- A 16-bit operand above 65535. -/
  | halfOutOfRange
  deriving DecidableEq, Repr

/-- The first operand of a source line that is out of range, if one is. -/
def AsmLine.problem : AsmLine → Option AsmError
  | .bitx n => if n = 1 ∨ n = 8 then none else some .badBitCount
  | .transmit _ b | .send b | .sSend b => if b < 256 then none else some .byteOutOfRange
  | .receive n | .sOpen n | .sReceive n => if n < 65536 then none else some .halfOutOfRange
  | .sSendRepeated c b =>
    if c < 65536 then (if b < 256 then none else some .byteOutOfRange) else some .halfOutOfRange
  | .start | .stop | .startSending | .sValid | .sStop | .address _ => none

/-- A source line is well formed when every operand is in range. -/
def AsmLine.wf (l : AsmLine) : Bool := l.problem.isNone

/-- A command is well formed when the source line that writes it is. -/
def Instr.wf (i : Instr) : Bool := i.toAsm.wf

end Sys2Proof
end

