-- ==== Sys2Proof/Decode.lean ====
section
/-! DEFINITION. The command word of `30_encoding.md` part 1: its fields (rule R101), the opcode map (rule
R102) as a table, the total decoder (rules R103 and R105), the encoder, and the assembler (rules R107 and
R108) with the AddressPrefix byte of rule R110. -/

namespace Sys2Proof

/-! ## Fields of the word (rule R101) -/

/-- OP, bits [31:28]. -/
def Word.op (w : Word) : BitVec 4 := w.extractLsb' 28 4

/-- RSV, bits [27:25]. -/
def Word.rsv (w : Word) : BitVec 3 := w.extractLsb' 25 3

/-- A, bit [24]. -/
def Word.modifier (w : Word) : Bool := w.getLsbD 24

/-- IMM16, bits [23:8]. -/
def Word.imm16 (w : Word) : Half := w.extractLsb' 8 16

/-- BYTE, bits [7:0]. -/
def Word.byte (w : Word) : Byte := w.extractLsb' 0 8

/-! ## The opcode map (rule R102) -/

/-- One row of rule R102. "A word selects a command exactly when `(cmd & mask) = match`." -/
structure OpcodeRow where
  mnemonic : String
  pattern : Word
  mask : Word
  deriving DecidableEq, Repr

/-- The 13 rows of rule R102. -/
def opcodeTable : List OpcodeRow :=
  [ ⟨"BITX", 0x10000000, 0xFEFFFFFF⟩,
    ⟨"START", 0x20000000, 0xFFFFFFFF⟩,
    ⟨"STOP", 0x30000000, 0xFFFFFFFF⟩,
    ⟨"TRANSMIT", 0x40000000, 0xFEFFFF00⟩,
    ⟨"RECEIVE", 0x50000000, 0xFF0000FF⟩,
    ⟨"START_SENDING", 0x60000000, 0xFFFFFFFF⟩,
    ⟨"SEND", 0x70000000, 0xFFFFFF00⟩,
    ⟨"S_OPEN", 0x80000000, 0xFF0000FF⟩,
    ⟨"S_SEND", 0x90000000, 0xFFFFFF00⟩,
    ⟨"S_SEND_REPEATED", 0xA0000000, 0xFF000000⟩,
    ⟨"S_VALID", 0xB0000000, 0xFFFFFFFF⟩,
    ⟨"S_RECEIVE", 0xC0000000, 0xFF0000FF⟩,
    ⟨"S_STOP", 0xD0000000, 0xFFFFFFFF⟩ ]

/-- A word selects a row (rule R102). -/
def OpcodeRow.selects (r : OpcodeRow) (w : Word) : Bool := (w &&& r.mask) == r.pattern

/-- The mnemonic of a command (rule R102). -/
def Instr.mnemonic : Instr → String
  | .bitx _ => "BITX"
  | .start => "START"
  | .stop => "STOP"
  | .transmit _ _ => "TRANSMIT"
  | .receive _ => "RECEIVE"
  | .startSending => "START_SENDING"
  | .send _ => "SEND"
  | .sOpen _ => "S_OPEN"
  | .sSend _ => "S_SEND"
  | .sSendRepeated _ _ => "S_SEND_REPEATED"
  | .sValid => "S_VALID"
  | .sReceive _ => "S_RECEIVE"
  | .sStop => "S_STOP"

/-! ## Decoding (rules R103 and R105) -/

/-- The one verdict on a word that is no command (rule R105). -/
inductive DecodeError where
  | illegalCommand
  deriving DecidableEq, Repr

/-- A command whose must-be-zero fields are as the row asks, or the verdict IllegalCommand. -/
def legalIf (zeros : Bool) (i : Instr) : Except DecodeError Instr :=
  if zeros then .ok i else .error .illegalCommand

/-- "Decoding is a total function from 32-bit words to either one command of rule R102 or the verdict
`IllegalCommand`" (rule R105). The must-be-zero fields of each row are those of rule R102. -/
def decode (w : Word) : Except DecodeError Instr :=
  let a := w.modifier
  let imm := w.imm16
  let b := w.byte
  if w.rsv ≠ 0 then .error .illegalCommand
  else match w.op.toNat with
    | 0x1 => legalIf (imm == 0 && b == 0) (.bitx (if a then .eight else .one))
    | 0x2 => legalIf (!a && imm == 0 && b == 0) .start
    | 0x3 => legalIf (!a && imm == 0 && b == 0) .stop
    | 0x4 => legalIf (imm == 0) (.transmit (if a then .address else .data) b)
    | 0x5 => legalIf (!a && b == 0) (.receive imm)
    | 0x6 => legalIf (!a && imm == 0 && b == 0) .startSending
    | 0x7 => legalIf (!a && imm == 0) (.send b)
    | 0x8 => legalIf (!a && b == 0) (.sOpen imm)
    | 0x9 => legalIf (!a && imm == 0) (.sSend b)
    | 0xA => legalIf (!a) (.sSendRepeated imm b)
    | 0xB => legalIf (!a && imm == 0 && b == 0) .sValid
    | 0xC => legalIf (!a && b == 0) (.sReceive imm)
    | 0xD => legalIf (!a && imm == 0 && b == 0) .sStop
    | _ => .error .illegalCommand

/-! ## Encoding (rules R101 and R107) -/

/-- The word with the given fields and RSV = 000 (rule R101). -/
def packWord (op : BitVec 4) (a : Bool) (imm : Half) (b : Byte) : Word :=
  op ++ (0#3 ++ (BitVec.ofBool a ++ (imm ++ b)))

/-- The command word of a command (rules R101, R103 and R107). -/
def encode : Instr → Word
  | .bitx n => packWord 0x1 (n == .eight) 0 0
  | .start => packWord 0x2 false 0 0
  | .stop => packWord 0x3 false 0 0
  | .transmit ph b => packWord 0x4 (ph == .address) 0 b
  | .receive n => packWord 0x5 false n 0
  | .startSending => packWord 0x6 false 0 0
  | .send b => packWord 0x7 false 0 b
  | .sOpen s => packWord 0x8 false s 0
  | .sSend b => packWord 0x9 false 0 b
  | .sSendRepeated c b => packWord 0xA false c b
  | .sValid => packWord 0xB false 0 0
  | .sReceive n => packWord 0xC false n 0
  | .sStop => packWord 0xD false 0 0

/-! ## The AddressPrefix and the assembler (rules R107, R108 and R110) -/

/-- `prefix(dir) = (cfg.devAddr << 1) | (dir = Receive ? 1 : 0)` (rule R110). -/
def addressPrefix (cfg : Config) (dir : Direction) : Byte :=
  cfg.devAddr ++ BitVec.ofBool (dir == .receive)

/-- The command of a source line, or its assembly error. `ADDRESS` is evaluated "with `cfg.devAddr` at
assembly time" (rule R108). -/
def assemble (cfg : Config) (l : AsmLine) : Except AsmError Instr :=
  match l.problem with
  | some e => .error e
  | none => .ok <|
    match l with
    | .bitx n => .bitx (if n = 8 then .eight else .one)
    | .start => .start
    | .stop => .stop
    | .transmit ph b => .transmit ph (BitVec.ofNat 8 b)
    | .receive n => .receive (BitVec.ofNat 16 n)
    | .startSending => .startSending
    | .send b => .send (BitVec.ofNat 8 b)
    | .sOpen s => .sOpen (BitVec.ofNat 16 s)
    | .sSend b => .sSend (BitVec.ofNat 8 b)
    | .sSendRepeated c b => .sSendRepeated (BitVec.ofNat 16 c) (BitVec.ofNat 8 b)
    | .sValid => .sValid
    | .sReceive n => .sReceive (BitVec.ofNat 16 n)
    | .sStop => .sStop
    | .address dir => .transmit .address (addressPrefix cfg dir)

/-- The instruction the decoder reads from a command whose bits are `w`, numbered as the opcode table
numbers them. Every command is one word of 32 bits (rule R104); bits above `nbits` are 0. -/
def decodeTableWord (nbits w : Nat) : Option Instr :=
  match decode (BitVec.ofNat 32 (w % 2 ^ nbits)) with
  | .ok i => some i
  | .error _ => none

end Sys2Proof
end

