-- ==== Sys2Proof/Machine/State.lean ====
section
/-! DEFINITION. The architectural state of `10_state.md` rule R31 as plain data, the position in a
micro-program (UPC, rule R42) as plain data, the two input lists of the other agents, and the reset state
of rule R52. -/

namespace Sys2Proof.Machine

/-! ## Codes and modes -/

/-- The nine FaultCodes (`00_scope.md` rule R19), in the order of `30_encoding.md` rule R112. -/
inductive FaultCode where
  | ok | addressNack | dataNack | missingStart | missingStop | unexpectedStart | unexpectedStop
  | dataCollision | clockHighTimeout
  deriving DecidableEq, Repr

/-- SCL_DRV: the master drives the clock low, or has released it (rule R35). -/
inductive SclDrv where
  | low | rel
  deriving DecidableEq, Repr

/-- SDA_DIR: the data pin's direction, In or Out (rule R33). -/
inductive SdaDir where
  | inward | outward
  deriving DecidableEq, Repr

/-- PHASE (rule R43). -/
inductive Phase where
  | idle | started | addressSent | sending | receiving | stopped | error
  deriving DecidableEq, Repr

/-- The orchestrator operations that NextPhase tells apart (`44_orchestrator.md` rule R250). -/
inductive OpKind where
  | bitx | start | stop | transmit (ph : TxPhase) | receive | startSending | send
  deriving DecidableEq, Repr

/-- What a completed command gives the host beside RESULT, on the VALUE port
(`30_encoding.md` rule R114, `60_exceptions.md` rule R327). -/
inductive Value where
  /-- BITX's 8-bit value, when OK. -/
  | byte (v : Byte)
  /-- S_VALID's VALID. -/
  | valid (v : Bool)
  /-- S_STOP's Status. -/
  | status (fault : FaultCode) (step : Nat)
  deriving DecidableEq, Repr

/-! ## Micro-steps (`41_bit_transfer.md` rule R169) and micro-program positions -/

/-- What the caller of `BitTransfer` does with the byte it returns. -/
inductive PresetUse where
  /-- discards it: TRANSMIT's byte (`43_byte_engine.md` rule R220, corner case e) -/
  | drop
  /-- gives it to the host: BITX (`41_bit_transfer.md` rule R175) -/
  | give
  /-- tests its bit 0, the peer's ACK/NACK (rule R220) -/
  | ack (ph : TxPhase)
  /-- writes it to RX[i] (rule R230) -/
  | toRx (i : Half)
  /-- discards it after the master's ACK/NACK bit of byte i, then reads byte i+1 if i+1 < n (rule R230) -/
  | ackSent (i n : Half)
  deriving DecidableEq, Repr

/-- The condition of a μCHECK. -/
inductive Check where
  /-- START_DET = 1 (`42_conditions.md` rule R200) -/
  | startMade
  /-- STOP_DET = 1 (`42_conditions.md` rule R205) -/
  | stopMade
  /-- TRANSMIT's three conditions, read together (`43_byte_engine.md` rule R220) -/
  | transmit (ph : TxPhase)
  deriving DecidableEq, Repr

/-- The engine micro-steps other than μSESS: the rows of rule R169, with their operands. -/
inductive MicroOp where
  | sclRel
  | sclLow
  | sdaForce
  | sdaUnforce
  | sdaIn
  | stage (b : Byte)
  | beginBits (n : BitCount)
  | shift
  | preset (use : PresetUse)
  | readScl
  | wait (d : DelayName)
  | check (c : Check)
  | writeRx (i : Half) (v : Byte)
  deriving DecidableEq, Repr

/-- One micro-step of a micro-program, with the intermediate PHASE value written together with it
(`44_orchestrator.md` rule R250), if one is. -/
structure Work where
  op : MicroOp
  mark : Option Phase := none
  deriving DecidableEq, Repr

/-- One assignment of a μSESS (rule R169: "only the listed session registers"). -/
inductive SessAssign where
  /-- SESS_OPEN <- b -/
  | openTo (b : Bool)
  /-- SESS_STEP <- n -/
  | stepTo (n : Nat)
  /-- SESS_STEP <- (SESS_STEP + 1) mod 2^STEP_WIDTH -/
  | stepUp
  /-- SESS_FAULT <- r -/
  | faultTo (r : FaultCode)
  /-- SESS_FAULT <- fold(SESS_FAULT, r) -/
  | foldFault (r : FaultCode)
  deriving DecidableEq, Repr

/-- What a session command gives the host when it ends (`30_encoding.md` rule R114). -/
inductive SessGive where
  | nothing | valid | status
  deriving DecidableEq, Repr

/-- What follows a μSESS. -/
inductive SessEnd where
  /-- `finishS(op, r)`; `none` is `finishS(none, -)` (`45_session.md` rule R270) -/
  | finish (op : Option (OpKind × FaultCode)) (give : SessGive)
  /-- the loop of S_SEND_REPEATED after an iteration that returned r, with `left` iterations to go
  (`45_session.md` rule R276) -/
  | again (r : FaultCode) (left : Nat) (b : Byte)
  deriving DecidableEq, Repr

/-- What a command does with the code its orchestrator operation returns. -/
inductive Kont where
  /-- a raw command: `finish(r)` in the same micro-step (`44_orchestrator.md` rule R250) -/
  | finish (op : OpKind)
  /-- S_OPEN (`45_session.md` rule R272), with step0 -/
  | sOpen (step0 : Nat)
  /-- S_SEND (rule R274) -/
  | sSend
  /-- an iteration of S_SEND_REPEATED (rule R276), with the iterations left after it -/
  | sRepeat (left : Nat) (b : Byte)
  /-- S_RECEIVE (rule R280) -/
  | sReceive
  /-- S_STOP (rule R282) -/
  | sStop
  deriving DecidableEq, Repr

/-- UPC, the position in the running command's micro-program (rule R42): the next micro-step, the ones
after it, and what the command does at their end. -/
inductive Upc where
  | op (w : Work) (rest : List Work) (k : Kont)
  | sess (as : List SessAssign) (e : SessEnd)
  deriving DecidableEq, Repr

/-! ## TRACE (rule R53) -/

/-- The name and operands of a step, as TRACE records them: "for μWAIT, the delay's name and cycle count;
for an SCL read, the level read". -/
inductive EventKind where
  | sclRel | sclLow | sdaForce | sdaUnforce | sdaIn
  | stage (b : Byte)
  | beginBits (n : BitCount)
  | shift
  | preset
  | readScl (level : Bool)
  | wait (d : DelayName) (cycles : Nat)
  | check (c : Check)
  | writeRx (i : Half) (v : Byte)
  | sess (as : List SessAssign)
  | peerScl (low : Bool)
  | peerSda (low : Bool)
  deriving DecidableEq, Repr

/-- One event of TRACE: the step, and the SCL and SDA levels after it. -/
structure Event where
  kind : EventKind
  scl : Bool
  sda : Bool
  deriving DecidableEq, Repr

/-! ## The Peer, memory and the ports -/

/-- One move of the Peer's list: a Peer step (`41_bit_transfer.md` rule R166), or `pass`, which lets the
engine make its next micro-step. -/
inductive PeerMove where
  /-- PEER_SCL_LOW <- low -/
  | scl (low : Bool)
  /-- PEER_SDA_LOW <- low -/
  | sda (low : Bool)
  | pass
  deriving DecidableEq, Repr

/-- RX: the bytes written so far, addresses strictly rising; an index that is not listed holds no value
(`20_memory.md` rule R80). -/
abbrev Memory := List Host.Cell

/-- The ports the host reads (`60_exceptions.md` rule R327). -/
inductive Port where
  | engstat | shreg | result | value | sessFault | sessStep | rx (i : Half)
  deriving DecidableEq, Repr

/-- What a port read gives. -/
inductive PortWord where
  | engstat (w : BitVec 16)
  | byte (v : Byte)
  | code (c : FaultCode)
  | value (v : Value)
  | step (n : Nat)
  deriving DecidableEq, Repr

/-! ## The state record (rule R31) -/

/-- The state of rule R31, the VALUE port of `60_exceptions.md` rule R327, the configuration of rule R46
(no step writes it) and the inputs still to come from the other two agents. `none` in `result`,
`sessFault`, `sessStep` and `value` is the spec's "no value". -/
structure State where
  /-- the configuration (rule R46) -/
  cfg : Config
  /-- SCL_DRV (rule R35) -/
  sclDrv : SclDrv
  /-- SDA_FORCE (rule R34) -/
  sdaForce : Bool
  /-- SDA_DIR (rule R33) -/
  sdaDir : SdaDir
  /-- SHREG (rule R32) -/
  shreg : Byte
  /-- START_DET (rule R36) -/
  startDet : Bool
  /-- STOP_DET (rule R37) -/
  stopDet : Bool
  /-- LATCH (rule R39) -/
  latch : Bool
  /-- CNT (rule R40) -/
  cnt : Nat
  /-- POLLK (rule R41) -/
  pollk : Nat
  /-- UPC (rule R42) -/
  upc : Option Upc
  /-- PHASE (rule R43) -/
  phase : Phase
  /-- RESULT, or no value (rule R44) -/
  result : Option FaultCode
  /-- the VALUE port, or no value (`60_exceptions.md` rule R327) -/
  value : Option Value
  /-- SESS_OPEN (rule R45) -/
  sessOpen : Bool
  /-- SESS_FAULT, or no value (rule R45) -/
  sessFault : Option FaultCode
  /-- SESS_STEP, or no value (rule R45) -/
  sessStep : Option Nat
  /-- RX (`20_memory.md` rule R80) -/
  rx : Memory
  /-- PEER_SCL_LOW (rule R47) -/
  peerSclLow : Bool
  /-- PEER_SDA_LOW (rule R47) -/
  peerSdaLow : Bool
  /-- REFUSED (rule R53) -/
  refused : Bool
  /-- TRACE (rule R53), newest event first -/
  trace : List Event
  /-- the model's own: the words the host will put on CMD, in issue order -/
  cmds : List Word
  /-- the model's own: the Peer's moves still to come, in order -/
  peer : List PeerMove
  deriving DecidableEq, Repr

/-! ## How a step can stop -/

/-- The reason of a model fault. -/
inductive Fault where
  /-- A host read of a port that holds no value: "A read of a field that holds no value is a fault of the
  model, not a value" (rule R51; rules R44, R52 and R342 say the same). Raised by `hostRead` only: no
  command and no step raises it. Safe. -/
  | noValue (p : Port)
  deriving DecidableEq, Repr

/-- The reason of a model refusal. The spec's own refusals (`60_exceptions.md` rule R311) are not among
these: they end in a next state, with REFUSED set. -/
inductive Refusal where
  /-- An instruction without a meaning in this model: raised by an arm of `exec` only, and by none now.
  Safe. -/
  | notModelled (mnemonic : String)
  /-- The host would move while a command runs, when it "has no move" (`60_exceptions.md` rule R336).
  Raised by a meaning applied, or a port read, with UPC ≠ none; `step` never does so. Safe. -/
  | hostBlocked
  deriving DecidableEq, Repr

/-- The reasons of the spec's refusals, in the order they are checked (`60_exceptions.md` rule R311). -/
inductive RefuseReason where
  | illegalCommand | sessionOwnsBus | noSession | afterFault
  deriving DecidableEq, Repr

/-! ## Reset -/

/-- The state after reset (rule R52), for a configuration and the two draws PEER_SCL_LOW and
PEER_SDA_LOW, with no command and no Peer move to come. -/
def State.resetWith (cfg : Config) (peerSclLow peerSdaLow : Bool) : State where
  cfg := cfg
  sclDrv := .rel
  sdaForce := false
  sdaDir := .inward
  shreg := 0xFF
  startDet := false
  stopDet := false
  latch := true
  cnt := 0
  pollk := 0
  upc := none
  phase := .idle
  result := none
  value := none
  sessOpen := false
  sessFault := none
  sessStep := none
  rx := []
  peerSclLow := peerSclLow
  peerSdaLow := peerSdaLow
  refused := false
  trace := []
  cmds := []
  peer := []

/-- The machine right after reset, with the setting of `95_test_vectors.md` section 0.1 for the
parameters and the draws. DESIGN CHOICE (log entries 3 and 4). -/
def State.reset : State := State.resetWith Config.ofVectors false false

end Sys2Proof.Machine
end

