-- ==== Sys2Proof/Machine/Operands.lean ====
section
/-! DEFINITION. Operand forms and small values: the parameters of `00_scope.md` rule R9 as numbers, the
operands of `30_encoding.md` rule R103, the FaultCode numbers of rule R112, and the Delay derivation of
`40_timing_profile.md` rule R141. -/

namespace Sys2Proof.Machine

/-- POLL_BOUND, 1 to 256 (rule R9). -/
def pollBound (cfg : Config) : Nat := cfg.pollBoundPred.val + 1

/-- STEP_WIDTH, at least 1 (rule R9). -/
def stepWidth (cfg : Config) : Nat := cfg.stepWidthPred + 1

/-- `v mod 2^STEP_WIDTH` (`45_session.md` rules R272 and R274). -/
def stepMod (cfg : Config) (v : Nat) : Nat := v % 2 ^ stepWidth cfg

/-- `step0 = IMM16 mod 2^STEP_WIDTH` (rule R103). -/
def openingStep (cfg : Config) (imm : Half) : Nat := stepMod cfg imm.toNat

/-- The number of clock pulses of a bit count: `n = (A = 1) ? 8 : 1` (rule R103). -/
def pulses : BitCount → Nat
  | .one => 1
  | .eight => 8

/-- The FaultCode numbers, in 4 bits (rule R112). -/
def codeValue : FaultCode → BitVec 4
  | .ok => 0
  | .addressNack => 1
  | .dataNack => 2
  | .missingStart => 3
  | .missingStop => 4
  | .unexpectedStart => 5
  | .unexpectedStop => 6
  | .dataCollision => 7
  | .clockHighTimeout => 8

/-- The code of a sampled NACK, by phase (`43_byte_engine.md` rule R220). -/
def nackCode : TxPhase → FaultCode
  | .address => .addressNack
  | .data => .dataNack

/-- The byte the receiver stages to answer byte i of n: ACK 0x00 for all but the last, NACK 0xFF for the
last (`30_encoding.md` rule R111, `43_byte_engine.md` rule R230). -/
def answerByte (i n : Half) : Byte := if i.toNat + 1 < n.toNat then 0x00 else 0xFF

/-- The cycle count of a named Delay (`40_timing_profile.md` rule R140). -/
def delayOf (d : Delays) : DelayName → Nat
  | .preStart => d.preStart
  | .postStart => d.postStart
  | .preStop => d.preStop
  | .idle => d.idle
  | .preClockHigh => d.preClockHigh
  | .postClockHigh => d.postClockHigh
  | .postTransfer => d.postTransfer

/-- The Delay derivation for a rational microsecond value and a frequency in Hz:
0 if `us ≤ 0`, else `ceil(us × f / 1_000_000)` (`40_timing_profile.md` rule R141). -/
def delayCycles (us : Rat) (f : Nat) : Nat :=
  if us ≤ 0 then 0 else (us * (f : Rat) / 1000000).ceil.toNat

/-- The seven Delays from seven microsecond values and `f_cpu`, derived once, before a run
(`40_timing_profile.md` rule R143, `70_reset_and_hazards.md` rule R345). -/
def deriveDelays (us : DelayName → Rat) (f : Nat) : Delays where
  preStart := delayCycles (us .preStart) f
  postStart := delayCycles (us .postStart) f
  preStop := delayCycles (us .preStop) f
  idle := delayCycles (us .idle) f
  preClockHigh := delayCycles (us .preClockHigh) f
  postClockHigh := delayCycles (us .postClockHigh) f
  postTransfer := delayCycles (us .postTransfer) f

end Sys2Proof.Machine
end

