-- ==== Sys2Proof/Machine/Flags.lean ====
section
/-! DEFINITION. Line levels and status conditions: the wired-AND lines (`41_bit_transfer.md` rule R163), the
condition detector (rule R167), the sample latch (rule R168), COLL (`10_state.md` rule R38), the checks of
START, STOP and TRANSMIT, and the observation word ENGSTAT (`10_state.md` rule R50). -/

namespace Sys2Proof.Machine

/-! ## Line levels, true = high (rules R161 to R163) -/

/-- "The master pulls SCL low exactly when `SCL_DRV = Low`" (rule R161). -/
def State.pullsScl (s : State) : Bool := s.sclDrv == .low

/-- "The master pulls SDA low exactly when `SDA_DIR = Out ∧ (SDA_FORCE ∨ SHREG[7] = 0)`" (rule R162). -/
def State.pullsSda (s : State) : Bool := s.sdaDir == .outward && (s.sdaForce || !s.shreg.msb)

/-- SCL(): the wired-AND of all drivers of the clock line (rule R163). -/
def State.scl (s : State) : Bool := !s.pullsScl && !s.peerSclLow

/-- SDA(): the wired-AND of all drivers of the data line (rule R163). -/
def State.sda (s : State) : Bool := !s.pullsSda && !s.peerSdaLow

/-- COLL = (SHREG[7] ≠ SDA()) (`10_state.md` rule R38). -/
def State.coll (s : State) : Bool := s.shreg.msb != s.sda

/-! ## Detector and latch (rules R167 and R168) -/

/-- A Start condition between the levels before and after a step (rule R167). -/
def startEdge (scl0 sda0 scl1 sda1 : Bool) : Bool := scl0 && scl1 && sda0 && !sda1

/-- A Stop condition between the levels before and after a step (rule R167). -/
def stopEdge (scl0 sda0 scl1 sda1 : Bool) : Bool := scl0 && scl1 && !sda0 && sda1

/-- Stages 3 to 5 of rule R160 for a step from `s0` whose own writes gave `s1`: the detector sets
START_DET and STOP_DET, the latch takes SDA where SCL rose, and TRACE gets the step's event with the
levels after it. -/
def commit (s0 s1 : State) (k : EventKind) : State :=
  { s1 with
    startDet := s1.startDet || startEdge s0.scl s0.sda s1.scl s1.sda
    stopDet := s1.stopDet || stopEdge s0.scl s0.sda s1.scl s1.sda
    latch := if !s0.scl && s1.scl then s1.sda else s1.latch
    trace := ⟨k, s1.scl, s1.sda⟩ :: s1.trace }

/-! ## Checks -/

/-- The code a μCHECK returns: OK, or the fault of the first condition that fails. START's and STOP's
checks are those of `42_conditions.md` rules R200 and R205; TRANSMIT's order is `43_byte_engine.md`
rule R221. -/
def checkCode (c : Check) (s : State) : FaultCode :=
  match c with
  | .startMade => if s.startDet then .ok else .missingStart
  | .stopMade => if s.stopDet then .ok else .missingStop
  | .transmit .address =>
    if !s.startDet then .missingStart
    else if s.coll then .dataCollision
    else .ok
  | .transmit .data =>
    if s.startDet then .unexpectedStart
    else if s.stopDet then .unexpectedStop
    else if s.coll then .dataCollision
    else .ok

/-! ## ENGSTAT (`10_state.md` rule R50) -/

/-- The numbering of PHASE (`10_state.md` rule R43). -/
def phaseNumber : Phase → BitVec 3
  | .idle => 0
  | .started => 1
  | .addressSent => 2
  | .sending => 3
  | .receiving => 4
  | .stopped => 5
  | .error => 6

/-- The 16-bit observation word: bits [15:10] read as 0, then SESS_OPEN, SDA_DIR, SDA_FORCE, SCL_DRV,
COLL, STOP_DET, START_DET and PHASE (rule R50). -/
def State.engstat (s : State) : BitVec 16 :=
  0#6 ++ (BitVec.ofBool s.sessOpen ++ (BitVec.ofBool (s.sdaDir == .outward) ++
    (BitVec.ofBool s.sdaForce ++ (BitVec.ofBool (s.sclDrv == .rel) ++ (BitVec.ofBool s.coll ++
      (BitVec.ofBool s.stopDet ++ (BitVec.ofBool s.startDet ++ phaseNumber s.phase)))))))

end Sys2Proof.Machine
end

