-- ==== Sys2Proof/Machine/Programs.lean ====
section
/-! DEFINITION. The micro-programs of `41_bit_transfer.md` to `44_orchestrator.md` as lists of micro-steps, in
pseudocode order. A loop of the pseudocode is a micro-step that puts its body back in front of what
follows (`MicroOp.flow` in Ops.lean); a fault drops what is left (`00_scope.md` rule R13). -/

namespace Sys2Proof.Machine

/-- A micro-step with no intermediate PHASE value. -/
def plain (op : MicroOp) : Work := { op := op }

/-- `Pulse()` (`41_bit_transfer.md` rule R173). The read repeats by rule R172. -/
def pulseProg : List Work :=
  [ plain (.wait .preClockHigh), plain .sclRel, plain .readScl, plain (.wait .postClockHigh),
    plain .sclLow, plain .shift ]

/-- `BitTransfer(n)` (rule R174), ending in a μPRESET whose value goes to `use` and whose OK writes the
PHASE value `mark`, if any. Further pulses come from the shift, "until CNT = 0". -/
def bitTransferProg (n : BitCount) (use : PresetUse) (mark : Option Phase) : List Work :=
  plain (.beginBits n) :: (pulseProg ++
    [plain (.wait .postTransfer), { op := .preset use, mark := mark }])

/-- `Start()` (`42_conditions.md` rule R200). -/
def startProg (mark : Option Phase) : List Work :=
  [ plain .sclRel, plain .readScl, plain .sdaForce, plain (.wait .preStart), plain .sclLow,
    plain .sdaUnforce, { op := .check .startMade, mark := mark } ]

/-- `Stop()` (`42_conditions.md` rule R205). -/
def stopProg : List Work :=
  [ plain .sdaForce, plain .sclRel, plain .readScl, plain (.wait .preStop), plain .sdaUnforce,
    plain (.wait .idle), plain (.check .stopMade) ]

/-- `Transmit(b, isAddr)` (`43_byte_engine.md` rule R220). -/
def transmitProg (ph : TxPhase) (b : Byte) (mark : Option Phase) : List Work :=
  [plain (.check (.transmit ph)), plain .sclLow, plain (.stage b)] ++
    (bitTransferProg .eight .drop none ++
      (plain .sdaIn :: bitTransferProg .one (.ack ph) mark))

/-- Byte i of RECEIVE's loop over n bytes (`43_byte_engine.md` rule R230). The μWRITERX of the byte comes
from the first μPRESET, the next byte from the second. -/
def receiveByteProg (i n : Half) (mark : Option Phase) : List Work :=
  { op := .sdaIn, mark := mark } :: (bitTransferProg .eight (.toRx i) none ++
    (plain (.stage (answerByte i n)) :: bitTransferProg .one (.ackSent i n) none))

/-- `StartSending()` (`44_orchestrator.md` rule R255), with the PHASE values of rule R250. -/
def startSendingProg (cfg : Config) : List Work :=
  startProg (some .started) ++
    transmitProg .address (addressPrefix cfg .send) (some .addressSent)

/-- `Receive(N)` (`43_byte_engine.md` rule R230), with the PHASE values of `44_orchestrator.md` rule
R250: Receiving only "when RECEIVE enters its byte loop". -/
def receiveProg (cfg : Config) (n : Half) : List Work :=
  startProg (some .started) ++
    (transmitProg .address (addressPrefix cfg .receive) (some .addressSent) ++
      ((if n = 0 then [] else receiveByteProg 0 n (some .receiving)) ++ stopProg))

end Sys2Proof.Machine
end

