-- ==== Sys2Proof/Machine/Ops.lean ====
section
/-! DEFINITION. The shared operations: RX memory, the micro-steps (`41_bit_transfer.md` rule R169), the end of a
command (`44_orchestrator.md` rule R250 and `45_session.md` rule R270), the refusals
(`60_exceptions.md` rule R311), the atomic steps of rule R160, and running a command to its end. -/

namespace Sys2Proof.Machine

/-! ## RX (`20_memory.md` rules R80 and R87) -/

/-- The byte at an RX index, or no value. -/
def Memory.read (m : Memory) (a : Nat) : Option Byte :=
  match m with
  | [] => none
  | (k, v) :: rest => if a = k then some v else Memory.read rest a

/-- `MemWrite(RX, a, 1, v)`, keeping the addresses strictly rising. -/
def Memory.write (m : Memory) (a : Nat) (v : Byte) : Memory :=
  match m with
  | [] => [(a, v)]
  | (k, w) :: rest =>
    if a < k then (a, v) :: (k, w) :: rest
    else if a = k then (a, v) :: rest
    else (k, w) :: Memory.write rest a v

/-- The canonical form from a lowest allowed address on: addresses strictly rising, inside the 65536-byte
space. An index that holds no value is not listed, so no entry can equal what an unlisted index reads as. -/
def Memory.wfFrom (lo : Nat) (m : Memory) : Bool :=
  match m with
  | [] => true
  | (k, _) :: rest => decide (lo ≤ k) && decide (k < 65536) && Memory.wfFrom (k + 1) rest

/-- The canonical form of RX. -/
def Memory.wf (m : Memory) : Bool := m.wfFrom 0

/-! ## Micro-steps (`41_bit_transfer.md` rule R169) -/

/-- The micro-step's own writes: stage 2 of rule R160, the "writes" column of rule R169. The uses of the
value read are in `MicroOp.flow`. -/
def MicroOp.write (op : MicroOp) (s : State) : State :=
  match op with
  | .sclRel => { s with sclDrv := .rel, pollk := 0 }
  | .sclLow => { s with sclDrv := .low }
  | .sdaForce => { s with sdaForce := true, sdaDir := .outward }
  | .sdaUnforce => { s with sdaForce := false }
  | .sdaIn => { s with sdaDir := .inward }
  | .stage b => { s with shreg := b, sdaDir := .outward }
  | .beginBits n => { s with startDet := false, stopDet := false, cnt := pulses n }
  | .shift =>
    { s with shreg := s.shreg.extractLsb' 0 7 ++ BitVec.ofBool s.latch, cnt := s.cnt - 1 }
  | .preset _ => { s with shreg := 0xFF, sdaDir := .inward }
  | .readScl => { s with pollk := if s.scl then s.pollk else s.pollk + 1 }
  | .wait _ => s
  | .check _ => s
  | .writeRx i v => { s with rx := s.rx.write i.toNat v }

/-- The micro-step's name and operands as TRACE records them (`10_state.md` rule R53). -/
def MicroOp.event (op : MicroOp) (s : State) : EventKind :=
  match op with
  | .sclRel => .sclRel
  | .sclLow => .sclLow
  | .sdaForce => .sdaForce
  | .sdaUnforce => .sdaUnforce
  | .sdaIn => .sdaIn
  | .stage b => .stage b
  | .beginBits n => .beginBits n
  | .shift => .shift
  | .preset _ => .preset
  | .readScl => .readScl s.scl
  | .wait d => .wait d (delayOf s.cfg.dly d)
  | .check c => .check c
  | .writeRx i v => .writeRx i v

/-- What the pure control after a micro-step decides (`00_scope.md` rule R13). -/
inductive Flow where
  /-- goes on, with the value a μPRESET gives the host, if it does -/
  | next (given : Option Byte)
  /-- puts more micro-steps in front of the ones that follow: a loop's body, or the use of a value -/
  | again (more : List Work)
  /-- returns a FaultCode that is not OK -/
  | stop (r : FaultCode)
  deriving DecidableEq, Repr

/-- A code as control: OK goes on, any other code ends the operation (rule R13). -/
def Flow.ofCode (r : FaultCode) : Flow := if r = .ok then .next none else .stop r

/-- What the caller of `BitTransfer` does with its value `v`: SHREG as the last μSHIFT left it
(`41_bit_transfer.md` rule R174). `a[0] = 1` is a NACK (`43_byte_engine.md` rule R220). -/
def PresetUse.flow (use : PresetUse) (v : Byte) : Flow :=
  match use with
  | .drop => .next none
  | .give => .next (some v)
  | .ack ph => Flow.ofCode (if v.getLsbD 0 then nackCode ph else .ok)
  | .toRx i => .again [plain (.writeRx i v)]
  | .ackSent i n =>
    if i.toNat + 1 < n.toNat then .again (receiveByteProg (i + 1) n none) else .next none

/-- The control after a micro-step made in state `s`: the poll loop of rule R172 (`if POLLK = POLL_BOUND`;
log entry 14), the pulse loop of rule R174 (`until CNT = 0`), the checks, the uses of a value. -/
def MicroOp.flow (op : MicroOp) (s : State) : Flow :=
  match op with
  | .readScl =>
    if s.scl then .next none
    else if pollBound s.cfg ≤ s.pollk + 1 then .stop .clockHighTimeout
    else .again [plain .readScl]
  | .shift => if s.cnt - 1 = 0 then .next none else .again pulseProg
  | .preset use => use.flow s.shreg
  | .check c => Flow.ofCode (checkCode c s)
  | .sclRel | .sclLow | .sdaForce | .sdaUnforce | .sdaIn | .stage _ | .beginBits _ | .wait _
  | .writeRx _ _ => .next none

/-- One assignment of μSESS (rule R169). `fold(f, r) = (f = OK) ? r : f` (`45_session.md` rule R270). -/
def SessAssign.write (a : SessAssign) (s : State) : State :=
  match a with
  | .openTo b => { s with sessOpen := b }
  | .stepTo n => { s with sessStep := some n }
  | .stepUp => { s with sessStep := s.sessStep.map fun n => stepMod s.cfg (n + 1) }
  | .faultTo r => { s with sessFault := some r }
  | .foldFault r => { s with sessFault := s.sessFault.map fun f => if f = .ok then r else f }

/-- The assignments of one μSESS, in the order listed. -/
def writeAll (as : List SessAssign) (s : State) : State :=
  as.foldl (fun t a => a.write t) s

/-! ## The end of a command: returning a FaultCode

A fault is a returned value (`60_exceptions.md` rule R300). `finish` and `finishS` are the one place where a
command, faulted or not, gives control back: nothing is saved and nothing is rolled back (rule R304). -/

/-- NextPhase(cmd, r) (`44_orchestrator.md` rule R250). -/
def nextPhase (op : OpKind) (r : FaultCode) (p : Phase) : Phase :=
  if r ≠ .ok then .error
  else match op with
    | .start => .started
    | .startSending | .transmit .address => .addressSent
    | .send | .transmit .data => .sending
    | .stop | .receive => .stopped
    | .bitx => p

/-- The PHASE value written together with a micro-step that does not end its command, if one is
(`44_orchestrator.md` rule R250). -/
def stamp (mark : Option Phase) (s : State) : State :=
  match mark with
  | some p => { s with phase := p }
  | none => s

/-- `finish(r)` of a raw command, with the byte a BITX gives the host (rule R250;
`30_encoding.md` rule R114). -/
def finish (op : OpKind) (r : FaultCode) (given : Option Byte) (s : State) : State :=
  { s with
    result := some r
    value := given.map .byte
    phase := nextPhase op r s.phase
    upc := none }

/-- What a session command gives the host (`45_session.md` rules R278 and R282). -/
def SessGive.value (g : SessGive) (s : State) : Option Value :=
  match g with
  | .nothing => none
  | .valid => s.sessFault.map fun f => .valid (f == .ok)
  | .status => match s.sessFault, s.sessStep with
    | some f, some n => some (.status f n)
    | _, _ => none

/-- `finishS(op, r)` (`45_session.md` rule R270): RESULT <- SESS_FAULT; PHASE only if an operation ran. -/
def finishS (op : Option (OpKind × FaultCode)) (g : SessGive) (s : State) : State :=
  { s with
    result := s.sessFault
    value := g.value s
    phase := match op with
      | some (o, r) => nextPhase o r s.phase
      | none => s.phase
    upc := none }

/-- An orchestrator operation returns `r` to its command. -/
def returnOp (k : Kont) (r : FaultCode) (given : Option Byte) (s : State) : State :=
  match k with
  | .finish op => finish op r given s
  | .sOpen step0 =>
    { s with upc := some (.sess [.openTo true, .stepTo step0, .faultTo r]
        (.finish (some (.startSending, r)) .nothing)) }
  | .sSend =>
    { s with upc := some (.sess [.stepUp, .foldFault r] (.finish (some (.send, r)) .nothing)) }
  | .sRepeat left b => { s with upc := some (.sess [.stepUp, .foldFault r] (.again r left b)) }
  | .sReceive =>
    { s with upc := some (.sess [.openTo false, .foldFault r]
        (.finish (some (.receive, r)) .nothing)) }
  | .sStop =>
    { s with upc := some (.sess [.openTo false, .foldFault r]
        (.finish (some (.stop, r)) .status)) }

/-- The micro-program goes on with `ws`, or returns OK when none is left. -/
def proceed (k : Kont) (ws : List Work) (given : Option Byte) (s : State) : State :=
  match ws with
  | [] => returnOp k .ok given s
  | w :: rest => { s with upc := some (.op w rest k) }

/-- The head of S_SEND_REPEATED's loop with `left` iterations to go (`45_session.md` rule R276): the next
`SessSend(b)`, or the closing `μSESS()` when none is left or the sticky fault is not OK. -/
def repeatLoop (left : Nat) (b : Byte) (s : State) : State :=
  match left, s.sessFault with
  | n + 1, some .ok => proceed (.sRepeat n b) (transmitProg .data b none) none s
  | _, _ => { s with upc := some (.sess [] (.finish none .nothing)) }

/-- What follows a μSESS, in the same micro-step. -/
def sessEnd (e : SessEnd) (s : State) : State :=
  match e with
  | .finish op g => finishS op g s
  | .again r left b => repeatLoop left b (stamp (some (nextPhase .send r s.phase)) s)

/-! ## The atomic steps of rule R160 -/

/-- One engine micro-step: rule R160 (a), with the control after it. Nothing when UPC = none. -/
def engineStep (s : State) : State :=
  match s.upc with
  | none => s
  | some (.sess as e) => sessEnd e (commit s (writeAll as s) (.sess as))
  | some (.op w rest k) =>
    let t := commit s (w.op.write s) (w.op.event s)
    match w.op.flow s with
    | .next given => proceed k rest given (stamp w.mark t)
    | .again more => proceed k (more ++ rest) none t
    | .stop r => returnOp k r none t

/-- One Peer step: rule R160 (b), rule R166. `pass` is no step. -/
def peerStep (m : PeerMove) (s : State) : State :=
  match m with
  | .scl b => commit s { s with peerSclLow := b } (.peerScl b)
  | .sda b => commit s { s with peerSdaLow := b } (.peerSda b)
  | .pass => s

/-- One atomic step of the machine while a command runs: the Peer's next move if its list has one, else
(after a `pass`, or with no move left) the engine's micro-step. -/
def tick (s : State) : State :=
  match s.peer with
  | [] => engineStep s
  | .pass :: rest => engineStep { s with peer := rest }
  | m :: rest => peerStep m { s with peer := rest }

/-- What happens while no command runs and the host issues none: the Peer's next move, if it has one
(`60_exceptions.md` rule R330: the block "does nothing and keeps all state"). -/
def idleStep (s : State) : State :=
  match s.peer with
  | [] => s
  | m :: rest => peerStep m { s with peer := rest }

/-! ## How long a command can run (`70_reset_and_hazards.md` rule R366)

The bound on the engine micro-steps a position still has to make, whatever the Peer does. It is the fuel of
`run`; the worst-case column of rule R366 is its value at a command's first micro-step. -/

/-- The most micro-steps `Pulse()` makes (rule R178). -/
def pulseCost (p : Nat) : Nat := p + 5

/-- The most micro-steps one byte of RECEIVE's loop makes (`43_byte_engine.md` rule R233). -/
def receiveByteCost (p : Nat) : Nat := 9 * p + 54

/-- The most micro-steps one forwarded send of a session makes (`45_session.md` rule R275). -/
def sessSendCost (p : Nat) : Nat := 9 * p + 56

/-- The micro-steps a micro-step stands for, with the loops it can put in front of what follows: a μSCL_REL
stands for its poll's failed reads, a μBEGIN for the pulses after the first, a μPRESET for its value's use. -/
def MicroOp.cost (p : Nat) (op : MicroOp) : Nat :=
  match op with
  | .sclRel => p
  | .beginBits n => 1 + (pulses n - 1) * pulseCost p
  | .preset (.toRx _) => 2
  | .preset (.ackSent i n) => 1 + (n.toNat - (i.toNat + 1)) * receiveByteCost p
  | _ => 1

/-- The sum over a list of micro-steps. -/
def workCost (p : Nat) (ws : List Work) : Nat :=
  match ws with
  | [] => 0
  | w :: rest => w.op.cost p + workCost p rest

/-- A poll is under way: a read comes before the next μSCL_REL. -/
def pollDue (ws : List Work) : Bool :=
  match ws with
  | [] => false
  | w :: rest => match w.op with
    | .readScl => true
    | .sclRel => false
    | _ => pollDue rest

/-- A transfer is under way: a shift comes before the next μBEGIN. -/
def shiftDue (ws : List Work) : Bool :=
  match ws with
  | [] => false
  | w :: rest => match w.op with
    | .shift => true
    | .beginBits _ => false
    | _ => shiftDue rest

/-- What a command can still make after its operation returns. -/
def Kont.cost (p : Nat) (k : Kont) : Nat :=
  match k with
  | .finish _ => 0
  | .sOpen _ | .sSend | .sReceive | .sStop => 1
  | .sRepeat left _ => 2 + left * sessSendCost p

/-- The bound at a list of micro-steps, with POLLK and CNT as they stand. -/
def opBudget (p pollk cnt : Nat) (ws : List Work) : Nat :=
  workCost p ws + (bif pollDue ws then p - 1 - pollk else 0) +
    (bif shiftDue ws then (cnt - 1) * pulseCost p else 0)

/-- The engine micro-steps the running command can still make, at most. -/
def engineBudget (s : State) : Nat :=
  let p := pollBound s.cfg
  match s.upc with
  | none => 0
  | some (.op w rest k) => opBudget p s.pollk s.cnt (w :: rest) + k.cost p
  | some (.sess _ (.finish _ _)) => 1
  | some (.sess _ (.again _ left _)) => 2 + left * sessSendCost p

/-- Steps until UPC = none, at most `n`. -/
def runFor (n : Nat) (s : State) : State :=
  match n with
  | 0 => s
  | m + 1 => if s.upc.isNone then s else runFor m (tick s)

/-- Runs the command in flight to its end: "every call blocks until it returns" (`60_exceptions.md` rule
R336). The Peer's list bounds the Peer's steps, `engineBudget` the engine's. -/
def run (s : State) : State := runFor (s.peer.length + engineBudget s) s

/-! ## Issuing a command (`60_exceptions.md` rules R311 to R315 and R336) -/

/-- The commands the refusal rules tell apart (rule R315). -/
inductive CommandClass where
  /-- BITX, STOP, TRANSMIT, SEND: they "would continue the faulted conversation" (rule R312) -/
  | continuing
  /-- START, START_SENDING, RECEIVE: they "begin with a Start" (rule R312) -/
  | beginning
  /-- S_OPEN -/
  | opening
  /-- S_SEND, S_SEND_REPEATED, S_VALID, S_RECEIVE, S_STOP -/
  | member
  deriving DecidableEq, Repr

/-- Each command's class: the rows of rule R315's table. -/
def commandClass : Instr → CommandClass
  | .bitx _ | .stop | .transmit _ _ | .send _ => .continuing
  | .start | .receive _ | .startSending => .beginning
  | .sOpen _ => .opening
  | .sSend _ | .sSendRepeated _ _ | .sValid | .sReceive _ | .sStop => .member

/-- The reason a decoded command is refused, in the order SessionOwnsBus, NoSession, AfterFault (rule
R311), or none when it runs. -/
def refusal (c : CommandClass) (s : State) : Option RefuseReason :=
  match c with
  | .continuing =>
    if s.sessOpen then some .sessionOwnsBus
    else if s.phase = .error then some .afterFault
    else none
  | .beginning | .opening => if s.sessOpen then some .sessionOwnsBus else none
  | .member => if s.sessOpen then none else some .noSession

/-- The reason an issued word is refused, IllegalCommand first (rule R311), or none when its command
runs. -/
def refuseReason (w : Word) (s : State) : Option RefuseReason :=
  match decode w with
  | .error .illegalCommand => some .illegalCommand
  | .ok i => refusal (commandClass i) s

/-- A refused command: "The only write is REFUSED <- true" (rule R311). -/
def refuse (s : State) : State := { s with refused := true }

/-- Issues the command `i`: blocked while another runs, refused, or launched. -/
def command (i : Instr) (s : State)
    (launch : State → Host.Outcome State Fault Refusal) : Host.Outcome State Fault Refusal :=
  if s.upc.isSome then .refused .hostBlocked
  else match refusal (commandClass i) s with
    | some _ => .next (refuse s)
    | none => launch s

/-- Runs a micro-program to the end of its command. -/
def runProg (k : Kont) (ws : List Work) (s : State) : Host.Outcome State Fault Refusal :=
  .next (run (proceed k ws none s))

/-- Runs a session command that touches no hardware: one μSESS and `finishS(none, -)`. -/
def runSess (as : List SessAssign) (g : SessGive) (s : State) : Host.Outcome State Fault Refusal :=
  .next (run { s with upc := some (.sess as (.finish none g)) })

/-! ## Host reads (`10_state.md` rule R51, `60_exceptions.md` rule R327) -/

/-- A port's word, or the fault of reading a field that holds no value: "the model has no meaning for it and
must not invent a value" (`70_reset_and_hazards.md` rule R342). -/
def portWord (p : Port) (w : Option PortWord) : Host.Outcome PortWord Fault Refusal :=
  match w with
  | some v => .next v
  | none => .fault (.noValue p)

/-- The host reads a port between commands; the read has no side effect, so it is no step. -/
def hostRead (p : Port) (s : State) : Host.Outcome PortWord Fault Refusal :=
  if s.upc.isSome then .refused .hostBlocked
  else match p with
    | .engstat => .next (.engstat s.engstat)
    | .shreg => .next (.byte s.shreg)
    | .result => portWord p (s.result.map .code)
    | .value => portWord p (s.value.map .value)
    | .sessFault => portWord p (s.sessFault.map .code)
    | .sessStep => portWord p (s.sessStep.map .step)
    | .rx i => portWord p ((s.rx.read i.toNat).map .byte)

end Sys2Proof.Machine
end

