-- ==== Sys2Proof/Machine/BitTransfer.lean ====
section
/-! DEFINITION. BITX (`41_bit_transfer.md`). -/

namespace Sys2Proof.Machine

/-- BITX: "run the Bit-Transfer Engine alone" (rule R175). -/
def execBitx (n : BitCount) (s : State) : Host.Outcome State Fault Refusal :=
  command (.bitx n) s (runProg (.finish .bitx) (bitTransferProg n .give none))

end Sys2Proof.Machine
end

