-- ==== Sys2Proof/Machine/ByteEngine.lean ====
section
/-! DEFINITION. TRANSMIT and RECEIVE (`43_byte_engine.md`). -/

namespace Sys2Proof.Machine

/-- TRANSMIT: "send one byte and read the peer's ACK/NACK" (rule R220). -/
def execTransmit (ph : TxPhase) (b : Byte) (s : State) : Host.Outcome State Fault Refusal :=
  command (.transmit ph b) s (runProg (.finish (.transmit ph)) (transmitProg ph b none))

/-- RECEIVE: "read N bytes from the device" (rule R230). -/
def execReceive (n : Half) (s : State) : Host.Outcome State Fault Refusal :=
  command (.receive n) s (runProg (.finish .receive) (receiveProg s.cfg n))

end Sys2Proof.Machine
end

