-- ==== Sys2Proof/Machine/Conditions.lean ====
section
/-! DEFINITION. START and STOP (`42_conditions.md`). -/

namespace Sys2Proof.Machine

/-- START: "make and verify a Start condition" (rule R200). -/
def execStart (s : State) : Host.Outcome State Fault Refusal :=
  command .start s (runProg (.finish .start) (startProg none))

/-- STOP: "make and verify a Stop condition" (rule R205). -/
def execStop (s : State) : Host.Outcome State Fault Refusal :=
  command .stop s (runProg (.finish .stop) stopProg)

end Sys2Proof.Machine
end

