-- ==== Sys2Proof/Machine/Orchestrator.lean ====
section
/-! DEFINITION. START_SENDING and SEND (`44_orchestrator.md`). -/

namespace Sys2Proof.Machine

/-- START_SENDING: "open a conversation to write to the device" (rule R255). -/
def execStartSending (s : State) : Host.Outcome State Fault Refusal :=
  command .startSending s (runProg (.finish .startSending) (startSendingProg s.cfg))

/-- SEND: "send one data byte in the open conversation" (rule R257). -/
def execSend (b : Byte) (s : State) : Host.Outcome State Fault Refusal :=
  command (.send b) s (runProg (.finish .send) (transmitProg .data b none))

end Sys2Proof.Machine
end

