-- ==== Sys2Proof/Machine/Session.lean ====
section
/-! DEFINITION. The session commands (`45_session.md`). Each runs in every state with SESS_OPEN = true: the pseudocode's
`SESS_FAULT = OK` is false of a register that holds no value, which an open session's never is (log entry 15). -/

namespace Sys2Proof.Machine

/-- S_OPEN: "open a session and perform StartSending" (rule R272). -/
def execSOpen (step0 : Half) (s : State) : Host.Outcome State Fault Refusal :=
  command (.sOpen step0) s (runProg (.sOpen (openingStep s.cfg step0)) (startSendingProg s.cfg))

/-- S_SEND: "send one data byte within the session, unless it has already faulted" (rule R274). -/
def execSSend (b : Byte) (s : State) : Host.Outcome State Fault Refusal :=
  command (.sSend b) s fun s =>
    if s.sessFault = some .ok then runProg .sSend (transmitProg .data b none) s
    else runSess [] .nothing s

/-- S_SEND_REPEATED: "send one byte `count` times within the session" (rule R276). -/
def execSSendRepeated (count : Half) (b : Byte) (s : State) : Host.Outcome State Fault Refusal :=
  command (.sSendRepeated count b) s fun s => .next (run (repeatLoop count.toNat b s))

/-- S_VALID: "the validity check" (rule R278). -/
def execSValid (s : State) : Host.Outcome State Fault Refusal :=
  command .sValid s (runSess [] .valid)

/-- S_RECEIVE: "receive N bytes as the session's end" (rule R280). -/
def execSReceive (n : Half) (s : State) : Host.Outcome State Fault Refusal :=
  command (.sReceive n) s fun s =>
    if s.sessFault = some .ok then runProg .sReceive (receiveProg s.cfg n) s
    else runSess [.openTo false] .nothing s

/-- S_STOP: "end the session and extract its Status" (rule R282). -/
def execSStop (s : State) : Host.Outcome State Fault Refusal :=
  command .sStop s fun s =>
    if s.sessFault = some .ok then runProg .sStop stopProg s
    else runSess [.openTo false] .status s

end Sys2Proof.Machine
end

