-- ==== Sys2Proof/Machine/Dispatch.lean ====
section
/-! DEFINITION. One arm per command of `30_encoding.md` rule R102. -/

namespace Sys2Proof.Machine

def exec (i : Instr) (s : State) : Host.Outcome State Fault Refusal :=
  match i with
  | .bitx n => Sys2Proof.Machine.execBitx n s
  | .start => Sys2Proof.Machine.execStart s
  | .stop => Sys2Proof.Machine.execStop s
  | .transmit ph b => Sys2Proof.Machine.execTransmit ph b s
  | .receive n => Sys2Proof.Machine.execReceive n s
  | .startSending => Sys2Proof.Machine.execStartSending s
  | .send b => Sys2Proof.Machine.execSend b s
  | .sOpen step0 => Sys2Proof.Machine.execSOpen step0 s
  | .sSend b => Sys2Proof.Machine.execSSend b s
  | .sSendRepeated count b => Sys2Proof.Machine.execSSendRepeated count b s
  | .sValid => Sys2Proof.Machine.execSValid s
  | .sReceive n => Sys2Proof.Machine.execSReceive n s
  | .sStop => Sys2Proof.Machine.execSStop s

end Sys2Proof.Machine
end

