-- ==== Sys2Proof/Machine/Step.lean ====
section
/-! DEFINITION. The step of the machine as the host sees it, and placing a command on the CMD port. -/

namespace Sys2Proof.Machine

/-- The host's issue of one word (`30_encoding.md` rules R100 and R105): a word that is no command is
refused (`60_exceptions.md` rule R311, check 1), a command runs to its end. -/
def issueWord (w : Word) (s : State) : Host.Outcome State Fault Refusal :=
  match decode w with
  | .error .illegalCommand => .next (refuse s)
  | .ok i => exec i s

/-- One step, at the host's granularity (log entry 1): while a command runs, the host waits for its end;
otherwise the next word on the CMD port is issued and its command runs; with no word, the Peer may move. -/
def step (s : State) : Host.Outcome State Fault Refusal :=
  match s.upc with
  | some _ => .next (run s)
  | none => match s.cmds with
    | [] => .next (idleStep s)
    | w :: rest => issueWord w { s with cmds := rest }

/-- `s` with the command word `w` first on the CMD port and no command running, so that the next step
issues it (log entry 12). Every command is one 32-bit word; bits above `nbits` are 0. -/
def State.withFetchWord (s : State) (nbits w : Nat) : State :=
  { s with cmds := BitVec.ofNat 32 (w % 2 ^ nbits) :: s.cmds, upc := none }

end Sys2Proof.Machine
end

