-- ==== Sys2Proof/Safety.lean ====
section
/-! DEFINITION. The terms claims are made in: the invariant of states between commands, the micro-step counts and
result tables of the spec, the wire as TRACE shows it, and the Peer strategies of `95_test_vectors.md`
section 0.2. A safe run is one whose every step answers a next state and in which REFUSED stays false
(`60_exceptions.md` rule R311). -/

namespace Sys2Proof

/-! ## Commands by kind -/

/-- The raw commands (`45_session.md` rule R271). -/
def Instr.isRaw : Instr → Bool
  | .bitx _ | .start | .stop | .transmit _ _ | .receive _ | .startSending | .send _ => true
  | .sOpen _ | .sSend _ | .sSendRepeated _ _ | .sValid | .sReceive _ | .sStop => false

/-- The raw commands that "would continue the faulted conversation" (rule R312). -/
def Instr.continues : Instr → Bool
  | .bitx _ | .stop | .transmit _ _ | .send _ => true
  | _ => false

/-- The session commands that need an open session (rule R314). -/
def Instr.isMember : Instr → Bool
  | .sSend _ | .sSendRepeated _ _ | .sValid | .sReceive _ | .sStop => true
  | _ => false

end Sys2Proof

namespace Sys2Proof.Machine

/-! ## The invariant between commands -/

/-- What holds of the machine at every moment when no command runs. -/
structure State.Inv (s : State) : Prop where
  /-- No command is in flight (rule R367). -/
  idle : s.upc = none
  /-- RX is in its canonical form. -/
  rxWf : s.rx.wf = true
  /-- "CNT ... 0 to 8" (rule R40). -/
  cntRange : s.cnt ≤ 8
  /-- "POLLK ... 0 to POLL_BOUND" (rule R41). -/
  pollkRange : s.pollk ≤ pollBound s.cfg
  /-- S_OPEN writes both session values (rule R272), so they hold values together. -/
  sessTogether : s.sessFault.isSome = s.sessStep.isSome
  /-- An open session holds values (rule R45). -/
  sessHeld : s.sessOpen = true → s.sessFault.isSome = true
  /-- SESS_STEP has STEP_WIDTH bits (rule R45). -/
  stepRange : ∀ n, s.sessStep = some n → n < 2 ^ stepWidth s.cfg
  /-- Rule R285, first half. -/
  sessOk : s.sessOpen = true → (s.sessFault = some .ok ↔ s.phase = .addressSent ∨ s.phase = .sending)
  /-- Rule R285, second half. -/
  sessFaulted : s.sessOpen = true → (s.sessFault ≠ some .ok ↔ s.phase = .error)
  /-- Receiving is a stage inside RECEIVE only (rule R250). -/
  notReceiving : s.phase ≠ .receiving
  /-- Only a STOP that timed out leaves SDA_FORCE set, and it leaves PHASE = Error
  (`42_conditions.md` rule R206). -/
  forceOnlyInError : s.sdaForce = true → s.phase = .error

/-- A run is clean when REFUSED stays false (rule R311). -/
def State.clean (s : State) : Prop := s.refused = false

/-! ## Counting micro-steps (`70_reset_and_hazards.md` rule R366) -/

/-- An event of the engine, as against one of the Peer. -/
def EventKind.byEngine : EventKind → Bool
  | .peerScl _ | .peerSda _ => false
  | _ => true

/-- The engine micro-steps made so far. -/
def State.microSteps (s : State) : Nat := s.trace.countP fun e => e.kind.byEngine

/-- The worst-case column of rule R366, with `p` = POLL_BOUND. -/
def worstCase (p : Nat) : Instr → Nat
  | .bitx .one => p + 8
  | .bitx .eight => 8 * p + 43
  | .start => p + 6
  | .stop => p + 6
  | .transmit _ _ => 9 * p + 55
  | .receive n => 11 * p + 67 + n.toNat * (9 * p + 54)
  | .startSending => 10 * p + 61
  | .send _ => 9 * p + 55
  | .sOpen _ => 10 * p + 62
  | .sSend _ => 9 * p + 56
  | .sSendRepeated c _ => 1 + c.toNat * (9 * p + 56)
  | .sValid => 1
  | .sReceive n => 11 * p + 68 + n.toNat * (9 * p + 54)
  | .sStop => p + 7

/-- The best-case column of rule R366: the result is OK and every poll is high at the first read. -/
def bestCase : Instr → Nat
  | .bitx .one => 9
  | .bitx .eight => 51
  | .start => 7
  | .stop => 7
  | .transmit _ _ => 64
  | .receive n => 78 + 63 * n.toNat
  | .startSending => 71
  | .send _ => 64
  | .sOpen _ => 72
  | .sSend _ => 65
  | .sSendRepeated c _ => 1 + 65 * c.toNat
  | .sValid => 1
  | .sReceive n => 79 + 63 * n.toNat
  | .sStop => 8

/-- The Peer never holds SCL low: not now, and in none of its moves to come. -/
def State.neverStretched (s : State) : Prop :=
  s.peerSclLow = false ∧ ∀ m ∈ s.peer, m ≠ .scl true

/-! ## The results a command can return -/

/-- The non-OK results of a command: the table of `60_exceptions.md` rule R302. -/
def faultsOf : Instr → List FaultCode
  | .bitx _ => [.clockHighTimeout]
  | .start => [.clockHighTimeout, .missingStart]
  | .stop | .sStop => [.clockHighTimeout, .missingStop]
  | .transmit .address _ => [.missingStart, .dataCollision, .clockHighTimeout, .addressNack]
  | .transmit .data _ | .send _ | .sSend _ | .sSendRepeated _ _ =>
    [.unexpectedStart, .unexpectedStop, .dataCollision, .clockHighTimeout, .dataNack]
  | .receive _ | .sReceive _ =>
    [.clockHighTimeout, .missingStart, .dataCollision, .addressNack, .missingStop]
  | .startSending | .sOpen _ => [.clockHighTimeout, .missingStart, .dataCollision, .addressNack]
  | .sValid => []

/-! ## The wire in TRACE (`30_encoding.md` rule R113) -/

/-- The SDA levels at the rising edges of SCL along events in time order, from the SCL level before them:
the data bits on the wire. -/
def riseSamples (scl : Bool) (es : List Event) : List Bool :=
  match es with
  | [] => []
  | e :: rest => if !scl && e.scl then e.sda :: riseSamples e.scl rest else riseSamples e.scl rest

/-- The bits of a byte, most-significant first (`20_memory.md` rule R83). -/
def msbFirst (b : Byte) : List Bool :=
  [b.getLsbD 7, b.getLsbD 6, b.getLsbD 5, b.getLsbD 4, b.getLsbD 3, b.getLsbD 2, b.getLsbD 1,
    b.getLsbD 0]

/-- The kinds of the engine's own events, in the events' order. -/
def engineKinds (es : List Event) : List EventKind :=
  (es.filter fun e => e.kind.byEngine).map fun e => e.kind

/-! ## The bytes received in TRACE -/

/-- The index and byte of each μWRITERX, in the events' order (`43_byte_engine.md` rule R230): the bytes a
RECEIVE has received. -/
def rxWrites (es : List Event) : List Host.Cell :=
  es.filterMap fun e => match e.kind with
    | .writeRx i v => some (i.toNat, v)
    | _ => none

/-! ## A session's sends in TRACE -/

/-- The data sends begun: every forwarded S_SEND begins with TRANSMIT's data-phase μCHECK
(`43_byte_engine.md` rule R220). -/
def sendsBegun (es : List Event) : Nat := es.countP fun e => e.kind == .check (.transmit .data)

/-- The codes the forwarded sends returned, one from the closing μSESS of each (`45_session.md` rules R274
and R276). -/
def sendResults (es : List Event) : List FaultCode :=
  es.filterMap fun e => match e.kind with
    | .sess [.stepUp, .foldFault r] => some r
    | _ => none

/-! ## Peer strategies (`95_test_vectors.md` section 0.2) -/

/-- The Peer lets `n` micro-steps go by. -/
def passes (n : Nat) : List PeerMove := List.replicate n .pass

/-- The moves of a Peer that holds SCL low through `k` reads of one clock pulse, 6 micro-steps without them
(`41_bit_transfer.md` rules R172 and R173): from before the pulse until the first read that gives 1. -/
def stretchTurn (k : Nat) : List PeerMove :=
  .scl true :: (passes (k + 2) ++ (.scl false :: passes 4))

/-- ACKER's moves during one TRANSMIT of 64 micro-steps: SDA held low right after its μSDA_IN, released
right after the μSCL_LOW of the ACK pulse. -/
def ackTurn : List PeerMove :=
  passes 55 ++ (.sda true :: (passes 6 ++ (.sda false :: passes 3)))

/-- ACKER's moves during Start and the address byte of START_SENDING, RECEIVE or S_OPEN. -/
def ackStart : List PeerMove := passes 7 ++ ackTurn

/-- One data bit of SENDER: the line is held low for a 0. -/
def present (d : Byte) (k : Nat) : PeerMove := .sda (!d.getLsbD k)

/-- SENDER's moves during one byte of RECEIVE's loop, 63 micro-steps: bit 7 right after the loop's
μSDA_IN, each next bit right after a μSHIFT, SDA released after the eighth. -/
def sendTurn (d : Byte) : List PeerMove :=
  .pass :: present d 7 :: (passes 7 ++
    (([6, 5, 4, 3, 2, 1, 0].flatMap fun k => present d k :: passes 6) ++ (.sda false :: passes 13)))

/-- SENDER's moves during a whole RECEIVE of the bytes `ds`. -/
def senderTurns (ds : List Byte) : List PeerMove := ackStart ++ ds.flatMap sendTurn

/-- The bus is free for a new conversation: no other device holds a line, and the master does not hold
SDA. -/
def State.busFree (s : State) : Prop :=
  s.peerSclLow = false ∧ s.peerSdaLow = false ∧ s.pullsSda = false

end Sys2Proof.Machine
end

