-- ==== Sys2Proof/Certificates/Slice0/Obligations.lean ====
section
/-! DEFINITION. The statements about the model. In those about one command the Peer is free: `s.peer`, the list
of its moves to come, is any list, unless a hypothesis says otherwise. -/

open Sys2Proof Sys2Proof.Machine

/-! ## Encoding -/

/-- Decoding the word of a command gives the command back, whatever its operands (rules R101 to R103 and
R107). -/
def Obligations.DecodeInvertsEncode : Prop :=
  ∀ i : Instr, decode (encode i) = .ok i

/-- Each command has one word: a word that decodes is the one the encoder writes (rules R101 to R105). -/
def Obligations.EncodeInvertsDecode : Prop :=
  ∀ (w : Word) (i : Instr), decode w = .ok i → encode i = w

/-- Rule R105: a word is a command exactly when it matches one row of rule R102, at most one row matches,
the command is that row's, and every other word is refused, with no other change. -/
def Obligations.WordIsCommandIffOneRowSelectsIt : Prop :=
  (∀ w : Word, (∃ i, decode w = .ok i) ↔ ∃ r ∈ opcodeTable, r.selects w = true) ∧
  (∀ w : Word, ∀ r ∈ opcodeTable, ∀ q ∈ opcodeTable,
    r.selects w = true → q.selects w = true → r = q) ∧
  (∀ (w : Word) (i : Instr), decode w = .ok i →
    ∀ r ∈ opcodeTable, r.selects w = true → r.mnemonic = i.mnemonic) ∧
  (∀ (s : State) (w : Word) (rest : List Word), s.upc = none → s.cmds = w :: rest →
    (∀ r ∈ opcodeTable, r.selects w = false) →
    step s = .next { s with cmds := rest, refused := true })

/-- Words written out from rule R101's fields decode to the commands of rule R107. -/
def Obligations.WrittenOutWordsDecode : Prop :=
  decode 0b00010001000000000000000000000000#32 = .ok (.bitx .eight) ∧
  decode 0b00100000000000000000000000000000#32 = .ok .start ∧
  decode 0b01000001000000000000000001111000#32 = .ok (.transmit .address 0x78) ∧
  decode 0b01010000000000000000001000000000#32 = .ok (.receive 2) ∧
  decode 0b01110000000000000000000010101111#32 = .ok (.send 0xAF) ∧
  decode 0b10100000000000000000001100000000#32 = .ok (.sSendRepeated 3 0) ∧
  decode 0b11010000000000000000000000000001#32 = .error .illegalCommand

/-- The source line that writes a command assembles to it (rule R107). -/
def Obligations.AssembleInvertsSourceLine : Prop :=
  ∀ (cfg : Config) (i : Instr), assemble cfg i.toAsm = .ok i

/-- Rule R110: bits [7:1] are the device address and bit 0 the direction, Send = 0 and Receive = 1. -/
def Obligations.AddressPrefixLayout : Prop :=
  (∀ (cfg : Config) (dir : Direction),
    (addressPrefix cfg dir).toNat = cfg.devAddr.toNat * 2 + (if dir = .receive then 1 else 0)) ∧
  (∀ cfg : Config, cfg.devAddr = 0x3C →
    addressPrefix cfg .send = 0x78 ∧ addressPrefix cfg .receive = 0x79)

/-- Rule R112: the FaultCode numbers, no two alike. -/
def Obligations.FaultCodeNumbers : Prop :=
  codeValue .ok = 0 ∧ codeValue .addressNack = 1 ∧ codeValue .dataNack = 2 ∧
  codeValue .missingStart = 3 ∧ codeValue .missingStop = 4 ∧ codeValue .unexpectedStart = 5 ∧
  codeValue .unexpectedStop = 6 ∧ codeValue .dataCollision = 7 ∧ codeValue .clockHighTimeout = 8 ∧
  ∀ r : FaultCode, (codeValue r).toNat ≤ 8

/-! ## Reset, ports and derived values -/

/-- Rule R52: the state after reset, for every configuration and every draw of the Peer's drivers. The
VALUE port, which is not in the rule's table, and the inputs to come are the model's (log entries 2, 6
and 12). -/
def Obligations.ResetValues : Prop :=
  (∃ (cfg : Config) (scl sda : Bool), State.reset = State.resetWith cfg scl sda) ∧
  ∀ (cfg : Config) (scl sda : Bool), ∃ s, s = State.resetWith cfg scl sda ∧
    s.sclDrv = .rel ∧ s.sdaForce = false ∧ s.sdaDir = .inward ∧ s.shreg = 0xFF ∧
    s.startDet = false ∧ s.stopDet = false ∧ s.latch = true ∧ s.cnt = 0 ∧ s.pollk = 0 ∧
    s.upc = none ∧ s.phase = .idle ∧ s.sessOpen = false ∧ s.peerSclLow = scl ∧ s.peerSdaLow = sda ∧
    s.refused = false ∧ s.trace = [] ∧
    hostRead .result s = .fault (.noValue .result) ∧
    hostRead .sessFault s = .fault (.noValue .sessFault) ∧
    hostRead .sessStep s = .fault (.noValue .sessStep) ∧
    ∀ i : Half, hostRead (.rx i) s = .fault (.noValue (.rx i))

/-- Rule R51: between commands a port gives the value its field holds; a field that holds no value is a
fault of the model; while a command runs the host cannot read. -/
def Obligations.HostReadsHeldValuesOnly : Prop :=
  (∀ s : State, s.upc = none →
    hostRead .engstat s = .next (.engstat s.engstat) ∧
    hostRead .shreg s = .next (.byte s.shreg) ∧
    (∀ r, s.result = some r → hostRead .result s = .next (.code r)) ∧
    (s.result = none → hostRead .result s = .fault (.noValue .result)) ∧
    (∀ v, s.value = some v → hostRead .value s = .next (.value v)) ∧
    (s.value = none → hostRead .value s = .fault (.noValue .value)) ∧
    (∀ r, s.sessFault = some r → hostRead .sessFault s = .next (.code r)) ∧
    (s.sessFault = none → hostRead .sessFault s = .fault (.noValue .sessFault)) ∧
    (∀ n, s.sessStep = some n → hostRead .sessStep s = .next (.step n)) ∧
    (s.sessStep = none → hostRead .sessStep s = .fault (.noValue .sessStep)) ∧
    (∀ (i : Half) (v : Byte), s.rx.read i.toNat = some v → hostRead (.rx i) s = .next (.byte v)) ∧
    (∀ i : Half, s.rx.read i.toNat = none → hostRead (.rx i) s = .fault (.noValue (.rx i)))) ∧
  (∀ (s : State) (p : Port), s.upc ≠ none → hostRead p s = .refused .hostBlocked)

/-- Rule R163: the wired-AND levels of the two lines. -/
def Obligations.LineLevelsAreWiredAnd : Prop :=
  ∀ s : State,
    (s.scl = true ↔ ¬ s.sclDrv = .low ∧ s.peerSclLow = false) ∧
    (s.sda = true ↔
      ¬ (s.sdaDir = .outward ∧ (s.sdaForce = true ∨ s.shreg.getLsbD 7 = false)) ∧
        s.peerSdaLow = false)

/-- Rule R50: the fields of ENGSTAT, with rule R43's numbering of PHASE. -/
def Obligations.EngstatFields : Prop :=
  (phaseNumber .idle = 0 ∧ phaseNumber .started = 1 ∧ phaseNumber .addressSent = 2 ∧
    phaseNumber .sending = 3 ∧ phaseNumber .receiving = 4 ∧ phaseNumber .stopped = 5 ∧
    phaseNumber .error = 6) ∧
  ∀ s : State,
    s.engstat.extractLsb' 0 3 = phaseNumber s.phase ∧
    s.engstat.getLsbD 3 = s.startDet ∧
    s.engstat.getLsbD 4 = s.stopDet ∧
    s.engstat.getLsbD 5 = (s.shreg.getLsbD 7 != s.sda) ∧
    (s.engstat.getLsbD 6 = true ↔ s.sclDrv = .rel) ∧
    s.engstat.getLsbD 7 = s.sdaForce ∧
    (s.engstat.getLsbD 8 = true ↔ s.sdaDir = .outward) ∧
    s.engstat.getLsbD 9 = s.sessOpen ∧
    s.engstat.extractLsb' 10 6 = 0

/-- Rules R141 and R142: the Delay derivation clamps at zero, rounds up, gives at least 1 for a positive
input, and is monotone. -/
def Obligations.DelayDerivationLaws : Prop :=
  (∀ (us : Rat) (f : Nat), us ≤ 0 → delayCycles us f = 0) ∧
  (∀ (us : Rat) (f : Nat), 0 < us →
    us * f / 1000000 ≤ delayCycles us f ∧ (delayCycles us f : Rat) < us * f / 1000000 + 1) ∧
  (∀ (us : Rat) (f : Nat), 0 < us → 0 < f → 1 ≤ delayCycles us f) ∧
  (∀ (us vs : Rat) (f : Nat), us ≤ vs → delayCycles us f ≤ delayCycles vs f)

/-! ## The host's step -/

/-- A step with a command word waiting and no command running is the meaning of the command the word
decodes to, with the word taken off the CMD port; so is the step after a word is placed there. This
granularity is the model's choice: the issue step of rule R336 only makes UPC the command's first micro-step,
where `step` runs the command to its end (log entry 1: notes/assumptions/1.md); and `withFetchWord`, which
puts the word first on the port and sets UPC to none, stands for the host's issue (log entry 12:
notes/assumptions/12.md). -/
def Obligations.StepRunsTheDecodedCommand : Prop :=
  (∀ (s : State) (w : Word) (rest : List Word) (i : Instr),
    s.upc = none → s.cmds = w :: rest → decode w = .ok i → step s = exec i { s with cmds := rest }) ∧
  (∀ (s : State) (w : Nat) (i : Instr), w < 2 ^ 32 → decode (BitVec.ofNat 32 w) = .ok i →
    step (s.withFetchWord 32 w) = exec i { s with upc := none })

/-- Rules R330, R47 and R166: with no command running and none issued the machine keeps all state but for
the Peer's moves, and the Peer's next move is one Peer step (log entries 2 and 17). A Peer step writes
PEER_SCL_LOW or PEER_SDA_LOW, then the detector and the latch see the lines, and TRACE gets its event: a
move of SCL can only make LATCH sample, a move of SDA can only make a Start or a Stop. -/
def Obligations.IdleMachineKeepsItsState : Prop :=
  (∀ s : State, s.upc = none → s.cmds = [] →
    (s.peer = [] → step s = .next s) ∧
    (∀ (m : PeerMove) (ms : List PeerMove), s.peer = m :: ms →
      step s = .next (peerStep m { s with peer := ms }))) ∧
  (∀ (low : Bool) (s : State), peerStep (.scl low) s = { s with
    peerSclLow := low
    latch := if s.scl = false ∧ s.pullsScl = false ∧ low = false then s.sda else s.latch
    trace := ⟨.peerScl low, !s.pullsScl && !low, s.sda⟩ :: s.trace }) ∧
  (∀ (low : Bool) (s : State), peerStep (.sda low) s = { s with
    peerSdaLow := low
    startDet := s.startDet || (s.scl && s.sda && (s.pullsSda || low))
    stopDet := s.stopDet || (s.scl && !s.sda && (!s.pullsSda && !low))
    trace := ⟨.peerSda low, s.scl, !s.pullsSda && !low⟩ :: s.trace }) ∧
  (∀ s : State, peerStep .pass s = s)

/-- A meaning applied while a command runs is blocked: the host has no move then (rule R336). -/
def Obligations.HostHasNoMoveWhileACommandRuns : Prop :=
  ∀ (i : Instr) (s : State), s.upc ≠ none → exec i s = .refused .hostBlocked

/-- Rules R311 and R315: the refusal table, with the reason of each row. IllegalCommand comes first, and an
open session's SessionOwnsBus stands whatever PHASE is. A refusal sets REFUSED and changes nothing else; in
every other case there is no reason and the command runs, making at least one micro-step. The reason is
computed and not stored (log entry 7). -/
def Obligations.RefusalTable : Prop :=
  (∀ (i : Instr) (s : State), s.upc = none →
    (s.sessOpen = true → i.isMember = false →
      refusal (commandClass i) s = some .sessionOwnsBus ∧ exec i s = .next { s with refused := true }) ∧
    (s.sessOpen = false → s.phase = .error → i.continues = true →
      refusal (commandClass i) s = some .afterFault ∧ exec i s = .next { s with refused := true }) ∧
    (s.sessOpen = false → i.isMember = true →
      refusal (commandClass i) s = some .noSession ∧ exec i s = .next { s with refused := true }) ∧
    (s.sessOpen = i.isMember → ¬ (s.phase = .error ∧ i.continues = true) →
      refusal (commandClass i) s = none ∧
      ∃ t, exec i s = .next t ∧ s.microSteps < t.microSteps ∧ t.refused = s.refused)) ∧
  (∀ (w : Word) (s : State),
    ((∀ r ∈ opcodeTable, r.selects w = false) → refuseReason w s = some .illegalCommand) ∧
    (∀ i, decode w = .ok i → refuseReason w s = refusal (commandClass i) s)) ∧
  (∀ (s : State) (w : Word) (rest : List Word), s.upc = none → s.cmds = w :: rest →
    (∀ r, refuseReason w s = some r → step s = .next { s with cmds := rest, refused := true }) ∧
    (refuseReason w s = none →
      ∃ i, decode w = .ok i ∧ step s = exec i { s with cmds := rest }))

/-! ## Atomic steps -/

/-- Rule R164: no step moves both lines; a micro-step writes SCL_DRV or SDA-side state, never both, and
the ones that drive no line write neither. -/
def Obligations.NoStepMovesBothLines : Prop :=
  (∀ s : State, (tick s).scl = s.scl ∨ (tick s).sda = s.sda) ∧
  (∀ s : State, (idleStep s).scl = s.scl ∨ (idleStep s).sda = s.sda) ∧
  (∀ (op : MicroOp) (s : State), (op.write s).sclDrv = s.sclDrv ∨
    ((op.write s).sdaDir = s.sdaDir ∧ (op.write s).sdaForce = s.sdaForce ∧
      (op.write s).shreg = s.shreg)) ∧
  (∀ (op : MicroOp) (s : State), (∃ n, op = .beginBits n) ∨ op = .readScl ∨ (∃ d, op = .wait d) ∨
      (∃ c, op = .check c) ∨ (∃ i v, op = .writeRx i v) →
    (op.write s).sclDrv = s.sclDrv ∧ (op.write s).sdaDir = s.sdaDir ∧
      (op.write s).sdaForce = s.sdaForce ∧ (op.write s).shreg = s.shreg) ∧
  (∀ (as : List SessAssign) (s : State), (writeAll as s).sclDrv = s.sclDrv ∧
    (writeAll as s).sdaDir = s.sdaDir ∧ (writeAll as s).sdaForce = s.sdaForce ∧
    (writeAll as s).shreg = s.shreg)

/-- Rule R167: after every step the detector sets START_DET on a Start condition and STOP_DET on a Stop
condition, whichever agent made it; only μBEGIN clears them. -/
def Obligations.DetectorSeesEveryCondition : Prop :=
  (∀ s : State, (∀ n m rest k, s.upc ≠ some (.op ⟨.beginBits n, m⟩ rest k)) →
    (tick s).startDet =
      (s.startDet || (s.scl && (tick s).scl && s.sda && !(tick s).sda)) ∧
    (tick s).stopDet =
      (s.stopDet || (s.scl && (tick s).scl && !s.sda && (tick s).sda))) ∧
  (∀ (s : State) n m rest k, s.upc = some (.op ⟨.beginBits n, m⟩ rest k) →
    (engineStep s).startDet = false ∧ (engineStep s).stopDet = false) ∧
  (∀ (s : State) (mv : PeerMove),
    (peerStep mv s).startDet =
      (s.startDet || (s.scl && (peerStep mv s).scl && s.sda && !(peerStep mv s).sda)) ∧
    (peerStep mv s).stopDet =
      (s.stopDet || (s.scl && (peerStep mv s).scl && !s.sda && (peerStep mv s).sda)))

/-- Rule R168: after every step LATCH takes SDA exactly when SCL rose, whichever agent raised it. -/
def Obligations.LatchSamplesAtTheRisingEdge : Prop :=
  (∀ s : State, (tick s).latch = if s.scl = false ∧ (tick s).scl = true then (tick s).sda else s.latch) ∧
  (∀ s : State,
    (idleStep s).latch = if s.scl = false ∧ (idleStep s).scl = true then (idleStep s).sda else s.latch)

/-! ## Frames over all commands -/

/-- The configuration is fixed (rule R46), the host's queue is not touched, REFUSED is sticky (rule R53),
TRACE only grows (rule R53), and only Peer steps write the Peer's drivers (rule R47). -/
def Obligations.CommandsKeepConfigAndHistory : Prop :=
  ∀ (i : Instr) (s t : State), exec i s = .next t →
    t.cfg = s.cfg ∧ t.cmds = s.cmds ∧ (s.refused = true → t.refused = true) ∧
    (∃ es, t.trace = es ++ s.trace) ∧
    (s.peer = [] → t.peer = [] ∧ t.peerSclLow = s.peerSclLow ∧ t.peerSdaLow = s.peerSdaLow)

/-- Raw commands leave the session registers alone; S_VALID leaves them alone too, and S_SEND and
S_SEND_REPEATED leave SESS_OPEN, S_RECEIVE and S_STOP leave SESS_STEP. -/
def Obligations.SessionRegisterFrame : Prop :=
  ∀ (i : Instr) (s t : State), exec i s = .next t →
    (i.isRaw = true ∨ i = .sValid →
      t.sessOpen = s.sessOpen ∧ t.sessFault = s.sessFault ∧ t.sessStep = s.sessStep) ∧
    ((∃ b, i = .sSend b) ∨ (∃ c b, i = .sSendRepeated c b) → t.sessOpen = s.sessOpen) ∧
    ((∃ n, i = .sReceive n) ∨ i = .sStop → t.sessStep = s.sessStep)

/-- "Only RECEIVE writes RX, whether issued directly or through S_RECEIVE" (rule R80), and a RECEIVE of N
bytes writes none but RX[0] to RX[N−1]: every other byte reads as before. -/
def Obligations.OnlyReceiveWritesItsBytesOfRx : Prop :=
  ∀ (i : Instr) (s t : State), exec i s = .next t →
    ((∀ n, i ≠ .receive n ∧ i ≠ .sReceive n) → t.rx = s.rx) ∧
    (∀ n, i = .receive n ∨ i = .sReceive n →
      ∀ a, n.toNat ≤ a → t.rx.read a = s.rx.read a)

/-- SDA_FORCE is used by Start and Stop only (rule R34): BITX, TRANSMIT, SEND and S_SEND leave it; and the
commands that touch no byte (START, STOP, S_STOP) leave SHREG and CNT. -/
def Obligations.DataPathFrame : Prop :=
  ∀ (i : Instr) (s t : State), exec i s = .next t →
    ((∃ n, i = .bitx n) ∨ (∃ ph b, i = .transmit ph b) ∨ (∃ b, i = .send b) ∨ (∃ b, i = .sSend b) ∨
        (∃ c b, i = .sSendRepeated c b) → t.sdaForce = s.sdaForce) ∧
    (i = .start ∨ i = .stop ∨ i = .sStop → t.shreg = s.shreg ∧ t.cnt = s.cnt) ∧
    (i = .sValid → t.sclDrv = s.sclDrv ∧ t.sdaForce = s.sdaForce ∧ t.sdaDir = s.sdaDir ∧
      t.shreg = s.shreg ∧ t.cnt = s.cnt ∧ t.pollk = s.pollk ∧ t.phase = s.phase)

/-! ## Every command ends -/

/-- Between commands, every command answers a next state in which no command runs, in every state and
whatever the Peer does (rules R100 and R357). -/
def Obligations.EveryCommandEnds : Prop :=
  ∀ (i : Instr) (s : State), s.upc = none → ∃ t, exec i s = .next t ∧ t.upc = none

/-- Rule R366: the micro-step counts. No command makes more than the worst case; an OK command whose polls
are all high at the first read (no event it adds to TRACE is a read of 0) makes exactly the best case; a faulted session's commands make 1. -/
def Obligations.MicroStepCounts : Prop :=
  (∀ (i : Instr) (s t : State), exec i s = .next t →
    t.microSteps ≤ s.microSteps + worstCase (pollBound s.cfg) i) ∧
  (∀ (i : Instr) (s t : State), s.upc = none → s.sessOpen = i.isMember →
    ¬ (s.phase = .error ∧ i.continues = true) → exec i s = .next t → t.result = some .ok →
    (∃ es, t.trace = es ++ s.trace ∧ ∀ e ∈ es, e.kind ≠ .readScl false) →
    t.microSteps = s.microSteps + bestCase i) ∧
  (∀ (i : Instr) (s t : State), s.upc = none → s.sessOpen = true → i.isMember = true →
    s.sessFault ≠ some .ok → exec i s = .next t → t.microSteps = s.microSteps + 1)

/-! ## Invariants -/

/-- The invariant holds after reset, for every configuration and every draw. -/
def Obligations.ResetMeetsInvariant : Prop :=
  ∀ (cfg : Config) (scl sda : Bool), (State.resetWith cfg scl sda).Inv

/-- Every step keeps the invariant: RX canonical, the counters in range, the session registers as rules
R45 and R285 say, SDA_FORCE set only in PHASE Error, no command in flight. -/
def Obligations.StepKeepsInvariant : Prop :=
  ∀ s t : State, s.Inv → step s = .next t → t.Inv

/-- No step stops the machine, in any state: a fault of the spec is a returned value and a refusal sets
REFUSED (rules R300 and R311), and every command ends (rule R357). That an open session which holds no value
in SESS_FAULT or SESS_STEP, a state outside the invariant, runs on too is the model's choice (log entry 15:
notes/assumptions/15.md). -/
def Obligations.InvariantStepNeverStops : Prop :=
  ∀ s : State, ∃ t, step s = .next t

/-- Rule R285, the session invariant: when a command from a state of the invariant has ended with
SESS_OPEN = true, SESS_FAULT = OK exactly when PHASE is AddressSent or Sending, and SESS_FAULT ≠ OK exactly
when PHASE = Error. -/
def Obligations.SessionFaultMatchesPhase : Prop :=
  ∀ (i : Instr) (s t : State), s.Inv → exec i s = .next t → t.sessOpen = true →
    (t.sessFault = some .ok ↔ t.phase = .addressSent ∨ t.phase = .sending) ∧
    (t.sessFault ≠ some .ok ↔ t.phase = .error)

/-! ## Results -/

/-- Rule R302: a command that runs returns OK or a code of its row, or, if it is a session member, its
result is the sticky fault of earlier. -/
def Obligations.FaultsByCommand : Prop :=
  ∀ (i : Instr) (s t : State), s.upc = none → s.sessOpen = i.isMember →
    ¬ (s.phase = .error ∧ i.continues = true) → exec i s = .next t →
    (∃ r, t.result = some r ∧ (r = .ok ∨ r ∈ faultsOf i)) ∨
      (i.isMember = true ∧ t.result = s.sessFault)

/-- Rule R353: after an OK BITX, START, TRANSMIT, SEND, START_SENDING, S_OPEN or S_SEND the master holds
SCL low, and keeps it so while the machine idles; after an OK STOP or RECEIVE, and S_STOP and S_RECEIVE
when they forward, it has released it. -/
def Obligations.ClockHeldBetweenCommands : Prop :=
  (∀ (i : Instr) (s t : State), s.upc = none → s.sessOpen = i.isMember →
    ¬ (s.phase = .error ∧ i.continues = true) → exec i s = .next t → t.result = some .ok →
    ((∃ n, i = .bitx n) ∨ i = .start ∨ (∃ ph b, i = .transmit ph b) ∨ (∃ b, i = .send b) ∨
        i = .startSending ∨ (∃ n, i = .sOpen n) ∨ (∃ b, i = .sSend b) → t.sclDrv = .low) ∧
    (i = .stop ∨ (∃ n, i = .receive n) ∨ i = .sStop ∨ (∃ n, i = .sReceive n) → t.sclDrv = .rel)) ∧
  (∀ s : State, (idleStep s).sclDrv = s.sclDrv)

/-- BITX (rules R168, R174 to R176), for every Peer. OK: the byte shifted in is given, its high bits the low
bits of the entry's SHREG for n = 1, SHREG = 0xFF, SDA_DIR = In, SCL held low, PHASE unchanged. A time-out in
pulse k = n − CNT + 1: SCL released, SDA_DIR as on entry, SHREG shifted k − 1 times, no value. What comes in:
if the Peer never stretches the clock, BITX is OK and the n bits shifted in, the low n bits of the value, most
significant first, are the SDA levels at the rising edges of SCL that it adds to TRACE; with SCL released on
entry the first pulse raises nothing, and LATCH on entry comes first (corner case a). -/
def Obligations.BitxOutcomes : Prop :=
  ∀ (n : BitCount) (s : State), s.upc = none → s.sessOpen = false → s.phase ≠ .error →
    ∃ t es, exec (.bitx n) s = .next t ∧ t.upc = none ∧ t.trace = es ++ s.trace ∧
      ((t.result = some .ok ∧ t.phase = s.phase ∧ t.shreg = 0xFF ∧ t.sdaDir = .inward ∧
          t.sclDrv = .low ∧ t.cnt = 0 ∧
          ∃ v : Byte, t.value = some (.byte v) ∧
            (n = .one → v.toNat / 2 = s.shreg.toNat % 128) ∧
            (s.neverStretched → (msbFirst v).drop (8 - pulses n) =
              (if s.sclDrv = .low then [] else [s.latch]) ++ riseSamples s.scl es.reverse)) ∨
        (¬ s.neverStretched ∧
          t.result = some .clockHighTimeout ∧ t.phase = .error ∧ t.value = none ∧ t.sclDrv = .rel ∧
          t.sdaDir = s.sdaDir ∧ 1 ≤ t.cnt ∧ t.cnt ≤ pulses n ∧
          t.shreg.toNat / 2 ^ (pulses n - t.cnt) =
            s.shreg.toNat % 2 ^ (8 - (pulses n - t.cnt))))

/-- A BITX that drives the bus samples the bits it presents: with SDA_DIR = Out, SCL held low before it and
no other device holding a line, the bits on the wire are the top bits of the entry's SHREG, most significant
first, and the value given is SHREG rotated by their number: for BITX 8 the byte itself (rules R170 and
R174). Its micro-steps, in order: in each pulse it waits `preClockHigh` before SCL is released and
`postClockHigh` between SCL reading high and falling, and at the end it waits `postTransfer` before the
μPRESET (rules R173, R174 and R365). In every command each wait carries its Delay's cycle count, and
`postStart` is never waited (rules R140 and R359). -/
def Obligations.BitxSamplesWhatItPresents : Prop :=
  (∀ (n : BitCount) (s : State), s.upc = none → s.sessOpen = false → s.phase ≠ .error → s.peer = [] →
    s.sclDrv = .low → s.sdaDir = .outward → s.sdaForce = false →
    s.peerSclLow = false → s.peerSdaLow = false →
    ∃ t es, exec (.bitx n) s = .next t ∧ t.result = some .ok ∧
      t.value = some (.byte (s.shreg.rotateLeft (pulses n))) ∧
      (n = .eight → t.value = some (.byte s.shreg)) ∧ t.startDet = false ∧ t.stopDet = false ∧
      t.trace = es ++ s.trace ∧ riseSamples s.scl es.reverse = (msbFirst s.shreg).take (pulses n) ∧
      es.reverse.map (fun e => e.kind) = .beginBits n ::
        ((List.replicate (pulses n) [EventKind.wait .preClockHigh s.cfg.dly.preClockHigh, .sclRel,
          .readScl true, .wait .postClockHigh s.cfg.dly.postClockHigh, .sclLow, .shift]).flatten ++
        [.wait .postTransfer s.cfg.dly.postTransfer, .preset])) ∧
  (∀ (i : Instr) (s t : State), exec i s = .next t →
    ∃ es, t.trace = es ++ s.trace ∧ ∀ e ∈ es, ∀ d c, e.kind = .wait d c →
      d ≠ .postStart ∧ c = delayOf s.cfg.dly d)

/-- START (rules R200 and R201), for every Peer: OK or MissingStart leave the drivers of R200's corner case
(e), by START_DET at the check; ClockHighTimeout leaves SCL released and the data side as on entry. SHREG
and CNT are unchanged. With no Peer step STOP_DET is unchanged, and a time-out leaves both flags. -/
def Obligations.StartOutcomes : Prop :=
  ∀ s : State, s.upc = none → s.sessOpen = false →
    ∃ t, exec .start s = .next t ∧ t.upc = none ∧ t.value = none ∧ t.shreg = s.shreg ∧
      t.cnt = s.cnt ∧ (s.peer = [] → t.stopDet = s.stopDet) ∧
      ((t.result = some .ok ∧ t.phase = .started ∧ t.sclDrv = .low ∧ t.sdaForce = false ∧
          t.sdaDir = .outward ∧ t.startDet = true) ∨
        (t.result = some .missingStart ∧ t.phase = .error ∧ t.sclDrv = .low ∧ t.sdaForce = false ∧
          t.sdaDir = .outward ∧ t.startDet = false) ∨
        (t.result = some .clockHighTimeout ∧ t.phase = .error ∧ t.sclDrv = .rel ∧
          t.sdaForce = s.sdaForce ∧ t.sdaDir = s.sdaDir ∧ (s.peer = [] → t.startDet = s.startDet)))

/-- START on a free bus with no Peer step (rule R200's example): OK, a Start condition and seven events. -/
def Obligations.StartOnAFreeBus : Prop :=
  ∀ s : State, s.upc = none → s.sessOpen = false → s.peer = [] → s.busFree →
    exec .start s = .next { s with
      sclDrv := .low
      sdaForce := false
      sdaDir := .outward
      startDet := true
      latch := if s.scl then s.latch else true
      pollk := 0
      phase := .started
      result := some .ok
      value := none
      trace :=
        ⟨.check .startMade, false, s.shreg.msb⟩ :: ⟨.sdaUnforce, false, s.shreg.msb⟩ ::
        ⟨.sclLow, false, false⟩ :: ⟨.wait .preStart s.cfg.dly.preStart, true, false⟩ ::
        ⟨.sdaForce, true, false⟩ :: ⟨.readScl true, true, true⟩ :: ⟨.sclRel, true, true⟩ :: s.trace }

/-- The bounded poll (rule R172) "times out after exactly POLL_BOUND reads that all returned 0". Any command
that runs and itself times out, for every Peer: POLLK = POLL_BOUND, SCL is released, and the last engine
events it adds to TRACE are the μSCL_REL of the poll and then POLL_BOUND reads of 0, with nothing after them
but a session command's μSESS. A held clock is enough: with SCL held low by another device and no Peer step,
every raw command times out, TRANSMIT and SEND if their pre-checks pass; for START the whole next state. -/
def Obligations.HeldClockTimesOutAfterPollBoundReads : Prop :=
  (∀ (i : Instr) (s t : State), s.upc = none → s.sessOpen = i.isMember →
    ¬ (s.phase = .error ∧ i.continues = true) → (i.isMember = true → s.sessFault = some .ok) →
    exec i s = .next t → t.result = some .clockHighTimeout →
    t.pollk = pollBound s.cfg ∧ t.sclDrv = .rel ∧
    ∃ es sess before, t.trace = es ++ s.trace ∧ (i.isRaw = true → sess = []) ∧
      engineKinds es = sess.map EventKind.sess ++
        (List.replicate (pollBound s.cfg) (.readScl false) ++ .sclRel :: before)) ∧
  (∀ (i : Instr) (s : State), s.upc = none → i.isRaw = true → s.sessOpen = false →
    ¬ (s.phase = .error ∧ i.continues = true) → s.peer = [] → s.peerSclLow = true →
    (∀ ph b, i = .transmit ph b ∨ (i = .send b ∧ ph = .data) → checkCode (.transmit ph) s = .ok) →
    ∃ t, exec i s = .next t ∧ t.result = some .clockHighTimeout) ∧
  (∀ s : State, s.upc = none → s.sessOpen = false → s.peer = [] → s.peerSclLow = true →
    exec .start s = .next { s with
      sclDrv := .rel
      pollk := pollBound s.cfg
      phase := .error
      result := some .clockHighTimeout
      value := none
      trace := List.replicate (pollBound s.cfg) ⟨.readScl false, false, s.sda⟩ ++
        ⟨.sclRel, false, s.sda⟩ :: s.trace })

/-- "A peer that holds SCL low through fewer than POLL_BOUND reads is tolerated" (rule R172). For every
command and every Peer: with no POLL_BOUND engine events in a row that are reads of 0, the result is no
time-out. Three commands in full, with SCL held low through fewer than POLL_BOUND reads and then released:
START and STOP, with SDA free, give OK and make their condition, and so does BITX with every one of its pulses
stretched, the j-th through `ks[j]` reads. -/
def Obligations.StretchWithinPollBoundIsTolerated : Prop :=
  (∀ (i : Instr) (s t : State) (es : List Event), s.upc = none → s.sessOpen = i.isMember →
    ¬ (s.phase = .error ∧ i.continues = true) → (i.isMember = true → s.sessFault = some .ok) →
    exec i s = .next t → t.trace = es ++ s.trace →
    ¬ List.replicate (pollBound s.cfg) (EventKind.readScl false) <:+: engineKinds es →
    t.result ≠ some .clockHighTimeout) ∧
  (∀ (s : State) (k : Nat), s.upc = none → s.sessOpen = false → s.peerSclLow = true →
    s.peerSdaLow = false → s.pullsSda = false → k < pollBound s.cfg →
    s.peer = passes (k + 1) ++ [.scl false] →
    ∃ t, exec .start s = .next t ∧ t.result = some .ok ∧ t.pollk = k ∧ t.phase = .started) ∧
  (∀ (s : State) (k : Nat), s.upc = none → s.sessOpen = false → s.phase ≠ .error →
    s.peerSclLow = true → s.peerSdaLow = false → s.shreg.msb = true → k < pollBound s.cfg →
    s.peer = passes (k + 2) ++ [.scl false] →
    ∃ t, exec .stop s = .next t ∧ t.result = some .ok ∧ t.pollk = k ∧ t.phase = .stopped ∧
      t.stopDet = true) ∧
  (∀ (n : BitCount) (s : State) (ks : List Nat), s.upc = none → s.sessOpen = false →
    s.phase ≠ .error → ks.length = pulses n → (∀ k ∈ ks, k < pollBound s.cfg) →
    s.peer = .pass :: ks.flatMap stretchTurn →
    ∃ t, exec (.bitx n) s = .next t ∧ t.result = some .ok ∧ t.pollk = ks.getLastD 0 ∧
      t.phase = s.phase ∧ t.peer = [])

/-- STOP (rules R205 and R206), for every Peer: OK or MissingStop by STOP_DET at the check, with SCL
released and SDA unforced; ClockHighTimeout leaves SDA forced low and SCL released. SHREG and CNT are
unchanged. With no Peer step START_DET is set exactly by R205's corner case (a). -/
def Obligations.StopOutcomes : Prop :=
  ∀ s : State, s.upc = none → s.sessOpen = false → s.phase ≠ .error →
    ∃ t, exec .stop s = .next t ∧ t.upc = none ∧ t.value = none ∧ t.shreg = s.shreg ∧
      t.cnt = s.cnt ∧ t.sclDrv = .rel ∧ t.sdaDir = .outward ∧
      (s.peer = [] → t.startDet = (s.startDet || (s.scl && s.sda))) ∧
      ((t.result = some .ok ∧ t.phase = .stopped ∧ t.sdaForce = false ∧ t.stopDet = true) ∨
        (t.result = some .missingStop ∧ t.phase = .error ∧ t.sdaForce = false ∧ t.stopDet = false) ∨
        (t.result = some .clockHighTimeout ∧ t.phase = .error ∧ t.sdaForce = true))

/-- STOP at the end of a transfer, with no Peer step (rule R205's example): the Stop condition, OK, and both
lines released when SHREG[7] = 1. -/
def Obligations.StopReleasesTheBus : Prop :=
  ∀ s : State, s.upc = none → s.sessOpen = false → s.phase ≠ .error → s.peer = [] →
    s.sclDrv = .low → s.peerSclLow = false → s.peerSdaLow = false → s.shreg.msb = true →
    ∃ t, exec .stop s = .next t ∧ t.result = some .ok ∧ t.phase = .stopped ∧ t.stopDet = true ∧
      t.startDet = s.startDet ∧ t.scl = true ∧ t.sda = true ∧
      t.trace = ⟨.check .stopMade, true, true⟩ :: ⟨.wait .idle s.cfg.dly.idle, true, true⟩ ::
        ⟨.sdaUnforce, true, true⟩ :: ⟨.wait .preStop s.cfg.dly.preStop, true, false⟩ ::
        ⟨.readScl true, true, false⟩ :: ⟨.sclRel, true, false⟩ :: ⟨.sdaForce, false, false⟩ :: s.trace

/-- Rules R220 and R221: TRANSMIT's pre-checks, in order: the start flag, UnexpectedStop in the data phase
only, DataCollision. Rule R222: a pre-check fault changes nothing but RESULT and PHASE (with VALUE and the
one event in TRACE); here with no Peer step. SEND is the data phase (rule R257). -/
def Obligations.TransmitChecksInOrder : Prop :=
  ∀ (i : Instr) (ph : TxPhase) (b : Byte) (s : State) (r : FaultCode),
    s.upc = none → s.sessOpen = false → s.phase ≠ .error → s.peer = [] →
    i = .transmit ph b ∨ (i = .send b ∧ ph = .data) →
    r = (if ph = .address ∧ s.startDet = false then .missingStart
      else if ph = .data ∧ s.startDet = true then .unexpectedStart
      else if ph = .data ∧ s.stopDet = true then .unexpectedStop
      else if s.shreg.msb ≠ s.sda then .dataCollision
      else .ok) →
    r ≠ .ok →
    exec i s = .next { s with
      result := some r
      phase := .error
      value := none
      trace := ⟨.check (.transmit ph), s.scl, s.sda⟩ :: s.trace }

/-- TRANSMIT and SEND (rules R220, R222 and R257), for every Peer. OK, or the NACK of the phase: SCL held
low, SHREG = 0xFF, SDA_DIR = In, CNT = 0. A pre-check fault leaves SCL_DRV, SDA_DIR, SHREG and CNT as on
entry. A time-out leaves SCL released and 1 to 8 pulses to make. SDA_FORCE never changes. -/
def Obligations.TransmitOutcomes : Prop :=
  ∀ (i : Instr) (ph : TxPhase) (b : Byte) (s : State),
    s.upc = none → s.sessOpen = false → s.phase ≠ .error →
    i = .transmit ph b ∨ (i = .send b ∧ ph = .data) →
    ∃ t r, exec i s = .next t ∧ t.upc = none ∧ t.value = none ∧ t.result = some r ∧
      t.sdaForce = s.sdaForce ∧
      ((r = .ok ∧ t.phase = (if ph = .address then .addressSent else .sending) ∧ t.sclDrv = .low ∧
          t.shreg = 0xFF ∧ t.sdaDir = .inward ∧ t.cnt = 0) ∨
        (r = (if ph = .address then .addressNack else .dataNack) ∧ t.phase = .error ∧
          t.sclDrv = .low ∧ t.shreg = 0xFF ∧ t.sdaDir = .inward ∧ t.cnt = 0) ∨
        (r = .clockHighTimeout ∧ t.phase = .error ∧ t.sclDrv = .rel ∧ 1 ≤ t.cnt ∧ t.cnt ≤ 8) ∨
        (r ∈ (if ph = .address then [.missingStart, .dataCollision]
            else [.unexpectedStart, .unexpectedStop, .dataCollision]) ∧
          t.phase = .error ∧ t.sclDrv = s.sclDrv ∧ t.sdaDir = s.sdaDir ∧ t.shreg = s.shreg ∧
          t.cnt = s.cnt))

/-- TRANSMIT to a Peer that ACKs (rules R83 and R220): with the pre-checks passing and the bus free, the
byte goes out most-significant bit first, then the ACK bit 0, and the result is OK with both flags
clear. -/
def Obligations.TransmitCarriesTheByteToAnAckingPeer : Prop :=
  ∀ (ph : TxPhase) (b : Byte) (s : State), s.upc = none → s.sessOpen = false → s.phase ≠ .error →
    s.peerSclLow = false → s.peerSdaLow = false → s.sdaForce = false →
    (ph = .address ∧ s.startDet = true ∨ ph = .data ∧ s.startDet = false ∧ s.stopDet = false) →
    s.shreg.msb = s.sda → s.peer = ackTurn →
    ∃ t es, exec (.transmit ph b) s = .next t ∧ t.result = some .ok ∧ t.startDet = false ∧
      t.stopDet = false ∧ t.peer = [] ∧ t.trace = es ++ s.trace ∧
      riseSamples s.scl es.reverse = msbFirst b ++ [false]

/-- A Peer that never steps gives no ACK: with the pre-checks passing and the bus free, TRANSMIT sends the
byte, reads 1 at the ninth edge, and returns the NACK of the phase (rule R220, corner case d). -/
def Obligations.TransmitReadsNackFromASilentPeer : Prop :=
  ∀ (ph : TxPhase) (b : Byte) (s : State), s.upc = none → s.sessOpen = false → s.phase ≠ .error →
    s.peerSclLow = false → s.peerSdaLow = false → s.sdaForce = false →
    (ph = .address ∧ s.startDet = true ∨ ph = .data ∧ s.startDet = false ∧ s.stopDet = false) →
    s.shreg.msb = s.sda → s.peer = [] →
    ∃ t es, exec (.transmit ph b) s = .next t ∧
      t.result = some (if ph = .address then .addressNack else .dataNack) ∧
      t.startDet = false ∧ t.stopDet = false ∧ t.trace = es ++ s.trace ∧
      riseSamples s.scl es.reverse = msbFirst b ++ [true]

/-- "`SEND b` has the same effect as `TRANSMIT data, b`" (rule R108), in every state. -/
def Obligations.SendIsTransmitData : Prop :=
  ∀ (b : Byte) (s : State), exec (.send b) s = exec (.transmit .data b) s

/-- START_SENDING "has the same effect on every piece of state and on the wire as `START` followed, if START
returned OK, by `ADDRESS Send`" (rule R108), whatever the Peer does. -/
def Obligations.StartSendingIsStartThenAddress : Prop :=
  ∀ s t : State, s.upc = none → s.sessOpen = false → exec .start s = .next t →
    (t.result = some .ok → exec .startSending s = exec (.transmit .address (addressPrefix s.cfg .send)) t) ∧
    (t.result ≠ some .ok → exec .startSending s = .next t)

/-- START_SENDING (rule R255), for every Peer: it returns OK with PHASE AddressSent, SCL held low, SHREG =
0xFF and SDA_DIR = In, or a code of its row with PHASE Error. -/
def Obligations.StartSendingOutcomes : Prop :=
  ∀ s : State, s.upc = none → s.sessOpen = false →
    ∃ t, exec .startSending s = .next t ∧ t.upc = none ∧ t.value = none ∧
      ((t.result = some .ok ∧ t.phase = .addressSent ∧ t.sclDrv = .low ∧ t.shreg = 0xFF ∧
          t.sdaDir = .inward ∧ t.sdaForce = false ∧ t.cnt = 0) ∨
        (t.phase = .error ∧ ∃ r, t.result = some r ∧
          r ∈ [FaultCode.clockHighTimeout, .missingStart, .dataCollision, .addressNack]))

/-- START_SENDING to a Peer that ACKs, from a free bus (rule R255's example): OK, and the wire carries the
address byte, then the ACK. -/
def Obligations.StartSendingAddressesTheDevice : Prop :=
  ∀ s : State, s.upc = none → s.sessOpen = false → s.busFree → s.peer = ackStart →
    ∃ t es, exec .startSending s = .next t ∧ t.result = some .ok ∧ t.phase = .addressSent ∧
      t.startDet = false ∧ t.stopDet = false ∧ t.peer = [] ∧ t.trace = es ++ s.trace ∧
      riseSamples true es.reverse = msbFirst (addressPrefix s.cfg .send) ++ [false]

/-- RECEIVE (rules R230, R232 and R352), for every Peer: OK with PHASE Stopped and SCL released, or a code
of its row with PHASE Error; an AddressNack leaves RX untouched, SCL held low and SDA_DIR = In: no Stop is
attempted. The bytes received, `vs`, are those of the μWRITERX events that this RECEIVE adds to TRACE, one
for each index from 0 on, in order; RX[a] reads the byte of index a's event, and every index with no event
reads as before (rule R87). OK and MissingStop come after all N bytes, MissingStart, DataCollision and
AddressNack before the first, and a time-out after some of them. -/
def Obligations.ReceiveOutcomes : Prop :=
  ∀ (n : Half) (s : State), s.upc = none → s.sessOpen = false →
    ∃ t r es vs, exec (.receive n) s = .next t ∧ t.upc = none ∧ t.value = none ∧ t.result = some r ∧
      t.trace = es ++ s.trace ∧ rxWrites es.reverse = vs.mapIdx (fun a v => (a, v)) ∧
      vs.length ≤ n.toNat ∧
      (∀ a, t.rx.read a = if a < vs.length then vs[a]? else s.rx.read a) ∧
      ((r = .ok ∧ t.phase = .stopped ∧ t.sclDrv = .rel ∧ t.sdaForce = false ∧ t.sdaDir = .outward ∧
          t.stopDet = true ∧ vs.length = n.toNat) ∨
        (t.phase = .error ∧
          (r = .clockHighTimeout ∧ t.sclDrv = .rel ∨
            r = .missingStart ∧ vs = [] ∧ t.rx = s.rx ∧ t.sclDrv = .low ∨
            r = .dataCollision ∧ vs = [] ∧ t.rx = s.rx ∧ t.sclDrv = .low ∨
            r = .addressNack ∧ vs = [] ∧ t.rx = s.rx ∧ t.sclDrv = .low ∧ t.sdaDir = .inward ∧
              t.shreg = 0xFF ∨
            r = .missingStop ∧ t.sclDrv = .rel ∧ vs.length = n.toNat)))

/-- RECEIVE from a Peer that sends (rules R84, R87, R230 and R231): from a free bus, a Peer that ACKs the
address and then presents N bytes gives OK, "fills `buffer` with exactly N bytes in transfer order", and
the master answers every byte but the last with ACK and the last with NACK. -/
def Obligations.ReceiveFillsTheBufferInTransferOrder : Prop :=
  ∀ (n : Half) (ds : List Byte) (s : State), s.upc = none → s.sessOpen = false → s.busFree →
    ds.length = n.toNat → s.peer = senderTurns ds →
    ∃ t es, exec (.receive n) s = .next t ∧ t.result = some .ok ∧ t.phase = .stopped ∧
      (∀ a, a < n.toNat → t.rx.read a = ds[a]?) ∧ t.trace = es ++ s.trace ∧
      riseSamples true es.reverse =
        msbFirst (addressPrefix s.cfg .receive) ++ false ::
          ((ds.mapIdx fun k d => msbFirst d ++ [decide (k + 1 = ds.length)]).flatten ++ [false])

/-! ## The session unit -/

/-- S_OPEN (rule R272), for every Peer: the session opens whatever StartSending returns, with that code as
the sticky fault and step0 reduced modulo 2^STEP_WIDTH. -/
def Obligations.SOpenOutcomes : Prop :=
  ∀ (step0 : Half) (s : State), s.upc = none → s.sessOpen = false →
    ∃ t r, exec (.sOpen step0) s = .next t ∧ t.upc = none ∧ t.value = none ∧ t.sessOpen = true ∧
      t.sessStep = some (step0.toNat % 2 ^ stepWidth s.cfg) ∧ t.sessFault = some r ∧
      t.result = some r ∧
      ((r = .ok ∧ t.phase = .addressSent ∧ t.sclDrv = .low ∧ t.shreg = 0xFF ∧ t.sdaDir = .inward) ∨
        (r ∈ [FaultCode.clockHighTimeout, .missingStart, .dataCollision, .addressNack] ∧
          t.phase = .error))

/-- S_OPEN performs StartSending (rule R272): for the same state and the same Peer it leaves the master's
drivers, SHREG, CNT, POLLK, RX, PHASE, RESULT and TRACE as START_SENDING does, followed by one μSESS that
opens the session with that result as the sticky fault; only Peer steps come between. With no Peer step left
that is the whole next state. -/
def Obligations.SOpenPerformsStartSending : Prop :=
  ∀ (step0 : Half) (s t u : State), s.upc = none → s.sessOpen = false →
    exec (.sOpen step0) s = .next t → exec .startSending s = .next u →
    ∃ r n ps, u.result = some r ∧ n = step0.toNat % 2 ^ stepWidth s.cfg ∧
      t.result = some r ∧ t.sessOpen = true ∧ t.sessFault = some r ∧ t.sessStep = some n ∧
      t.phase = u.phase ∧ t.sclDrv = u.sclDrv ∧ t.sdaForce = u.sdaForce ∧ t.sdaDir = u.sdaDir ∧
      t.shreg = u.shreg ∧ t.cnt = u.cnt ∧ t.pollk = u.pollk ∧ t.rx = u.rx ∧
      (∀ e ∈ ps, e.kind.byEngine = false) ∧
      t.trace = ⟨.sess [.openTo true, .stepTo n, .faultTo r], t.scl, t.sda⟩ :: (ps ++ u.trace) ∧
      (u.peer = [] → t = { u with
        sessOpen := true, sessFault := some r, sessStep := some n, trace := t.trace } ∧ ps = [])

/-- S_SEND with the sticky fault OK (rules R274 and R287), for every Peer: the step goes up by one modulo
2^STEP_WIDTH whatever the result, and the result is the new sticky fault. The byte is forwarded: S_SEND
leaves the master's drivers, SHREG, CNT, POLLK, PHASE, RESULT and TRACE as TRANSMIT data does from the same
state with the session closed, followed by one μSESS; only Peer steps come between. With no Peer step left
that is the whole next state. -/
def Obligations.SSendForwards : Prop :=
  ∀ (b : Byte) (s : State) (n : Nat), s.upc = none → s.sessOpen = true → s.sessFault = some .ok →
    s.sessStep = some n →
    ∃ t r, exec (.sSend b) s = .next t ∧ t.upc = none ∧ t.value = none ∧ t.sessOpen = true ∧
      t.sessStep = some ((n + 1) % 2 ^ stepWidth s.cfg) ∧ t.sessFault = some r ∧ t.result = some r ∧
      ((r = .ok ∧ t.phase = .sending ∧ t.sclDrv = .low ∧ t.shreg = 0xFF ∧ t.sdaDir = .inward) ∨
        (r ∈ [FaultCode.unexpectedStart, .unexpectedStop, .dataCollision, .clockHighTimeout,
            .dataNack] ∧ t.phase = .error)) ∧
      ∀ u, s.phase ≠ .error → exec (.transmit .data b) { s with sessOpen := false } = .next u →
        ∃ ps, u.result = some r ∧ t.phase = u.phase ∧ t.sclDrv = u.sclDrv ∧
          t.sdaForce = u.sdaForce ∧ t.sdaDir = u.sdaDir ∧ t.shreg = u.shreg ∧ t.cnt = u.cnt ∧
          t.pollk = u.pollk ∧ t.rx = u.rx ∧ (∀ e ∈ ps, e.kind.byEngine = false) ∧
          t.trace = ⟨.sess [.stepUp, .foldFault r], t.scl, t.sda⟩ :: (ps ++ u.trace) ∧
          (u.peer = [] → t = { u with
            sessOpen := true, sessFault := some r
            sessStep := some ((n + 1) % 2 ^ stepWidth s.cfg), trace := t.trace } ∧ ps = [])

/-- A faulted session touches no hardware (rules R274, R276, R280, R282 and R286): S_SEND, S_SEND_REPEATED,
S_RECEIVE and S_STOP make one μSESS; with no Peer step they change only RESULT, VALUE, TRACE, and SESS_OPEN
for the two that close the session. -/
def Obligations.FaultedSessionTouchesNoHardware : Prop :=
  ∀ (s : State) (f : FaultCode) (n : Nat), s.upc = none → s.sessOpen = true →
    s.sessFault = some f → f ≠ .ok → s.sessStep = some n → s.peer = [] →
    (∀ (i : Instr), (∃ b, i = .sSend b) ∨ (∃ c b, i = .sSendRepeated c b) →
      exec i s = .next { s with
        result := some f, value := none, trace := ⟨.sess [], s.scl, s.sda⟩ :: s.trace }) ∧
    (∀ k : Half, exec (.sReceive k) s = .next { s with
      sessOpen := false, result := some f, value := none,
      trace := ⟨.sess [.openTo false], s.scl, s.sda⟩ :: s.trace }) ∧
    exec .sStop s = .next { s with
      sessOpen := false, result := some f, value := some (.status f n),
      trace := ⟨.sess [.openTo false], s.scl, s.sda⟩ :: s.trace }

/-- "First fault wins" (rule R286), for every Peer: in a faulted session S_SEND and S_SEND_REPEATED leave
the master's drivers, SHREG, RX, PHASE and all session registers as they are, and RESULT repeats the
sticky fault. -/
def Obligations.FirstFaultWins : Prop :=
  ∀ (i : Instr) (s : State) (f : FaultCode) (n : Nat), s.upc = none → s.sessOpen = true →
    s.sessFault = some f → f ≠ .ok → s.sessStep = some n →
    (∃ b, i = .sSend b) ∨ (∃ c b, i = .sSendRepeated c b) →
    ∃ t, exec i s = .next t ∧ t.upc = none ∧ t.result = some f ∧ t.sessOpen = true ∧
      t.sessFault = some f ∧ t.sessStep = some n ∧ t.phase = s.phase ∧ t.rx = s.rx ∧
      t.sclDrv = s.sclDrv ∧ t.sdaForce = s.sdaForce ∧ t.sdaDir = s.sdaDir ∧ t.shreg = s.shreg ∧
      t.microSteps = s.microSteps + 1

/-- S_SEND_REPEATED with the sticky fault OK (rules R276 and R287), for every Peer: f is the number of sends
begun, as TRACE shows them, and the step goes up by f modulo 2^STEP_WIDTH. When the result is OK all `count`
sends were made and each returned OK; otherwise every send before the f-th returned OK, the f-th returned the
fault, and no other send was begun. Each is an S_SEND of the byte (rule R108's copies): with the sticky fault
OK, S_SEND_REPEATED c + 1 is S_SEND followed by S_SEND_REPEATED c, whatever the Peer does. -/
def Obligations.SSendRepeatedCountsForwardedSends : Prop :=
  (∀ (count : Half) (b : Byte) (s : State) (n : Nat), s.upc = none → s.sessOpen = true →
    s.sessFault = some .ok → s.sessStep = some n → n < 2 ^ stepWidth s.cfg →
    ∃ t r es f, exec (.sSendRepeated count b) s = .next t ∧ t.upc = none ∧ t.value = none ∧
      t.trace = es ++ s.trace ∧ f = sendsBegun es ∧ f ≤ count.toNat ∧
      t.sessOpen = true ∧ t.sessStep = some ((n + f) % 2 ^ stepWidth s.cfg) ∧
      t.sessFault = some r ∧ t.result = some r ∧
      ((r = .ok ∧ f = count.toNat ∧ sendResults es.reverse = List.replicate f .ok ∧
          t.phase = (if count = 0 then s.phase else .sending)) ∨
        (r ∈ [FaultCode.unexpectedStart, .unexpectedStop, .dataCollision, .clockHighTimeout,
            .dataNack] ∧ 1 ≤ f ∧ sendResults es.reverse = List.replicate (f - 1) .ok ++ [r] ∧
          t.phase = .error))) ∧
  (∀ (c : Half) (b : Byte) (s t : State), s.upc = none → s.sessOpen = true →
    s.sessFault = some .ok → c.toNat + 1 ≤ 65535 → exec (.sSend b) s = .next t →
    exec (.sSendRepeated (c + 1) b) s = exec (.sSendRepeated c b) t)

/-- S_VALID (rule R278), for every Peer: RESULT repeats the sticky fault, VALID is 1 iff it is OK, and no
register but RESULT (and VALUE) changes; with no Peer step nothing else but TRACE changes. -/
def Obligations.SValidAnswersTheStickyFault : Prop :=
  ∀ (s : State) (f : FaultCode), s.upc = none → s.sessOpen = true → s.sessFault = some f →
    (∃ t, exec .sValid s = .next t ∧ t.upc = none ∧ t.result = some f ∧
      t.value = some (.valid (decide (f = .ok))) ∧ t.phase = s.phase ∧ t.sessOpen = true ∧
      t.sessFault = some f ∧ t.sessStep = s.sessStep ∧ t.rx = s.rx ∧ t.sclDrv = s.sclDrv ∧
      t.sdaForce = s.sdaForce ∧ t.sdaDir = s.sdaDir ∧ t.shreg = s.shreg ∧ t.cnt = s.cnt ∧
      t.pollk = s.pollk) ∧
    (s.peer = [] → exec .sValid s = .next { s with
      result := some f, value := some (.valid (decide (f = .ok))),
      trace := ⟨.sess [], s.scl, s.sda⟩ :: s.trace })

/-- S_RECEIVE (rule R280), for every Peer: the session closes whatever happens. With the sticky fault OK
Receive runs and its code is the new sticky fault: S_RECEIVE leaves the master's drivers, SHREG, CNT, POLLK,
RX, PHASE, RESULT and TRACE as RECEIVE does from the same state with the session closed, followed by one
μSESS; only Peer steps come between, and with no Peer step left that is the whole next state. The bytes
received, `vs`, are those of the μWRITERX events it adds to TRACE, and every index with no event reads as
before (rule R87): none with MissingStart, DataCollision and AddressNack, all N with OK and MissingStop. With
a sticky fault no hardware is touched. -/
def Obligations.SReceiveEndsTheSession : Prop :=
  ∀ (n : Half) (s : State) (f : FaultCode), s.upc = none → s.sessOpen = true → s.sessFault = some f →
    ∃ t r es vs, exec (.sReceive n) s = .next t ∧ t.upc = none ∧ t.value = none ∧
      t.sessOpen = false ∧ t.sessStep = s.sessStep ∧ t.sessFault = some r ∧ t.result = some r ∧
      t.trace = es ++ s.trace ∧ rxWrites es.reverse = vs.mapIdx (fun a v => (a, v)) ∧
      vs.length ≤ n.toNat ∧
      (∀ a, t.rx.read a = if a < vs.length then vs[a]? else s.rx.read a) ∧
      ((f = .ok ∧ r = .ok ∧ t.phase = .stopped ∧ t.sclDrv = .rel ∧ vs.length = n.toNat) ∨
        (f = .ok ∧ r = .clockHighTimeout ∧ t.phase = .error) ∨
        (f = .ok ∧ r ∈ [FaultCode.missingStart, .dataCollision, .addressNack] ∧ t.phase = .error ∧
          vs = [] ∧ t.rx = s.rx) ∨
        (f = .ok ∧ r = .missingStop ∧ t.phase = .error ∧ vs.length = n.toNat) ∨
        (f ≠ .ok ∧ r = f ∧ t.phase = s.phase ∧ vs = [] ∧ t.rx = s.rx ∧ t.sclDrv = s.sclDrv ∧
          t.sdaForce = s.sdaForce ∧ t.sdaDir = s.sdaDir ∧ t.shreg = s.shreg)) ∧
      (f = .ok → ∀ u, exec (.receive n) { s with sessOpen := false } = .next u →
        ∃ ps, u.result = some r ∧ t.phase = u.phase ∧ t.sclDrv = u.sclDrv ∧
          t.sdaForce = u.sdaForce ∧ t.sdaDir = u.sdaDir ∧ t.shreg = u.shreg ∧ t.cnt = u.cnt ∧
          t.pollk = u.pollk ∧ t.rx = u.rx ∧ (∀ e ∈ ps, e.kind.byEngine = false) ∧
          t.trace = ⟨.sess [.openTo false, .foldFault r], t.scl, t.sda⟩ :: (ps ++ u.trace) ∧
          (u.peer = [] → t = { u with
            sessOpen := false, sessFault := some r, trace := t.trace } ∧ ps = []))

/-- S_STOP (rule R282), for every Peer: the session closes and gives its Status; Stop runs only with the
sticky fault OK, and its code is the new sticky fault: S_STOP then leaves the master's drivers, SHREG, CNT,
POLLK, RX, PHASE, RESULT and TRACE as STOP does from the same state with the session closed, followed by one
μSESS; only Peer steps come between, and with no Peer step left that is the whole next state. -/
def Obligations.SStopGivesTheStatus : Prop :=
  ∀ (s : State) (f : FaultCode) (n : Nat), s.upc = none → s.sessOpen = true → s.sessFault = some f →
    s.sessStep = some n →
    ∃ t r, exec .sStop s = .next t ∧ t.upc = none ∧ t.sessOpen = false ∧ t.sessStep = some n ∧
      t.sessFault = some r ∧ t.result = some r ∧ t.value = some (.status r n) ∧
      ((f = .ok ∧ r = .ok ∧ t.phase = .stopped ∧ t.sclDrv = .rel ∧ t.sdaForce = false) ∨
        (f = .ok ∧ r ∈ [FaultCode.clockHighTimeout, .missingStop] ∧ t.phase = .error) ∨
        (f ≠ .ok ∧ r = f ∧ t.phase = s.phase ∧ t.sclDrv = s.sclDrv ∧ t.sdaForce = s.sdaForce ∧
          t.sdaDir = s.sdaDir)) ∧
      (f = .ok → s.phase ≠ .error → ∀ u, exec .stop { s with sessOpen := false } = .next u →
        ∃ ps, u.result = some r ∧ t.phase = u.phase ∧ t.sclDrv = u.sclDrv ∧
          t.sdaForce = u.sdaForce ∧ t.sdaDir = u.sdaDir ∧ t.shreg = u.shreg ∧ t.cnt = u.cnt ∧
          t.pollk = u.pollk ∧ t.rx = u.rx ∧ (∀ e ∈ ps, e.kind.byEngine = false) ∧
          t.trace = ⟨.sess [.openTo false, .foldFault r], t.scl, t.sda⟩ :: (ps ++ u.trace) ∧
          (u.peer = [] → t = { u with
            sessOpen := false, sessFault := some r, value := some (.status r n), trace := t.trace } ∧
            ps = []))

/-- The session commands to a Peer that answers (rules R272, R274, R278 and R282): S_OPEN from a free bus
to an ACKing Peer, S_SEND with its pre-checks passing to an ACKing Peer, and S_STOP at the end of a transfer
complete with OK, with the byte and the ACK on the wire, or the Stop condition made. -/
def Obligations.SessionCommandsCompleteWithOk : Prop :=
  (∀ (step0 : Half) (s : State), s.upc = none → s.sessOpen = false → s.busFree → s.peer = ackStart →
    ∃ t es, exec (.sOpen step0) s = .next t ∧ t.result = some .ok ∧ t.sessOpen = true ∧
      t.sessFault = some .ok ∧ t.sessStep = some (step0.toNat % 2 ^ stepWidth s.cfg) ∧
      t.phase = .addressSent ∧ t.trace = es ++ s.trace ∧
      riseSamples true es.reverse = msbFirst (addressPrefix s.cfg .send) ++ [false]) ∧
  (∀ (b : Byte) (s : State) (n : Nat), s.upc = none → s.sessOpen = true → s.sessFault = some .ok →
    s.sessStep = some n → s.peerSclLow = false → s.peerSdaLow = false → s.sdaForce = false →
    s.startDet = false → s.stopDet = false → s.shreg.msb = s.sda → s.peer = ackTurn →
    ∃ t es, exec (.sSend b) s = .next t ∧ t.result = some .ok ∧ t.sessFault = some .ok ∧
      t.sessStep = some ((n + 1) % 2 ^ stepWidth s.cfg) ∧ t.phase = .sending ∧
      t.trace = es ++ s.trace ∧ riseSamples s.scl es.reverse = msbFirst b ++ [false]) ∧
  (∀ (s : State) (n : Nat), s.upc = none → s.sessOpen = true → s.sessFault = some .ok →
    s.sessStep = some n → s.peer = [] → s.sclDrv = .low → s.peerSclLow = false →
    s.peerSdaLow = false → s.shreg.msb = true →
    ∃ t, exec .sStop s = .next t ∧ t.result = some .ok ∧ t.value = some (.status .ok n) ∧
      t.sessOpen = false ∧ t.phase = .stopped ∧ t.stopDet = true ∧ t.scl = true ∧ t.sda = true)

/-- The two session commands with a loop, to a Peer that answers (rules R276 and R280): S_SEND_REPEATED
sends the byte `count` times and steps the counter by `count`; S_RECEIVE fills RX[0] to RX[N−1] in
transfer order. -/
def Obligations.SessionLoopsCompleteWithOk : Prop :=
  (∀ (count : Half) (b : Byte) (s : State) (n : Nat), s.upc = none → s.sessOpen = true →
    s.sessFault = some .ok → s.sessStep = some n → n < 2 ^ stepWidth s.cfg →
    s.peerSclLow = false → s.peerSdaLow = false → s.sdaForce = false → s.startDet = false →
    s.stopDet = false → s.shreg.msb = s.sda →
    s.peer = (List.replicate count.toNat (ackTurn ++ [.pass])).flatten →
    ∃ t es, exec (.sSendRepeated count b) s = .next t ∧ t.result = some .ok ∧
      t.sessOpen = true ∧ t.sessStep = some ((n + count.toNat) % 2 ^ stepWidth s.cfg) ∧
      t.trace = es ++ s.trace ∧
      riseSamples s.scl es.reverse = (List.replicate count.toNat (msbFirst b ++ [false])).flatten) ∧
  (∀ (n : Half) (ds : List Byte) (s : State), s.upc = none → s.sessOpen = true →
    s.sessFault = some .ok → s.busFree → ds.length = n.toNat → s.peer = senderTurns ds →
    ∃ t, exec (.sReceive n) s = .next t ∧ t.result = some .ok ∧ t.sessOpen = false ∧
      t.sessFault = some .ok ∧ t.phase = .stopped ∧ ∀ a, a < n.toNat → t.rx.read a = ds[a]?)
end

