-- ==== Sys2Proof/Laws/State.lean ====
section
/-! SUPPORT. One lemma per field for each named update of the state, so that no later proof unfolds a record
update: what the update writes, and every field it leaves alone. -/

namespace Sys2Proof.Machine

/-! ## A refused command -/

@[simp] theorem refuse_cfg (s : State) :
    (refuse s).cfg = s.cfg := rfl
@[simp] theorem refuse_sclDrv (s : State) :
    (refuse s).sclDrv = s.sclDrv := rfl
@[simp] theorem refuse_sdaForce (s : State) :
    (refuse s).sdaForce = s.sdaForce := rfl
@[simp] theorem refuse_sdaDir (s : State) :
    (refuse s).sdaDir = s.sdaDir := rfl
@[simp] theorem refuse_shreg (s : State) :
    (refuse s).shreg = s.shreg := rfl
@[simp] theorem refuse_startDet (s : State) :
    (refuse s).startDet = s.startDet := rfl
@[simp] theorem refuse_stopDet (s : State) :
    (refuse s).stopDet = s.stopDet := rfl
@[simp] theorem refuse_latch (s : State) :
    (refuse s).latch = s.latch := rfl
@[simp] theorem refuse_cnt (s : State) :
    (refuse s).cnt = s.cnt := rfl
@[simp] theorem refuse_pollk (s : State) :
    (refuse s).pollk = s.pollk := rfl
@[simp] theorem refuse_upc (s : State) :
    (refuse s).upc = s.upc := rfl
@[simp] theorem refuse_phase (s : State) :
    (refuse s).phase = s.phase := rfl
@[simp] theorem refuse_result (s : State) :
    (refuse s).result = s.result := rfl
@[simp] theorem refuse_value (s : State) :
    (refuse s).value = s.value := rfl
@[simp] theorem refuse_sessOpen (s : State) :
    (refuse s).sessOpen = s.sessOpen := rfl
@[simp] theorem refuse_sessFault (s : State) :
    (refuse s).sessFault = s.sessFault := rfl
@[simp] theorem refuse_sessStep (s : State) :
    (refuse s).sessStep = s.sessStep := rfl
@[simp] theorem refuse_rx (s : State) :
    (refuse s).rx = s.rx := rfl
@[simp] theorem refuse_peerSclLow (s : State) :
    (refuse s).peerSclLow = s.peerSclLow := rfl
@[simp] theorem refuse_peerSdaLow (s : State) :
    (refuse s).peerSdaLow = s.peerSdaLow := rfl
@[simp] theorem refuse_refused (s : State) :
    (refuse s).refused = true := rfl
@[simp] theorem refuse_trace (s : State) :
    (refuse s).trace = s.trace := rfl
@[simp] theorem refuse_cmds (s : State) :
    (refuse s).cmds = s.cmds := rfl
@[simp] theorem refuse_peer (s : State) :
    (refuse s).peer = s.peer := rfl

/-! ## The detector, the latch and TRACE -/

@[simp] theorem commit_cfg (s0 s1 : State) (k : EventKind) :
    (commit s0 s1 k).cfg = s1.cfg := rfl
@[simp] theorem commit_sclDrv (s0 s1 : State) (k : EventKind) :
    (commit s0 s1 k).sclDrv = s1.sclDrv := rfl
@[simp] theorem commit_sdaForce (s0 s1 : State) (k : EventKind) :
    (commit s0 s1 k).sdaForce = s1.sdaForce := rfl
@[simp] theorem commit_sdaDir (s0 s1 : State) (k : EventKind) :
    (commit s0 s1 k).sdaDir = s1.sdaDir := rfl
@[simp] theorem commit_shreg (s0 s1 : State) (k : EventKind) :
    (commit s0 s1 k).shreg = s1.shreg := rfl
@[simp] theorem commit_startDet (s0 s1 : State) (k : EventKind) :
    (commit s0 s1 k).startDet = (s1.startDet || startEdge s0.scl s0.sda s1.scl s1.sda) := rfl
@[simp] theorem commit_stopDet (s0 s1 : State) (k : EventKind) :
    (commit s0 s1 k).stopDet = (s1.stopDet || stopEdge s0.scl s0.sda s1.scl s1.sda) := rfl
@[simp] theorem commit_latch (s0 s1 : State) (k : EventKind) :
    (commit s0 s1 k).latch = (if !s0.scl && s1.scl then s1.sda else s1.latch) := rfl
@[simp] theorem commit_cnt (s0 s1 : State) (k : EventKind) :
    (commit s0 s1 k).cnt = s1.cnt := rfl
@[simp] theorem commit_pollk (s0 s1 : State) (k : EventKind) :
    (commit s0 s1 k).pollk = s1.pollk := rfl
@[simp] theorem commit_upc (s0 s1 : State) (k : EventKind) :
    (commit s0 s1 k).upc = s1.upc := rfl
@[simp] theorem commit_phase (s0 s1 : State) (k : EventKind) :
    (commit s0 s1 k).phase = s1.phase := rfl
@[simp] theorem commit_result (s0 s1 : State) (k : EventKind) :
    (commit s0 s1 k).result = s1.result := rfl
@[simp] theorem commit_value (s0 s1 : State) (k : EventKind) :
    (commit s0 s1 k).value = s1.value := rfl
@[simp] theorem commit_sessOpen (s0 s1 : State) (k : EventKind) :
    (commit s0 s1 k).sessOpen = s1.sessOpen := rfl
@[simp] theorem commit_sessFault (s0 s1 : State) (k : EventKind) :
    (commit s0 s1 k).sessFault = s1.sessFault := rfl
@[simp] theorem commit_sessStep (s0 s1 : State) (k : EventKind) :
    (commit s0 s1 k).sessStep = s1.sessStep := rfl
@[simp] theorem commit_rx (s0 s1 : State) (k : EventKind) :
    (commit s0 s1 k).rx = s1.rx := rfl
@[simp] theorem commit_peerSclLow (s0 s1 : State) (k : EventKind) :
    (commit s0 s1 k).peerSclLow = s1.peerSclLow := rfl
@[simp] theorem commit_peerSdaLow (s0 s1 : State) (k : EventKind) :
    (commit s0 s1 k).peerSdaLow = s1.peerSdaLow := rfl
@[simp] theorem commit_refused (s0 s1 : State) (k : EventKind) :
    (commit s0 s1 k).refused = s1.refused := rfl
@[simp] theorem commit_trace (s0 s1 : State) (k : EventKind) :
    (commit s0 s1 k).trace = ⟨k, s1.scl, s1.sda⟩ :: s1.trace := rfl
@[simp] theorem commit_cmds (s0 s1 : State) (k : EventKind) :
    (commit s0 s1 k).cmds = s1.cmds := rfl
@[simp] theorem commit_peer (s0 s1 : State) (k : EventKind) :
    (commit s0 s1 k).peer = s1.peer := rfl

/-! ## The end of a raw command -/

@[simp] theorem finish_cfg (op : OpKind) (r : FaultCode) (g : Option Byte) (s : State) :
    (finish op r g s).cfg = s.cfg := rfl
@[simp] theorem finish_sclDrv (op : OpKind) (r : FaultCode) (g : Option Byte) (s : State) :
    (finish op r g s).sclDrv = s.sclDrv := rfl
@[simp] theorem finish_sdaForce (op : OpKind) (r : FaultCode) (g : Option Byte) (s : State) :
    (finish op r g s).sdaForce = s.sdaForce := rfl
@[simp] theorem finish_sdaDir (op : OpKind) (r : FaultCode) (g : Option Byte) (s : State) :
    (finish op r g s).sdaDir = s.sdaDir := rfl
@[simp] theorem finish_shreg (op : OpKind) (r : FaultCode) (g : Option Byte) (s : State) :
    (finish op r g s).shreg = s.shreg := rfl
@[simp] theorem finish_startDet (op : OpKind) (r : FaultCode) (g : Option Byte) (s : State) :
    (finish op r g s).startDet = s.startDet := rfl
@[simp] theorem finish_stopDet (op : OpKind) (r : FaultCode) (g : Option Byte) (s : State) :
    (finish op r g s).stopDet = s.stopDet := rfl
@[simp] theorem finish_latch (op : OpKind) (r : FaultCode) (g : Option Byte) (s : State) :
    (finish op r g s).latch = s.latch := rfl
@[simp] theorem finish_cnt (op : OpKind) (r : FaultCode) (g : Option Byte) (s : State) :
    (finish op r g s).cnt = s.cnt := rfl
@[simp] theorem finish_pollk (op : OpKind) (r : FaultCode) (g : Option Byte) (s : State) :
    (finish op r g s).pollk = s.pollk := rfl
@[simp] theorem finish_upc (op : OpKind) (r : FaultCode) (g : Option Byte) (s : State) :
    (finish op r g s).upc = none := rfl
@[simp] theorem finish_phase (op : OpKind) (r : FaultCode) (g : Option Byte) (s : State) :
    (finish op r g s).phase = nextPhase op r s.phase := rfl
@[simp] theorem finish_result (op : OpKind) (r : FaultCode) (g : Option Byte) (s : State) :
    (finish op r g s).result = some r := rfl
@[simp] theorem finish_value (op : OpKind) (r : FaultCode) (g : Option Byte) (s : State) :
    (finish op r g s).value = g.map .byte := rfl
@[simp] theorem finish_sessOpen (op : OpKind) (r : FaultCode) (g : Option Byte) (s : State) :
    (finish op r g s).sessOpen = s.sessOpen := rfl
@[simp] theorem finish_sessFault (op : OpKind) (r : FaultCode) (g : Option Byte) (s : State) :
    (finish op r g s).sessFault = s.sessFault := rfl
@[simp] theorem finish_sessStep (op : OpKind) (r : FaultCode) (g : Option Byte) (s : State) :
    (finish op r g s).sessStep = s.sessStep := rfl
@[simp] theorem finish_rx (op : OpKind) (r : FaultCode) (g : Option Byte) (s : State) :
    (finish op r g s).rx = s.rx := rfl
@[simp] theorem finish_peerSclLow (op : OpKind) (r : FaultCode) (g : Option Byte) (s : State) :
    (finish op r g s).peerSclLow = s.peerSclLow := rfl
@[simp] theorem finish_peerSdaLow (op : OpKind) (r : FaultCode) (g : Option Byte) (s : State) :
    (finish op r g s).peerSdaLow = s.peerSdaLow := rfl
@[simp] theorem finish_refused (op : OpKind) (r : FaultCode) (g : Option Byte) (s : State) :
    (finish op r g s).refused = s.refused := rfl
@[simp] theorem finish_trace (op : OpKind) (r : FaultCode) (g : Option Byte) (s : State) :
    (finish op r g s).trace = s.trace := rfl
@[simp] theorem finish_cmds (op : OpKind) (r : FaultCode) (g : Option Byte) (s : State) :
    (finish op r g s).cmds = s.cmds := rfl
@[simp] theorem finish_peer (op : OpKind) (r : FaultCode) (g : Option Byte) (s : State) :
    (finish op r g s).peer = s.peer := rfl

/-! ## The end of a session command -/

@[simp] theorem finishS_cfg (o : Option (OpKind × FaultCode)) (g : SessGive) (s : State) :
    (finishS o g s).cfg = s.cfg := rfl
@[simp] theorem finishS_sclDrv (o : Option (OpKind × FaultCode)) (g : SessGive) (s : State) :
    (finishS o g s).sclDrv = s.sclDrv := rfl
@[simp] theorem finishS_sdaForce (o : Option (OpKind × FaultCode)) (g : SessGive) (s : State) :
    (finishS o g s).sdaForce = s.sdaForce := rfl
@[simp] theorem finishS_sdaDir (o : Option (OpKind × FaultCode)) (g : SessGive) (s : State) :
    (finishS o g s).sdaDir = s.sdaDir := rfl
@[simp] theorem finishS_shreg (o : Option (OpKind × FaultCode)) (g : SessGive) (s : State) :
    (finishS o g s).shreg = s.shreg := rfl
@[simp] theorem finishS_startDet (o : Option (OpKind × FaultCode)) (g : SessGive) (s : State) :
    (finishS o g s).startDet = s.startDet := rfl
@[simp] theorem finishS_stopDet (o : Option (OpKind × FaultCode)) (g : SessGive) (s : State) :
    (finishS o g s).stopDet = s.stopDet := rfl
@[simp] theorem finishS_latch (o : Option (OpKind × FaultCode)) (g : SessGive) (s : State) :
    (finishS o g s).latch = s.latch := rfl
@[simp] theorem finishS_cnt (o : Option (OpKind × FaultCode)) (g : SessGive) (s : State) :
    (finishS o g s).cnt = s.cnt := rfl
@[simp] theorem finishS_pollk (o : Option (OpKind × FaultCode)) (g : SessGive) (s : State) :
    (finishS o g s).pollk = s.pollk := rfl
@[simp] theorem finishS_upc (o : Option (OpKind × FaultCode)) (g : SessGive) (s : State) :
    (finishS o g s).upc = none := rfl
@[simp] theorem finishS_phase (o : Option (OpKind × FaultCode)) (g : SessGive) (s : State) :
    (finishS o g s).phase = (match o with | some (op, r) => nextPhase op r s.phase | none => s.phase) := rfl
@[simp] theorem finishS_result (o : Option (OpKind × FaultCode)) (g : SessGive) (s : State) :
    (finishS o g s).result = s.sessFault := rfl
@[simp] theorem finishS_value (o : Option (OpKind × FaultCode)) (g : SessGive) (s : State) :
    (finishS o g s).value = g.value s := rfl
@[simp] theorem finishS_sessOpen (o : Option (OpKind × FaultCode)) (g : SessGive) (s : State) :
    (finishS o g s).sessOpen = s.sessOpen := rfl
@[simp] theorem finishS_sessFault (o : Option (OpKind × FaultCode)) (g : SessGive) (s : State) :
    (finishS o g s).sessFault = s.sessFault := rfl
@[simp] theorem finishS_sessStep (o : Option (OpKind × FaultCode)) (g : SessGive) (s : State) :
    (finishS o g s).sessStep = s.sessStep := rfl
@[simp] theorem finishS_rx (o : Option (OpKind × FaultCode)) (g : SessGive) (s : State) :
    (finishS o g s).rx = s.rx := rfl
@[simp] theorem finishS_peerSclLow (o : Option (OpKind × FaultCode)) (g : SessGive) (s : State) :
    (finishS o g s).peerSclLow = s.peerSclLow := rfl
@[simp] theorem finishS_peerSdaLow (o : Option (OpKind × FaultCode)) (g : SessGive) (s : State) :
    (finishS o g s).peerSdaLow = s.peerSdaLow := rfl
@[simp] theorem finishS_refused (o : Option (OpKind × FaultCode)) (g : SessGive) (s : State) :
    (finishS o g s).refused = s.refused := rfl
@[simp] theorem finishS_trace (o : Option (OpKind × FaultCode)) (g : SessGive) (s : State) :
    (finishS o g s).trace = s.trace := rfl
@[simp] theorem finishS_cmds (o : Option (OpKind × FaultCode)) (g : SessGive) (s : State) :
    (finishS o g s).cmds = s.cmds := rfl
@[simp] theorem finishS_peer (o : Option (OpKind × FaultCode)) (g : SessGive) (s : State) :
    (finishS o g s).peer = s.peer := rfl

/-! ## An intermediate PHASE value -/

@[simp] theorem stamp_cfg (m : Option Phase) (s : State) :
    (stamp m s).cfg = s.cfg := by cases m <;> rfl
@[simp] theorem stamp_sclDrv (m : Option Phase) (s : State) :
    (stamp m s).sclDrv = s.sclDrv := by cases m <;> rfl
@[simp] theorem stamp_sdaForce (m : Option Phase) (s : State) :
    (stamp m s).sdaForce = s.sdaForce := by cases m <;> rfl
@[simp] theorem stamp_sdaDir (m : Option Phase) (s : State) :
    (stamp m s).sdaDir = s.sdaDir := by cases m <;> rfl
@[simp] theorem stamp_shreg (m : Option Phase) (s : State) :
    (stamp m s).shreg = s.shreg := by cases m <;> rfl
@[simp] theorem stamp_startDet (m : Option Phase) (s : State) :
    (stamp m s).startDet = s.startDet := by cases m <;> rfl
@[simp] theorem stamp_stopDet (m : Option Phase) (s : State) :
    (stamp m s).stopDet = s.stopDet := by cases m <;> rfl
@[simp] theorem stamp_latch (m : Option Phase) (s : State) :
    (stamp m s).latch = s.latch := by cases m <;> rfl
@[simp] theorem stamp_cnt (m : Option Phase) (s : State) :
    (stamp m s).cnt = s.cnt := by cases m <;> rfl
@[simp] theorem stamp_pollk (m : Option Phase) (s : State) :
    (stamp m s).pollk = s.pollk := by cases m <;> rfl
@[simp] theorem stamp_upc (m : Option Phase) (s : State) :
    (stamp m s).upc = s.upc := by cases m <;> rfl
@[simp] theorem stamp_phase (m : Option Phase) (s : State) :
    (stamp m s).phase = m.getD s.phase := by cases m <;> rfl
@[simp] theorem stamp_result (m : Option Phase) (s : State) :
    (stamp m s).result = s.result := by cases m <;> rfl
@[simp] theorem stamp_value (m : Option Phase) (s : State) :
    (stamp m s).value = s.value := by cases m <;> rfl
@[simp] theorem stamp_sessOpen (m : Option Phase) (s : State) :
    (stamp m s).sessOpen = s.sessOpen := by cases m <;> rfl
@[simp] theorem stamp_sessFault (m : Option Phase) (s : State) :
    (stamp m s).sessFault = s.sessFault := by cases m <;> rfl
@[simp] theorem stamp_sessStep (m : Option Phase) (s : State) :
    (stamp m s).sessStep = s.sessStep := by cases m <;> rfl
@[simp] theorem stamp_rx (m : Option Phase) (s : State) :
    (stamp m s).rx = s.rx := by cases m <;> rfl
@[simp] theorem stamp_peerSclLow (m : Option Phase) (s : State) :
    (stamp m s).peerSclLow = s.peerSclLow := by cases m <;> rfl
@[simp] theorem stamp_peerSdaLow (m : Option Phase) (s : State) :
    (stamp m s).peerSdaLow = s.peerSdaLow := by cases m <;> rfl
@[simp] theorem stamp_refused (m : Option Phase) (s : State) :
    (stamp m s).refused = s.refused := by cases m <;> rfl
@[simp] theorem stamp_trace (m : Option Phase) (s : State) :
    (stamp m s).trace = s.trace := by cases m <;> rfl
@[simp] theorem stamp_cmds (m : Option Phase) (s : State) :
    (stamp m s).cmds = s.cmds := by cases m <;> rfl
@[simp] theorem stamp_peer (m : Option Phase) (s : State) :
    (stamp m s).peer = s.peer := by cases m <;> rfl

/-! ## An operation's return leaves all but RESULT, VALUE, PHASE and UPC -/

@[simp] theorem returnOp_cfg (k : Kont) (r : FaultCode) (g : Option Byte) (s : State) :
    (returnOp k r g s).cfg = s.cfg := by cases k <;> rfl
@[simp] theorem returnOp_sclDrv (k : Kont) (r : FaultCode) (g : Option Byte) (s : State) :
    (returnOp k r g s).sclDrv = s.sclDrv := by cases k <;> rfl
@[simp] theorem returnOp_sdaForce (k : Kont) (r : FaultCode) (g : Option Byte) (s : State) :
    (returnOp k r g s).sdaForce = s.sdaForce := by cases k <;> rfl
@[simp] theorem returnOp_sdaDir (k : Kont) (r : FaultCode) (g : Option Byte) (s : State) :
    (returnOp k r g s).sdaDir = s.sdaDir := by cases k <;> rfl
@[simp] theorem returnOp_shreg (k : Kont) (r : FaultCode) (g : Option Byte) (s : State) :
    (returnOp k r g s).shreg = s.shreg := by cases k <;> rfl
@[simp] theorem returnOp_startDet (k : Kont) (r : FaultCode) (g : Option Byte) (s : State) :
    (returnOp k r g s).startDet = s.startDet := by cases k <;> rfl
@[simp] theorem returnOp_stopDet (k : Kont) (r : FaultCode) (g : Option Byte) (s : State) :
    (returnOp k r g s).stopDet = s.stopDet := by cases k <;> rfl
@[simp] theorem returnOp_latch (k : Kont) (r : FaultCode) (g : Option Byte) (s : State) :
    (returnOp k r g s).latch = s.latch := by cases k <;> rfl
@[simp] theorem returnOp_cnt (k : Kont) (r : FaultCode) (g : Option Byte) (s : State) :
    (returnOp k r g s).cnt = s.cnt := by cases k <;> rfl
@[simp] theorem returnOp_pollk (k : Kont) (r : FaultCode) (g : Option Byte) (s : State) :
    (returnOp k r g s).pollk = s.pollk := by cases k <;> rfl
@[simp] theorem returnOp_sessOpen (k : Kont) (r : FaultCode) (g : Option Byte) (s : State) :
    (returnOp k r g s).sessOpen = s.sessOpen := by cases k <;> rfl
@[simp] theorem returnOp_sessFault (k : Kont) (r : FaultCode) (g : Option Byte) (s : State) :
    (returnOp k r g s).sessFault = s.sessFault := by cases k <;> rfl
@[simp] theorem returnOp_sessStep (k : Kont) (r : FaultCode) (g : Option Byte) (s : State) :
    (returnOp k r g s).sessStep = s.sessStep := by cases k <;> rfl
@[simp] theorem returnOp_rx (k : Kont) (r : FaultCode) (g : Option Byte) (s : State) :
    (returnOp k r g s).rx = s.rx := by cases k <;> rfl
@[simp] theorem returnOp_peerSclLow (k : Kont) (r : FaultCode) (g : Option Byte) (s : State) :
    (returnOp k r g s).peerSclLow = s.peerSclLow := by cases k <;> rfl
@[simp] theorem returnOp_peerSdaLow (k : Kont) (r : FaultCode) (g : Option Byte) (s : State) :
    (returnOp k r g s).peerSdaLow = s.peerSdaLow := by cases k <;> rfl
@[simp] theorem returnOp_refused (k : Kont) (r : FaultCode) (g : Option Byte) (s : State) :
    (returnOp k r g s).refused = s.refused := by cases k <;> rfl
@[simp] theorem returnOp_trace (k : Kont) (r : FaultCode) (g : Option Byte) (s : State) :
    (returnOp k r g s).trace = s.trace := by cases k <;> rfl
@[simp] theorem returnOp_cmds (k : Kont) (r : FaultCode) (g : Option Byte) (s : State) :
    (returnOp k r g s).cmds = s.cmds := by cases k <;> rfl
@[simp] theorem returnOp_peer (k : Kont) (r : FaultCode) (g : Option Byte) (s : State) :
    (returnOp k r g s).peer = s.peer := by cases k <;> rfl

/-! ## Going on leaves all but RESULT, VALUE, PHASE and UPC -/

@[simp] theorem proceed_cfg (k : Kont) (ws : List Work) (g : Option Byte) (s : State) :
    (proceed k ws g s).cfg = s.cfg := by cases ws <;> simp [proceed]
@[simp] theorem proceed_sclDrv (k : Kont) (ws : List Work) (g : Option Byte) (s : State) :
    (proceed k ws g s).sclDrv = s.sclDrv := by cases ws <;> simp [proceed]
@[simp] theorem proceed_sdaForce (k : Kont) (ws : List Work) (g : Option Byte) (s : State) :
    (proceed k ws g s).sdaForce = s.sdaForce := by cases ws <;> simp [proceed]
@[simp] theorem proceed_sdaDir (k : Kont) (ws : List Work) (g : Option Byte) (s : State) :
    (proceed k ws g s).sdaDir = s.sdaDir := by cases ws <;> simp [proceed]
@[simp] theorem proceed_shreg (k : Kont) (ws : List Work) (g : Option Byte) (s : State) :
    (proceed k ws g s).shreg = s.shreg := by cases ws <;> simp [proceed]
@[simp] theorem proceed_startDet (k : Kont) (ws : List Work) (g : Option Byte) (s : State) :
    (proceed k ws g s).startDet = s.startDet := by cases ws <;> simp [proceed]
@[simp] theorem proceed_stopDet (k : Kont) (ws : List Work) (g : Option Byte) (s : State) :
    (proceed k ws g s).stopDet = s.stopDet := by cases ws <;> simp [proceed]
@[simp] theorem proceed_latch (k : Kont) (ws : List Work) (g : Option Byte) (s : State) :
    (proceed k ws g s).latch = s.latch := by cases ws <;> simp [proceed]
@[simp] theorem proceed_cnt (k : Kont) (ws : List Work) (g : Option Byte) (s : State) :
    (proceed k ws g s).cnt = s.cnt := by cases ws <;> simp [proceed]
@[simp] theorem proceed_pollk (k : Kont) (ws : List Work) (g : Option Byte) (s : State) :
    (proceed k ws g s).pollk = s.pollk := by cases ws <;> simp [proceed]
@[simp] theorem proceed_sessOpen (k : Kont) (ws : List Work) (g : Option Byte) (s : State) :
    (proceed k ws g s).sessOpen = s.sessOpen := by cases ws <;> simp [proceed]
@[simp] theorem proceed_sessFault (k : Kont) (ws : List Work) (g : Option Byte) (s : State) :
    (proceed k ws g s).sessFault = s.sessFault := by cases ws <;> simp [proceed]
@[simp] theorem proceed_sessStep (k : Kont) (ws : List Work) (g : Option Byte) (s : State) :
    (proceed k ws g s).sessStep = s.sessStep := by cases ws <;> simp [proceed]
@[simp] theorem proceed_rx (k : Kont) (ws : List Work) (g : Option Byte) (s : State) :
    (proceed k ws g s).rx = s.rx := by cases ws <;> simp [proceed]
@[simp] theorem proceed_peerSclLow (k : Kont) (ws : List Work) (g : Option Byte) (s : State) :
    (proceed k ws g s).peerSclLow = s.peerSclLow := by cases ws <;> simp [proceed]
@[simp] theorem proceed_peerSdaLow (k : Kont) (ws : List Work) (g : Option Byte) (s : State) :
    (proceed k ws g s).peerSdaLow = s.peerSdaLow := by cases ws <;> simp [proceed]
@[simp] theorem proceed_refused (k : Kont) (ws : List Work) (g : Option Byte) (s : State) :
    (proceed k ws g s).refused = s.refused := by cases ws <;> simp [proceed]
@[simp] theorem proceed_trace (k : Kont) (ws : List Work) (g : Option Byte) (s : State) :
    (proceed k ws g s).trace = s.trace := by cases ws <;> simp [proceed]
@[simp] theorem proceed_cmds (k : Kont) (ws : List Work) (g : Option Byte) (s : State) :
    (proceed k ws g s).cmds = s.cmds := by cases ws <;> simp [proceed]
@[simp] theorem proceed_peer (k : Kont) (ws : List Work) (g : Option Byte) (s : State) :
    (proceed k ws g s).peer = s.peer := by cases ws <;> simp [proceed]

/-! ## The loop of S_SEND_REPEATED leaves all but those four -/

@[simp] theorem repeatLoop_cfg (n : Nat) (b : Byte) (s : State) :
    (repeatLoop n b s).cfg = s.cfg := by unfold repeatLoop; split <;> simp
@[simp] theorem repeatLoop_sclDrv (n : Nat) (b : Byte) (s : State) :
    (repeatLoop n b s).sclDrv = s.sclDrv := by unfold repeatLoop; split <;> simp
@[simp] theorem repeatLoop_sdaForce (n : Nat) (b : Byte) (s : State) :
    (repeatLoop n b s).sdaForce = s.sdaForce := by unfold repeatLoop; split <;> simp
@[simp] theorem repeatLoop_sdaDir (n : Nat) (b : Byte) (s : State) :
    (repeatLoop n b s).sdaDir = s.sdaDir := by unfold repeatLoop; split <;> simp
@[simp] theorem repeatLoop_shreg (n : Nat) (b : Byte) (s : State) :
    (repeatLoop n b s).shreg = s.shreg := by unfold repeatLoop; split <;> simp
@[simp] theorem repeatLoop_startDet (n : Nat) (b : Byte) (s : State) :
    (repeatLoop n b s).startDet = s.startDet := by unfold repeatLoop; split <;> simp
@[simp] theorem repeatLoop_stopDet (n : Nat) (b : Byte) (s : State) :
    (repeatLoop n b s).stopDet = s.stopDet := by unfold repeatLoop; split <;> simp
@[simp] theorem repeatLoop_latch (n : Nat) (b : Byte) (s : State) :
    (repeatLoop n b s).latch = s.latch := by unfold repeatLoop; split <;> simp
@[simp] theorem repeatLoop_cnt (n : Nat) (b : Byte) (s : State) :
    (repeatLoop n b s).cnt = s.cnt := by unfold repeatLoop; split <;> simp
@[simp] theorem repeatLoop_pollk (n : Nat) (b : Byte) (s : State) :
    (repeatLoop n b s).pollk = s.pollk := by unfold repeatLoop; split <;> simp
@[simp] theorem repeatLoop_sessOpen (n : Nat) (b : Byte) (s : State) :
    (repeatLoop n b s).sessOpen = s.sessOpen := by unfold repeatLoop; split <;> simp
@[simp] theorem repeatLoop_sessFault (n : Nat) (b : Byte) (s : State) :
    (repeatLoop n b s).sessFault = s.sessFault := by unfold repeatLoop; split <;> simp
@[simp] theorem repeatLoop_sessStep (n : Nat) (b : Byte) (s : State) :
    (repeatLoop n b s).sessStep = s.sessStep := by unfold repeatLoop; split <;> simp
@[simp] theorem repeatLoop_rx (n : Nat) (b : Byte) (s : State) :
    (repeatLoop n b s).rx = s.rx := by unfold repeatLoop; split <;> simp
@[simp] theorem repeatLoop_peerSclLow (n : Nat) (b : Byte) (s : State) :
    (repeatLoop n b s).peerSclLow = s.peerSclLow := by unfold repeatLoop; split <;> simp
@[simp] theorem repeatLoop_peerSdaLow (n : Nat) (b : Byte) (s : State) :
    (repeatLoop n b s).peerSdaLow = s.peerSdaLow := by unfold repeatLoop; split <;> simp
@[simp] theorem repeatLoop_refused (n : Nat) (b : Byte) (s : State) :
    (repeatLoop n b s).refused = s.refused := by unfold repeatLoop; split <;> simp
@[simp] theorem repeatLoop_trace (n : Nat) (b : Byte) (s : State) :
    (repeatLoop n b s).trace = s.trace := by unfold repeatLoop; split <;> simp
@[simp] theorem repeatLoop_cmds (n : Nat) (b : Byte) (s : State) :
    (repeatLoop n b s).cmds = s.cmds := by unfold repeatLoop; split <;> simp
@[simp] theorem repeatLoop_peer (n : Nat) (b : Byte) (s : State) :
    (repeatLoop n b s).peer = s.peer := by unfold repeatLoop; split <;> simp

/-! ## What follows a μSESS leaves all but those four -/

@[simp] theorem sessEnd_cfg (e : SessEnd) (s : State) :
    (sessEnd e s).cfg = s.cfg := by cases e <;> simp [sessEnd]
@[simp] theorem sessEnd_sclDrv (e : SessEnd) (s : State) :
    (sessEnd e s).sclDrv = s.sclDrv := by cases e <;> simp [sessEnd]
@[simp] theorem sessEnd_sdaForce (e : SessEnd) (s : State) :
    (sessEnd e s).sdaForce = s.sdaForce := by cases e <;> simp [sessEnd]
@[simp] theorem sessEnd_sdaDir (e : SessEnd) (s : State) :
    (sessEnd e s).sdaDir = s.sdaDir := by cases e <;> simp [sessEnd]
@[simp] theorem sessEnd_shreg (e : SessEnd) (s : State) :
    (sessEnd e s).shreg = s.shreg := by cases e <;> simp [sessEnd]
@[simp] theorem sessEnd_startDet (e : SessEnd) (s : State) :
    (sessEnd e s).startDet = s.startDet := by cases e <;> simp [sessEnd]
@[simp] theorem sessEnd_stopDet (e : SessEnd) (s : State) :
    (sessEnd e s).stopDet = s.stopDet := by cases e <;> simp [sessEnd]
@[simp] theorem sessEnd_latch (e : SessEnd) (s : State) :
    (sessEnd e s).latch = s.latch := by cases e <;> simp [sessEnd]
@[simp] theorem sessEnd_cnt (e : SessEnd) (s : State) :
    (sessEnd e s).cnt = s.cnt := by cases e <;> simp [sessEnd]
@[simp] theorem sessEnd_pollk (e : SessEnd) (s : State) :
    (sessEnd e s).pollk = s.pollk := by cases e <;> simp [sessEnd]
@[simp] theorem sessEnd_sessOpen (e : SessEnd) (s : State) :
    (sessEnd e s).sessOpen = s.sessOpen := by cases e <;> simp [sessEnd]
@[simp] theorem sessEnd_sessFault (e : SessEnd) (s : State) :
    (sessEnd e s).sessFault = s.sessFault := by cases e <;> simp [sessEnd]
@[simp] theorem sessEnd_sessStep (e : SessEnd) (s : State) :
    (sessEnd e s).sessStep = s.sessStep := by cases e <;> simp [sessEnd]
@[simp] theorem sessEnd_rx (e : SessEnd) (s : State) :
    (sessEnd e s).rx = s.rx := by cases e <;> simp [sessEnd]
@[simp] theorem sessEnd_peerSclLow (e : SessEnd) (s : State) :
    (sessEnd e s).peerSclLow = s.peerSclLow := by cases e <;> simp [sessEnd]
@[simp] theorem sessEnd_peerSdaLow (e : SessEnd) (s : State) :
    (sessEnd e s).peerSdaLow = s.peerSdaLow := by cases e <;> simp [sessEnd]
@[simp] theorem sessEnd_refused (e : SessEnd) (s : State) :
    (sessEnd e s).refused = s.refused := by cases e <;> simp [sessEnd]
@[simp] theorem sessEnd_trace (e : SessEnd) (s : State) :
    (sessEnd e s).trace = s.trace := by cases e <;> simp [sessEnd]
@[simp] theorem sessEnd_cmds (e : SessEnd) (s : State) :
    (sessEnd e s).cmds = s.cmds := by cases e <;> simp [sessEnd]
@[simp] theorem sessEnd_peer (e : SessEnd) (s : State) :
    (sessEnd e s).peer = s.peer := by cases e <;> simp [sessEnd]

/-! ## One assignment of a μSESS leaves all but the session registers -/

@[simp] theorem sessWrite_cfg (a : SessAssign) (s : State) :
    (SessAssign.write a s).cfg = s.cfg := by cases a <;> rfl
@[simp] theorem sessWrite_sclDrv (a : SessAssign) (s : State) :
    (SessAssign.write a s).sclDrv = s.sclDrv := by cases a <;> rfl
@[simp] theorem sessWrite_sdaForce (a : SessAssign) (s : State) :
    (SessAssign.write a s).sdaForce = s.sdaForce := by cases a <;> rfl
@[simp] theorem sessWrite_sdaDir (a : SessAssign) (s : State) :
    (SessAssign.write a s).sdaDir = s.sdaDir := by cases a <;> rfl
@[simp] theorem sessWrite_shreg (a : SessAssign) (s : State) :
    (SessAssign.write a s).shreg = s.shreg := by cases a <;> rfl
@[simp] theorem sessWrite_startDet (a : SessAssign) (s : State) :
    (SessAssign.write a s).startDet = s.startDet := by cases a <;> rfl
@[simp] theorem sessWrite_stopDet (a : SessAssign) (s : State) :
    (SessAssign.write a s).stopDet = s.stopDet := by cases a <;> rfl
@[simp] theorem sessWrite_latch (a : SessAssign) (s : State) :
    (SessAssign.write a s).latch = s.latch := by cases a <;> rfl
@[simp] theorem sessWrite_cnt (a : SessAssign) (s : State) :
    (SessAssign.write a s).cnt = s.cnt := by cases a <;> rfl
@[simp] theorem sessWrite_pollk (a : SessAssign) (s : State) :
    (SessAssign.write a s).pollk = s.pollk := by cases a <;> rfl
@[simp] theorem sessWrite_upc (a : SessAssign) (s : State) :
    (SessAssign.write a s).upc = s.upc := by cases a <;> rfl
@[simp] theorem sessWrite_phase (a : SessAssign) (s : State) :
    (SessAssign.write a s).phase = s.phase := by cases a <;> rfl
@[simp] theorem sessWrite_result (a : SessAssign) (s : State) :
    (SessAssign.write a s).result = s.result := by cases a <;> rfl
@[simp] theorem sessWrite_value (a : SessAssign) (s : State) :
    (SessAssign.write a s).value = s.value := by cases a <;> rfl
@[simp] theorem sessWrite_rx (a : SessAssign) (s : State) :
    (SessAssign.write a s).rx = s.rx := by cases a <;> rfl
@[simp] theorem sessWrite_peerSclLow (a : SessAssign) (s : State) :
    (SessAssign.write a s).peerSclLow = s.peerSclLow := by cases a <;> rfl
@[simp] theorem sessWrite_peerSdaLow (a : SessAssign) (s : State) :
    (SessAssign.write a s).peerSdaLow = s.peerSdaLow := by cases a <;> rfl
@[simp] theorem sessWrite_refused (a : SessAssign) (s : State) :
    (SessAssign.write a s).refused = s.refused := by cases a <;> rfl
@[simp] theorem sessWrite_trace (a : SessAssign) (s : State) :
    (SessAssign.write a s).trace = s.trace := by cases a <;> rfl
@[simp] theorem sessWrite_cmds (a : SessAssign) (s : State) :
    (SessAssign.write a s).cmds = s.cmds := by cases a <;> rfl
@[simp] theorem sessWrite_peer (a : SessAssign) (s : State) :
    (SessAssign.write a s).peer = s.peer := by cases a <;> rfl

/-! ## A μSESS leaves all but the session registers -/

@[simp] theorem writeAll_cfg (as : List SessAssign) (s : State) :
    (writeAll as s).cfg = s.cfg := by
  induction as generalizing s with
  | nil => rfl
  | cons a as ih => exact (ih _).trans (by simp)
@[simp] theorem writeAll_sclDrv (as : List SessAssign) (s : State) :
    (writeAll as s).sclDrv = s.sclDrv := by
  induction as generalizing s with
  | nil => rfl
  | cons a as ih => exact (ih _).trans (by simp)
@[simp] theorem writeAll_sdaForce (as : List SessAssign) (s : State) :
    (writeAll as s).sdaForce = s.sdaForce := by
  induction as generalizing s with
  | nil => rfl
  | cons a as ih => exact (ih _).trans (by simp)
@[simp] theorem writeAll_sdaDir (as : List SessAssign) (s : State) :
    (writeAll as s).sdaDir = s.sdaDir := by
  induction as generalizing s with
  | nil => rfl
  | cons a as ih => exact (ih _).trans (by simp)
@[simp] theorem writeAll_shreg (as : List SessAssign) (s : State) :
    (writeAll as s).shreg = s.shreg := by
  induction as generalizing s with
  | nil => rfl
  | cons a as ih => exact (ih _).trans (by simp)
@[simp] theorem writeAll_startDet (as : List SessAssign) (s : State) :
    (writeAll as s).startDet = s.startDet := by
  induction as generalizing s with
  | nil => rfl
  | cons a as ih => exact (ih _).trans (by simp)
@[simp] theorem writeAll_stopDet (as : List SessAssign) (s : State) :
    (writeAll as s).stopDet = s.stopDet := by
  induction as generalizing s with
  | nil => rfl
  | cons a as ih => exact (ih _).trans (by simp)
@[simp] theorem writeAll_latch (as : List SessAssign) (s : State) :
    (writeAll as s).latch = s.latch := by
  induction as generalizing s with
  | nil => rfl
  | cons a as ih => exact (ih _).trans (by simp)
@[simp] theorem writeAll_cnt (as : List SessAssign) (s : State) :
    (writeAll as s).cnt = s.cnt := by
  induction as generalizing s with
  | nil => rfl
  | cons a as ih => exact (ih _).trans (by simp)
@[simp] theorem writeAll_pollk (as : List SessAssign) (s : State) :
    (writeAll as s).pollk = s.pollk := by
  induction as generalizing s with
  | nil => rfl
  | cons a as ih => exact (ih _).trans (by simp)
@[simp] theorem writeAll_upc (as : List SessAssign) (s : State) :
    (writeAll as s).upc = s.upc := by
  induction as generalizing s with
  | nil => rfl
  | cons a as ih => exact (ih _).trans (by simp)
@[simp] theorem writeAll_phase (as : List SessAssign) (s : State) :
    (writeAll as s).phase = s.phase := by
  induction as generalizing s with
  | nil => rfl
  | cons a as ih => exact (ih _).trans (by simp)
@[simp] theorem writeAll_result (as : List SessAssign) (s : State) :
    (writeAll as s).result = s.result := by
  induction as generalizing s with
  | nil => rfl
  | cons a as ih => exact (ih _).trans (by simp)
@[simp] theorem writeAll_value (as : List SessAssign) (s : State) :
    (writeAll as s).value = s.value := by
  induction as generalizing s with
  | nil => rfl
  | cons a as ih => exact (ih _).trans (by simp)
@[simp] theorem writeAll_rx (as : List SessAssign) (s : State) :
    (writeAll as s).rx = s.rx := by
  induction as generalizing s with
  | nil => rfl
  | cons a as ih => exact (ih _).trans (by simp)
@[simp] theorem writeAll_peerSclLow (as : List SessAssign) (s : State) :
    (writeAll as s).peerSclLow = s.peerSclLow := by
  induction as generalizing s with
  | nil => rfl
  | cons a as ih => exact (ih _).trans (by simp)
@[simp] theorem writeAll_peerSdaLow (as : List SessAssign) (s : State) :
    (writeAll as s).peerSdaLow = s.peerSdaLow := by
  induction as generalizing s with
  | nil => rfl
  | cons a as ih => exact (ih _).trans (by simp)
@[simp] theorem writeAll_refused (as : List SessAssign) (s : State) :
    (writeAll as s).refused = s.refused := by
  induction as generalizing s with
  | nil => rfl
  | cons a as ih => exact (ih _).trans (by simp)
@[simp] theorem writeAll_trace (as : List SessAssign) (s : State) :
    (writeAll as s).trace = s.trace := by
  induction as generalizing s with
  | nil => rfl
  | cons a as ih => exact (ih _).trans (by simp)
@[simp] theorem writeAll_cmds (as : List SessAssign) (s : State) :
    (writeAll as s).cmds = s.cmds := by
  induction as generalizing s with
  | nil => rfl
  | cons a as ih => exact (ih _).trans (by simp)
@[simp] theorem writeAll_peer (as : List SessAssign) (s : State) :
    (writeAll as s).peer = s.peer := by
  induction as generalizing s with
  | nil => rfl
  | cons a as ih => exact (ih _).trans (by simp)

/-! ## A micro-step's own writes leave these fields alone (rule R169) -/

@[simp] theorem opWrite_cfg (op : MicroOp) (s : State) :
    (MicroOp.write op s).cfg = s.cfg := by cases op <;> rfl
@[simp] theorem opWrite_latch (op : MicroOp) (s : State) :
    (MicroOp.write op s).latch = s.latch := by cases op <;> rfl
@[simp] theorem opWrite_upc (op : MicroOp) (s : State) :
    (MicroOp.write op s).upc = s.upc := by cases op <;> rfl
@[simp] theorem opWrite_phase (op : MicroOp) (s : State) :
    (MicroOp.write op s).phase = s.phase := by cases op <;> rfl
@[simp] theorem opWrite_result (op : MicroOp) (s : State) :
    (MicroOp.write op s).result = s.result := by cases op <;> rfl
@[simp] theorem opWrite_value (op : MicroOp) (s : State) :
    (MicroOp.write op s).value = s.value := by cases op <;> rfl
@[simp] theorem opWrite_sessOpen (op : MicroOp) (s : State) :
    (MicroOp.write op s).sessOpen = s.sessOpen := by cases op <;> rfl
@[simp] theorem opWrite_sessFault (op : MicroOp) (s : State) :
    (MicroOp.write op s).sessFault = s.sessFault := by cases op <;> rfl
@[simp] theorem opWrite_sessStep (op : MicroOp) (s : State) :
    (MicroOp.write op s).sessStep = s.sessStep := by cases op <;> rfl
@[simp] theorem opWrite_peerSclLow (op : MicroOp) (s : State) :
    (MicroOp.write op s).peerSclLow = s.peerSclLow := by cases op <;> rfl
@[simp] theorem opWrite_peerSdaLow (op : MicroOp) (s : State) :
    (MicroOp.write op s).peerSdaLow = s.peerSdaLow := by cases op <;> rfl
@[simp] theorem opWrite_refused (op : MicroOp) (s : State) :
    (MicroOp.write op s).refused = s.refused := by cases op <;> rfl
@[simp] theorem opWrite_trace (op : MicroOp) (s : State) :
    (MicroOp.write op s).trace = s.trace := by cases op <;> rfl
@[simp] theorem opWrite_cmds (op : MicroOp) (s : State) :
    (MicroOp.write op s).cmds = s.cmds := by cases op <;> rfl
@[simp] theorem opWrite_peer (op : MicroOp) (s : State) :
    (MicroOp.write op s).peer = s.peer := by cases op <;> rfl

/-! ## A Peer step leaves all but its driver, the detector, the latch and TRACE (rule R166) -/

@[simp] theorem peerStep_cfg (m : PeerMove) (s : State) :
    (peerStep m s).cfg = s.cfg := by cases m <;> rfl
@[simp] theorem peerStep_sclDrv (m : PeerMove) (s : State) :
    (peerStep m s).sclDrv = s.sclDrv := by cases m <;> rfl
@[simp] theorem peerStep_sdaForce (m : PeerMove) (s : State) :
    (peerStep m s).sdaForce = s.sdaForce := by cases m <;> rfl
@[simp] theorem peerStep_sdaDir (m : PeerMove) (s : State) :
    (peerStep m s).sdaDir = s.sdaDir := by cases m <;> rfl
@[simp] theorem peerStep_shreg (m : PeerMove) (s : State) :
    (peerStep m s).shreg = s.shreg := by cases m <;> rfl
@[simp] theorem peerStep_cnt (m : PeerMove) (s : State) :
    (peerStep m s).cnt = s.cnt := by cases m <;> rfl
@[simp] theorem peerStep_pollk (m : PeerMove) (s : State) :
    (peerStep m s).pollk = s.pollk := by cases m <;> rfl
@[simp] theorem peerStep_upc (m : PeerMove) (s : State) :
    (peerStep m s).upc = s.upc := by cases m <;> rfl
@[simp] theorem peerStep_phase (m : PeerMove) (s : State) :
    (peerStep m s).phase = s.phase := by cases m <;> rfl
@[simp] theorem peerStep_result (m : PeerMove) (s : State) :
    (peerStep m s).result = s.result := by cases m <;> rfl
@[simp] theorem peerStep_value (m : PeerMove) (s : State) :
    (peerStep m s).value = s.value := by cases m <;> rfl
@[simp] theorem peerStep_sessOpen (m : PeerMove) (s : State) :
    (peerStep m s).sessOpen = s.sessOpen := by cases m <;> rfl
@[simp] theorem peerStep_sessFault (m : PeerMove) (s : State) :
    (peerStep m s).sessFault = s.sessFault := by cases m <;> rfl
@[simp] theorem peerStep_sessStep (m : PeerMove) (s : State) :
    (peerStep m s).sessStep = s.sessStep := by cases m <;> rfl
@[simp] theorem peerStep_rx (m : PeerMove) (s : State) :
    (peerStep m s).rx = s.rx := by cases m <;> rfl
@[simp] theorem peerStep_refused (m : PeerMove) (s : State) :
    (peerStep m s).refused = s.refused := by cases m <;> rfl
@[simp] theorem peerStep_cmds (m : PeerMove) (s : State) :
    (peerStep m s).cmds = s.cmds := by cases m <;> rfl
@[simp] theorem peerStep_peer (m : PeerMove) (s : State) :
    (peerStep m s).peer = s.peer := by cases m <;> rfl

end Sys2Proof.Machine
end

