-- ==== Sys2Proof/Laws/Run.lean ====
section
/-! SUPPORT. What one atomic step can do to a run's length, and what follows of `run`: it ends with UPC = none
whatever the Peer does, it is the iteration of `tick`, and an induction over its steps. -/

namespace Sys2Proof.Machine

/-! ## The bound on a command's micro-steps -/

theorem pollBound_pos (cfg : Config) : 1 ≤ pollBound cfg := Nat.succ_pos _

theorem workCost_append (p : Nat) (xs ys : List Work) :
    workCost p (xs ++ ys) = workCost p xs + workCost p ys := by
  induction xs with
  | nil => simp [workCost]
  | cons x xs ih => simp [workCost, ih, Nat.add_assoc]

theorem engineBudget_returnOp (k : Kont) (r : FaultCode) (g : Option Byte) (s : State) :
    engineBudget (returnOp k r g s) = k.cost (pollBound s.cfg) := by
  cases k <;> simp [returnOp, engineBudget, Kont.cost, finish]

theorem engineBudget_proceed (k : Kont) (ws : List Work) (g : Option Byte) (s : State) :
    engineBudget (proceed k ws g s) =
      opBudget (pollBound s.cfg) s.pollk s.cnt ws + k.cost (pollBound s.cfg) := by
  cases ws with
  | nil => simp [proceed, engineBudget_returnOp, opBudget, workCost, pollDue, shiftDue]
  | cons w rest => simp [proceed, engineBudget]

theorem opBudget_transmitProg (p a c : Nat) (ph : TxPhase) (b : Byte) (m : Option Phase) :
    opBudget p a c (transmitProg ph b m) = 9 * p + 55 := by
  simp [opBudget, transmitProg, bitTransferProg, pulseProg, plain, workCost, pollDue, shiftDue,
    MicroOp.cost, pulseCost, pulses]
  omega

theorem engineBudget_repeatLoop (n : Nat) (b : Byte) (s : State) :
    engineBudget (repeatLoop n b s) ≤ 1 + n * sessSendCost (pollBound s.cfg) := by
  unfold repeatLoop
  split
  · rw [engineBudget_proceed, opBudget_transmitProg]
    simp only [Kont.cost, sessSendCost]
    rename_i n _
    have : (n + 1) * (9 * pollBound s.cfg + 56) =
        n * (9 * pollBound s.cfg + 56) + (9 * pollBound s.cfg + 56) := Nat.succ_mul _ _
    simp only [Nat.succ_eq_add_one]
    omega
  · simp [engineBudget]

/-- A micro-step that goes on lowers the bound. -/
theorem opBudget_next {op : MicroOp} {s : State} {rest : List Work} {g : Option Byte} (m : Option Phase)
    (h : op.flow s = .next g) :
    opBudget (pollBound s.cfg) (op.write s).pollk (op.write s).cnt rest + 1 ≤
      opBudget (pollBound s.cfg) s.pollk s.cnt ({ op := op, mark := m } :: rest) := by
  have hp := pollBound_pos s.cfg
  cases op with
  | sclRel =>
    simp only [opBudget, workCost, pollDue, shiftDue, MicroOp.cost, MicroOp.write,
      cond_false]
    cases pollDue rest <;> cases shiftDue rest <;> simp <;> omega
  | beginBits n =>
    simp only [opBudget, workCost, pollDue, shiftDue, MicroOp.cost, MicroOp.write,
      cond_false]
    generalize (pulses n - 1) * pulseCost (pollBound s.cfg) = x
    cases pollDue rest <;> cases shiftDue rest <;> simp <;> omega
  | shift =>
    simp only [MicroOp.flow] at h
    split at h
    · rename_i h0
      simp only [opBudget, workCost, pollDue, shiftDue, MicroOp.cost, MicroOp.write, h0, cond_true]
      cases pollDue rest <;> cases shiftDue rest <;> simp
    · cases h
  | readScl =>
    simp only [opBudget, workCost, pollDue, shiftDue, MicroOp.cost, MicroOp.write, cond_true]
    cases pollDue rest <;> cases shiftDue rest <;> cases s.scl <;> simp <;> omega
  | preset use =>
    cases use <;>
      simp only [opBudget, workCost, pollDue, shiftDue, MicroOp.cost, MicroOp.write] <;> omega
  | _ => simp only [opBudget, workCost, pollDue, shiftDue, MicroOp.cost, MicroOp.write]; omega

theorem Flow.ofCode_ne_again (r : FaultCode) (ws : List Work) : Flow.ofCode r ≠ .again ws := by
  unfold Flow.ofCode; split <;> simp

theorem workCost_receiveByteProg (p : Nat) (i n : Half) (m : Option Phase) :
    workCost p (receiveByteProg i n m) =
      receiveByteCost p + (n.toNat - (i.toNat + 1)) * receiveByteCost p := by
  simp only [receiveByteProg, bitTransferProg, pulseProg, plain, workCost,
    MicroOp.cost, List.cons_append, List.nil_append, pulses, pulseCost, receiveByteCost]
  omega

theorem pollDue_receiveByteProg (i n : Half) (m : Option Phase) (rest : List Work) :
    pollDue (receiveByteProg i n m ++ rest) = false := rfl

theorem shiftDue_receiveByteProg (i n : Half) (m : Option Phase) (rest : List Work) :
    shiftDue (receiveByteProg i n m ++ rest) = false := rfl

/-- A micro-step that puts more in front of the rest lowers the bound. -/
theorem opBudget_again {op : MicroOp} {s : State} {rest more : List Work} (m : Option Phase)
    (h : op.flow s = .again more) :
    opBudget (pollBound s.cfg) (op.write s).pollk (op.write s).cnt (more ++ rest) + 1 ≤
      opBudget (pollBound s.cfg) s.pollk s.cnt ({ op := op, mark := m } :: rest) := by
  cases op with
  | readScl =>
    simp only [MicroOp.flow] at h
    split at h
    · cases h
    · split at h
      · cases h
      · rename_i hl hb
        cases h
        simp [opBudget, workCost, pollDue, shiftDue, MicroOp.cost, MicroOp.write, hl, plain]
        omega
  | shift =>
    simp only [MicroOp.flow] at h
    split at h
    · cases h
    · rename_i h0
      cases h
      obtain ⟨c, hc⟩ : ∃ c, s.cnt = c + 2 := ⟨s.cnt - 2, by omega⟩
      simp [opBudget, workCost, pollDue, shiftDue, MicroOp.cost, MicroOp.write, pulseProg, plain,
        pulseCost, hc, Nat.succ_mul]
      omega
  | preset use =>
    cases use with
    | toRx i =>
      simp only [MicroOp.flow, PresetUse.flow] at h
      cases h
      simp [opBudget, workCost, pollDue, shiftDue, MicroOp.cost, MicroOp.write, plain]
    | ackSent i n =>
      simp only [MicroOp.flow, PresetUse.flow] at h
      split at h
      · rename_i hlt
        cases h
        have hi : (i + 1).toNat = i.toNat + 1 := by
          have := n.isLt
          rw [BitVec.toNat_add]
          simp
          omega
        obtain ⟨d, hd⟩ : ∃ d, n.toNat = i.toNat + 1 + 1 + d := ⟨n.toNat - (i.toNat + 2), by omega⟩
        have h1 : n.toNat - (i.toNat + 1) = d + 1 := by omega
        have h2 : n.toNat - ((i + 1).toNat + 1) = d := by omega
        simp only [opBudget, workCost_append, workCost_receiveByteProg, pollDue_receiveByteProg,
          shiftDue_receiveByteProg, workCost, pollDue, shiftDue, MicroOp.cost, MicroOp.write, h1, h2,
          cond_false, Nat.succ_mul, receiveByteCost]
        omega
      · cases h
    | ack ph => exact absurd h (Flow.ofCode_ne_again _ _)
    | _ => simp [MicroOp.flow, PresetUse.flow] at h
  | check c => exact absurd h (Flow.ofCode_ne_again _ _)
  | _ => simp [MicroOp.flow] at h

/-- Every micro-step stands for at least one. -/
theorem cost_pos {p : Nat} (hp : 1 ≤ p) (op : MicroOp) : 1 ≤ op.cost p := by
  cases op with
  | preset use => cases use <;> simp [MicroOp.cost]
  | _ => simp [MicroOp.cost, hp]

/-- Rule R366: an engine micro-step lowers the bound. -/
theorem engineBudget_engineStep {s : State} (h : s.upc ≠ none) :
    engineBudget (engineStep s) + 1 ≤ engineBudget s := by
  match hu : s.upc with
  | none => exact absurd hu h
  | some (.sess as (.finish op g)) =>
    simp [engineStep, hu, sessEnd, engineBudget]
  | some (.sess as (.again r left b)) =>
    have h1 := engineBudget_repeatLoop left b
      (stamp (some (nextPhase .send r (commit s (writeAll as s) (.sess as)).phase))
        (commit s (writeAll as s) (.sess as)))
    simp only [stamp_cfg, commit_cfg, writeAll_cfg] at h1
    have h2 : engineBudget s = 2 + left * sessSendCost (pollBound s.cfg) := by
      simp [engineBudget, hu]
    simp only [h2, engineStep, hu, sessEnd]
    omega
  | some (.op ⟨op, m⟩ rest k) =>
    have hb : engineBudget s =
        opBudget (pollBound s.cfg) s.pollk s.cnt (⟨op, m⟩ :: rest) + k.cost (pollBound s.cfg) := by
      simp [engineBudget, hu]
    rw [hb]
    simp only [engineStep, hu]
    split
    · rename_i g hf
      have := opBudget_next (rest := rest) m hf
      rw [engineBudget_proceed]
      simp only [stamp_cfg, stamp_pollk, stamp_cnt, commit_cfg, commit_pollk, commit_cnt, opWrite_cfg]
      omega
    · rename_i more hf
      have := opBudget_again (rest := rest) m hf
      rw [engineBudget_proceed]
      simp only [commit_cfg, commit_pollk, commit_cnt, opWrite_cfg]
      omega
    · rw [engineBudget_returnOp]
      have := cost_pos (pollBound_pos s.cfg) op
      simp only [commit_cfg, opWrite_cfg, opBudget, workCost]
      omega

/-- UPC = none exactly when nothing is left to make. -/
theorem engineBudget_eq_zero_iff (s : State) : engineBudget s = 0 ↔ s.upc = none := by
  constructor
  · intro h0
    by_contra hu
    have := engineBudget_engineStep hu
    omega
  · intro hu
    simp [engineBudget, hu]

/-! ## The atomic step -/

theorem engineBudget_peerStep (m : PeerMove) (s : State) :
    engineBudget (peerStep m s) = engineBudget s := by
  cases m <;> simp [engineBudget]

@[simp] theorem engineStep_cfg (s : State) : (engineStep s).cfg = s.cfg := by
  unfold engineStep; split <;> (try split) <;> simp

@[simp] theorem engineStep_peer (s : State) : (engineStep s).peer = s.peer := by
  unfold engineStep; split <;> (try split) <;> simp

@[simp] theorem engineStep_cmds (s : State) : (engineStep s).cmds = s.cmds := by
  unfold engineStep; split <;> (try split) <;> simp

@[simp] theorem engineStep_refused (s : State) : (engineStep s).refused = s.refused := by
  unfold engineStep; split <;> (try split) <;> simp

@[simp] theorem engineStep_peerSclLow (s : State) : (engineStep s).peerSclLow = s.peerSclLow := by
  unfold engineStep; split <;> (try split) <;> simp

@[simp] theorem engineStep_peerSdaLow (s : State) : (engineStep s).peerSdaLow = s.peerSdaLow := by
  unfold engineStep; split <;> (try split) <;> simp

/-- The two things a tick can be: an engine micro-step after the Peer's `pass` (or with no Peer move
left), or one Peer step. -/
theorem tick_cases (s : State) :
    (∃ ms, ms.length ≤ s.peer.length ∧ tick s = engineStep { s with peer := ms }) ∨
    (∃ m ms, s.peer = m :: ms ∧ m ≠ .pass ∧ tick s = peerStep m { s with peer := ms }) := by
  unfold tick
  split
  · exact .inl ⟨[], by simp, by cases s; simp_all⟩
  · rename_i ms h
    exact .inl ⟨ms, by simp [h], rfl⟩
  · rename_i m ms hm h
    exact .inr ⟨m, ms, h, by simpa using hm, rfl⟩

theorem tick_measure {s : State} (h : s.upc ≠ none) :
    (tick s).peer.length + engineBudget (tick s) + 1 ≤ s.peer.length + engineBudget s := by
  rcases tick_cases s with ⟨ms, hl, ht⟩ | ⟨m, ms, hp, -, ht⟩
  · have := engineBudget_engineStep (s := { s with peer := ms }) h
    rw [ht]
    simp only [engineStep_peer]
    simp only [engineBudget] at this ⊢
    omega
  · rw [ht, engineBudget_peerStep]
    simp only [peerStep_peer, engineBudget, hp, List.length_cons]
    omega

/-! ## Running a command to its end -/

theorem runFor_idle {n : Nat} {s : State} (h : s.peer.length + engineBudget s ≤ n) :
    (runFor n s).upc = none := by
  induction n generalizing s with
  | zero => exact (engineBudget_eq_zero_iff s).1 (by omega)
  | succ n ih =>
    unfold runFor
    split
    · simp_all
    · rename_i hu
      have := tick_measure (s := s) (by simpa using hu)
      exact ih (by omega)

/-- Rules R357 and R366: every command ends, whatever the Peer does. -/
theorem run_idle (s : State) : (run s).upc = none := runFor_idle (Nat.le_refl _)

theorem runFor_of_idle {s : State} (h : s.upc = none) (n : Nat) : runFor n s = s := by
  cases n <;> simp [runFor, h]

theorem run_of_idle {s : State} (h : s.upc = none) : run s = s := runFor_of_idle h _

/-- More fuel than a run needs changes nothing. -/
theorem runFor_enough {n m : Nat} {s : State} (hn : s.peer.length + engineBudget s ≤ n)
    (hm : s.peer.length + engineBudget s ≤ m) : runFor n s = runFor m s := by
  induction n generalizing s m with
  | zero =>
    have hu : s.upc = none := (engineBudget_eq_zero_iff s).1 (by omega)
    rw [runFor_of_idle hu, runFor_of_idle hu]
  | succ n ih =>
    by_cases hu : s.upc = none
    · rw [runFor_of_idle hu, runFor_of_idle hu]
    · have ht := tick_measure hu
      obtain ⟨m, rfl⟩ : ∃ m', m = m' + 1 := ⟨m - 1, by omega⟩
      have hs : s.upc.isNone = false := by cases h : s.upc <;> simp_all
      simp only [runFor, hs, Bool.false_eq_true, if_false]
      exact ih (by omega) (by omega)

/-- A command in flight runs on from its next atomic step: `run` is the iteration of `tick`. -/
theorem run_tick {s : State} (h : s.upc ≠ none) : run s = run (tick s) := by
  have ht := tick_measure h
  have hs : s.upc.isNone = false := by cases h' : s.upc <;> simp_all
  unfold run
  obtain ⟨m, hm⟩ : ∃ m, s.peer.length + engineBudget s = m + 1 :=
    ⟨s.peer.length + engineBudget s - 1, by omega⟩
  rw [hm]
  simp only [runFor, hs, Bool.false_eq_true, if_false]
  exact runFor_enough (by omega) (Nat.le_refl _)

/-- What every atomic step of a running command keeps, its run keeps. -/
theorem run_induct {P : State → Prop} (hstep : ∀ s, s.upc ≠ none → P s → P (tick s)) {s : State}
    (h : P s) : P (run s) := by
  unfold run
  generalize s.peer.length + engineBudget s = n
  induction n generalizing s with
  | zero => exact h
  | succ n ih =>
    unfold runFor
    split
    · exact h
    · rename_i hu
      exact ih (hstep s (by simpa using hu) h)

/-- The same with an engine micro-step and a Peer step apart: what both keep, a run keeps, when it does not
depend on the Peer's list. -/
theorem run_induct_agents {P : State → Prop} (hpeer : ∀ s ms, P s → P { s with peer := ms })
    (hengine : ∀ s, s.upc ≠ none → P s → P (engineStep s))
    (hmove : ∀ s m, P s → P (peerStep m s)) {s : State} (h : P s) : P (run s) :=
  run_induct (fun s hu hs => by
    rcases tick_cases s with ⟨ms, -, ht⟩ | ⟨m, ms, -, -, ht⟩
    · rw [ht]; exact hengine _ hu (hpeer s ms hs)
    · rw [ht]; exact hmove _ _ (hpeer s ms hs)) h

@[simp] theorem tick_cfg (s : State) : (tick s).cfg = s.cfg := by
  rcases tick_cases s with ⟨ms, -, ht⟩ | ⟨m, ms, -, -, ht⟩ <;> simp [ht]

@[simp] theorem tick_cmds (s : State) : (tick s).cmds = s.cmds := by
  rcases tick_cases s with ⟨ms, -, ht⟩ | ⟨m, ms, -, -, ht⟩ <;> simp [ht]

@[simp] theorem tick_refused (s : State) : (tick s).refused = s.refused := by
  rcases tick_cases s with ⟨ms, -, ht⟩ | ⟨m, ms, -, -, ht⟩ <;> simp [ht]

@[simp] theorem run_upc (s : State) : (run s).upc = none := run_idle s

@[simp] theorem run_cfg (s : State) : (run s).cfg = s.cfg :=
  run_induct (P := fun t => t.cfg = s.cfg) (fun t _ h => by simp [h]) rfl

@[simp] theorem run_cmds (s : State) : (run s).cmds = s.cmds :=
  run_induct (P := fun t => t.cmds = s.cmds) (fun t _ h => by simp [h]) rfl

@[simp] theorem run_refused (s : State) : (run s).refused = s.refused :=
  run_induct (P := fun t => t.refused = s.refused) (fun t _ h => by simp [h]) rfl

theorem engineStep_trace (s : State) : s.trace <:+ (engineStep s).trace := by
  unfold engineStep; split <;> (try split) <;> simp [List.suffix_cons]

theorem peerStep_trace (m : PeerMove) (s : State) : s.trace <:+ (peerStep m s).trace := by
  cases m <;> simp [peerStep, List.suffix_cons]

/-- A run only adds events to TRACE (`10_state.md` rule R53). -/
theorem run_trace (s : State) : ∃ es, (run s).trace = es ++ s.trace := by
  obtain ⟨es, h⟩ : s.trace <:+ (run s).trace :=
    run_induct_agents (P := fun t => s.trace <:+ t.trace) (fun _ _ h => h)
      (fun t _ h => h.trans (engineStep_trace t)) (fun t m h => h.trans (peerStep_trace m t))
      (List.suffix_refl _)
  exact ⟨es, h.symm⟩

/-! ## The Peer's turn before a micro-step -/

/-- The Peer's steps up to its next `pass`, all of them taken. -/
def takeTurn (ms : List PeerMove) (s : State) : State :=
  match ms with
  | [] => { s with peer := [] }
  | .pass :: rest => { s with peer := rest }
  | m :: rest => takeTurn rest (peerStep m { s with peer := rest })

/-- The Peer's whole turn, then the engine's micro-step. -/
theorem run_turn {s : State} (h : s.upc ≠ none) : run s = run (engineStep (takeTurn s.peer s)) := by
  generalize hp : s.peer = ms
  induction ms generalizing s with
  | nil =>
    rw [run_tick h, show tick s = engineStep s by simp [tick, hp]]
    have : takeTurn [] s = s := by cases s; simp_all [takeTurn]
    rw [this]
  | cons m ms ih =>
    cases m with
    | pass => rw [run_tick h]; simp [tick, hp, takeTurn]
    | _ =>
      rw [run_tick h]
      simp only [tick, hp, takeTurn]
      exact ih (by simpa using h) (by simp)

/-- With no Peer move left, a run is the iteration of the engine's micro-step. -/
theorem run_quiet {s : State} (h : s.upc ≠ none) (hp : s.peer = []) : run s = run (engineStep s) := by
  rw [run_tick h]; simp [tick, hp]

end Sys2Proof.Machine
end

