-- ==== Sys2Proof/Laws/Memory.lean ====
section
/-! SUPPORT. RX: reads after writes, the canonical form and its preservation, and equal contents from equal
data. -/

namespace Sys2Proof.Machine

@[simp] theorem Memory.read_nil (a : Nat) : Memory.read [] a = none := rfl

theorem Memory.read_write (m : Memory) (a b : Nat) (v : Byte) :
    (m.write a v).read b = if b = a then some v else m.read b := by
  induction m with
  | nil => simp [Memory.write, Memory.read]
  | cons c m ih =>
    obtain ⟨k, w⟩ := c
    unfold Memory.write
    split
    · simp [Memory.read]
    · split
      · rename_i h; subst h; simp [Memory.read]; split <;> simp_all
      · simp only [Memory.read, ih]
        split
        · rename_i h; subst h; rw [if_neg (by omega)]
        · rfl

@[simp] theorem Memory.read_write_self (m : Memory) (a : Nat) (v : Byte) :
    (m.write a v).read a = some v := by simp [Memory.read_write]

theorem Memory.read_write_other {a b : Nat} (h : b ≠ a) (m : Memory) (v : Byte) :
    (m.write a v).read b = m.read b := by simp [Memory.read_write, h]

theorem Memory.wfFrom_write {lo a : Nat} {m : Memory} (v : Byte) (h : m.wfFrom lo = true)
    (hlo : lo ≤ a) (ha : a < 65536) : (m.write a v).wfFrom lo = true := by
  induction m generalizing lo with
  | nil => simp [Memory.write, Memory.wfFrom, hlo, ha]
  | cons c m ih =>
    obtain ⟨k, w⟩ := c
    simp only [Memory.wfFrom, Bool.and_eq_true, decide_eq_true_eq] at h
    obtain ⟨⟨h1, h2⟩, h3⟩ := h
    unfold Memory.write
    split
    · rename_i hlt
      simp only [Memory.wfFrom, Bool.and_eq_true, decide_eq_true_eq]
      exact ⟨⟨hlo, ha⟩, ⟨hlt, h2⟩, h3⟩
    · split
      · rename_i he
        subst he
        simp only [Memory.wfFrom, Bool.and_eq_true, decide_eq_true_eq]
        exact ⟨⟨hlo, ha⟩, h3⟩
      · simp only [Memory.wfFrom, Bool.and_eq_true, decide_eq_true_eq]
        exact ⟨⟨h1, h2⟩, ih h3 (by omega)⟩

/-- A write at a 16-bit index keeps the canonical form. -/
theorem Memory.wf_write {m : Memory} (h : m.wf = true) (i : Half) (v : Byte) :
    (m.write i.toNat v).wf = true :=
  Memory.wfFrom_write v h (Nat.zero_le _) i.isLt

theorem Memory.read_of_lt {lo a : Nat} {m : Memory} (h : m.wfFrom lo = true) (ha : a < lo) :
    m.read a = none := by
  induction m generalizing lo with
  | nil => rfl
  | cons c m ih =>
    obtain ⟨k, w⟩ := c
    simp only [Memory.wfFrom, Bool.and_eq_true, decide_eq_true_eq] at h
    unfold Memory.read
    rw [if_neg (by omega)]
    exact ih h.2 (by omega)

/-- Memories in canonical form that read alike are equal data. -/
theorem Memory.ext_of_wfFrom {lo : Nat} {m n : Memory} (hm : m.wfFrom lo = true)
    (hn : n.wfFrom lo = true) (h : ∀ a, m.read a = n.read a) : m = n := by
  induction m generalizing lo n with
  | nil =>
    cases n with
    | nil => rfl
    | cons c n => have := h c.1; simp [Memory.read] at this
  | cons c m ih =>
    obtain ⟨k, w⟩ := c
    cases n with
    | nil => have := h k; simp [Memory.read] at this
    | cons d n =>
      obtain ⟨l, x⟩ := d
      simp only [Memory.wfFrom, Bool.and_eq_true, decide_eq_true_eq] at hm hn
      have hk := h k
      have hl := h l
      have hkl : k = l := by
        by_contra hne
        simp only [Memory.read, if_true, if_neg hne, if_neg (Ne.symm hne)] at hk hl
        rcases Nat.lt_or_gt_of_ne hne with hlt | hlt
        · rw [Memory.read_of_lt hn.2 (by omega)] at hk; cases hk
        · rw [Memory.read_of_lt hm.2 (by omega)] at hl; cases hl
      subst hkl
      simp only [Memory.read, if_true, Option.some.injEq] at hk
      subst hk
      congr 1
      refine ih hm.2 hn.2 fun a => ?_
      by_cases ha : a = k
      · subst ha
        rw [Memory.read_of_lt hm.2 (by omega), Memory.read_of_lt hn.2 (by omega)]
      · have := h a
        simpa [Memory.read, ha] using this

/-! ## The steps and RX -/

/-- The one micro-step that writes RX is μWRITERX (rule R169). -/
theorem opWrite_rx_or (op : MicroOp) (s : State) :
    (op.write s).rx = s.rx ∨ ∃ i v, op = .writeRx i v ∧ (op.write s).rx = s.rx.write i.toNat v := by
  cases op <;> simp [MicroOp.write]

theorem engineStep_rx_or (s : State) :
    (engineStep s).rx = s.rx ∨
      ∃ i v m rest k, s.upc = some (.op ⟨.writeRx i v, m⟩ rest k) ∧
        (engineStep s).rx = s.rx.write i.toNat v := by
  unfold engineStep
  split
  · exact .inl rfl
  · simp
  · rename_i w rest k hu
    obtain ⟨op, m⟩ := w
    rcases opWrite_rx_or op s with h | ⟨i, v, ho, h⟩
    · refine .inl ?_
      split <;> simp [h]
    · subst ho
      refine .inr ⟨i, v, m, rest, k, hu, ?_⟩
      split <;> simp [h]

/-- An engine micro-step keeps RX canonical. -/
theorem engineStep_rx_wf {s : State} (h : s.rx.wf = true) : (engineStep s).rx.wf = true := by
  rcases engineStep_rx_or s with he | ⟨i, v, m, rest, k, -, he⟩
  · rw [he]; exact h
  · rw [he]; exact Memory.wf_write h i v

theorem tick_rx_wf {s : State} (h : s.rx.wf = true) : (tick s).rx.wf = true := by
  rcases tick_cases s with ⟨ms, -, ht⟩ | ⟨m, ms, -, -, ht⟩
  · rw [ht]; exact engineStep_rx_wf (s := { s with peer := ms }) h
  · rw [ht]; simpa using h

/-- Every run keeps RX canonical. -/
theorem run_rx_wf {s : State} (h : s.rx.wf = true) : (run s).rx.wf = true :=
  run_induct (P := fun t => t.rx.wf = true) (fun _ _ ht => tick_rx_wf ht) h

/-- Reset's RX lists nothing and is canonical. -/
theorem reset_rx_wf : State.reset.rx.wf = true := rfl

end Sys2Proof.Machine
end

