-- ==== Sys2Proof/Laws/Micro.lean ====
section
/-! SUPPORT. One micro-step of a micro-program with the Peer's turn before it, and from it what the poll, the
pulse, BitTransfer, Start, Stop, Transmit and Receive can do, for every Peer: each goes on with what follows it,
or returns a fault. `State.master` is the part of the state that only the engine writes; `Receives` says which
bytes reach RX and TRACE. -/

namespace Sys2Proof.Machine

/-- The μWRITERX events of a trace, without the levels of the lines. -/
def rxEvents (es : List Event) : List Event :=
  es.filterMap fun e => match e.kind with
    | .writeRx i v => some ⟨.writeRx i v, false, false⟩
    | _ => none

@[simp] theorem rxWrites_rxEvents (es : List Event) : rxWrites (rxEvents es) = rxWrites es := by
  simp only [rxWrites, rxEvents, List.filterMap_filterMap]
  congr 1
  funext e
  cases e.kind <;> rfl

/-- The part of a state that no Peer step writes, with the μWRITERX events of TRACE: the rest is set to
fixed values. -/
def State.master (s : State) : State :=
  { s with
    startDet := false, stopDet := false, latch := false, upc := none
    peerSclLow := false, peerSdaLow := false, trace := rxEvents s.trace, peer := [] }

/-! Equal master parts have each of the master's fields equal. -/

theorem master_cfg {u s : State} (h : u.master = s.master) : u.cfg = s.cfg := by
  have h' := congrArg State.cfg h; exact h'

theorem master_sclDrv {u s : State} (h : u.master = s.master) : u.sclDrv = s.sclDrv := by
  have h' := congrArg State.sclDrv h; exact h'

theorem master_sdaForce {u s : State} (h : u.master = s.master) : u.sdaForce = s.sdaForce := by
  have h' := congrArg State.sdaForce h; exact h'

theorem master_sdaDir {u s : State} (h : u.master = s.master) : u.sdaDir = s.sdaDir := by
  have h' := congrArg State.sdaDir h; exact h'

theorem master_shreg {u s : State} (h : u.master = s.master) : u.shreg = s.shreg := by
  have h' := congrArg State.shreg h; exact h'

theorem master_cnt {u s : State} (h : u.master = s.master) : u.cnt = s.cnt := by
  have h' := congrArg State.cnt h; exact h'

theorem master_pollk {u s : State} (h : u.master = s.master) : u.pollk = s.pollk := by
  have h' := congrArg State.pollk h; exact h'

theorem master_phase {u s : State} (h : u.master = s.master) : u.phase = s.phase := by
  have h' := congrArg State.phase h; exact h'

theorem master_result {u s : State} (h : u.master = s.master) : u.result = s.result := by
  have h' := congrArg State.result h; exact h'

theorem master_value {u s : State} (h : u.master = s.master) : u.value = s.value := by
  have h' := congrArg State.value h; exact h'

theorem master_sessOpen {u s : State} (h : u.master = s.master) : u.sessOpen = s.sessOpen := by
  have h' := congrArg State.sessOpen h; exact h'

theorem master_sessFault {u s : State} (h : u.master = s.master) : u.sessFault = s.sessFault := by
  have h' := congrArg State.sessFault h; exact h'

theorem master_sessStep {u s : State} (h : u.master = s.master) : u.sessStep = s.sessStep := by
  have h' := congrArg State.sessStep h; exact h'

theorem master_rx {u s : State} (h : u.master = s.master) : u.rx = s.rx := by
  have h' := congrArg State.rx h; exact h'

theorem master_refused {u s : State} (h : u.master = s.master) : u.refused = s.refused := by
  have h' := congrArg State.refused h; exact h'

theorem master_cmds {u s : State} (h : u.master = s.master) : u.cmds = s.cmds := by
  have h' := congrArg State.cmds h; exact h'

theorem master_rxWrites {u s : State} (h : u.master = s.master) :
    rxWrites u.trace = rxWrites s.trace := by
  rw [← rxWrites_rxEvents u.trace, ← rxWrites_rxEvents s.trace]
  have h' := congrArg (fun x : State => rxWrites x.trace) h; exact h'

/-- A master part, up to RX and its writes. -/
theorem master_upto {t x : State} (h : t.master = x) :
    t.master = { x with rx := t.rx, trace := rxEvents t.trace } := by rw [← h]; rfl

@[simp] theorem setUpc_master (s : State) (u : Option Upc) : { s with upc := u }.master = s.master := rfl

@[simp] theorem setPeer_master (s : State) (ms : List PeerMove) :
    { s with peer := ms }.master = s.master := rfl

@[simp] theorem peerStep_master (m : PeerMove) (s : State) : (peerStep m s).master = s.master := by
  cases m <;> rfl

@[simp] theorem takeTurn_master (ms : List PeerMove) (s : State) :
    (takeTurn ms s).master = s.master := by
  induction ms generalizing s with
  | nil => rfl
  | cons m ms ih => cases m <;> simp [takeTurn, ih]

@[simp] theorem takeTurn_upc (ms : List PeerMove) (s : State) : (takeTurn ms s).upc = s.upc := by
  induction ms generalizing s with
  | nil => rfl
  | cons m ms ih => cases m <;> simp [takeTurn, ih]

theorem takeTurn_nil {s : State} (h : s.peer = []) : takeTurn s.peer s = s := by
  rw [h]; cases s; simp_all [takeTurn]

/-- What follows a micro-step made in state `u`. -/
def afterOp (k : Kont) (w : Work) (rest : List Work) (u : State) : State :=
  match w.op.flow u with
  | .next given => proceed k rest given (stamp w.mark (commit u (w.op.write u) (w.op.event u)))
  | .again more => proceed k (more ++ rest) none (commit u (w.op.write u) (w.op.event u))
  | .stop r => returnOp k r none (commit u (w.op.write u) (w.op.event u))

theorem engineStep_op {s : State} {w : Work} {rest : List Work} {k : Kont}
    (h : s.upc = some (.op w rest k)) : engineStep s = afterOp k w rest s := by
  simp only [engineStep, h]
  rfl

/-- The Peer's turn does not look at UPC. -/
theorem takeTurn_setUpc (ms : List PeerMove) (s : State) (x : Option Upc) :
    takeTurn ms { s with upc := x } = { takeTurn ms s with upc := x } := by
  induction ms generalizing s with
  | nil => rfl
  | cons m ms ih =>
    cases m with
    | pass => rfl
    | scl b => exact ih (peerStep (.scl b) { s with peer := ms })
    | sda b => exact ih (peerStep (.sda b) { s with peer := ms })

theorem proceed_setUpc (k : Kont) (ws : List Work) (g : Option Byte) (s : State) (x : Option Upc) :
    proceed k ws g { s with upc := x } = proceed k ws g s := by
  cases ws <;> cases k <;> rfl

theorem returnOp_setUpc (k : Kont) (r : FaultCode) (g : Option Byte) (s : State) (x : Option Upc) :
    returnOp k r g { s with upc := x } = returnOp k r g s := by
  cases k <;> rfl

/-- Nothing a micro-step does looks at UPC. -/
theorem afterOp_setUpc (k : Kont) (w : Work) (rest : List Work) (u : State) (x : Option Upc) :
    afterOp k w rest { u with upc := x } = afterOp k w rest u := by
  have hf : w.op.flow { u with upc := x } = w.op.flow u := by cases w.op <;> rfl
  have hc : commit { u with upc := x } (w.op.write { u with upc := x })
      (w.op.event { u with upc := x }) =
      { commit u (w.op.write u) (w.op.event u) with upc := x } := by cases w.op <;> rfl
  have hs : ∀ t : State, stamp w.mark { t with upc := x } = { stamp w.mark t with upc := x } :=
    fun t => by cases w.mark <;> rfl
  simp only [afterOp, hf, hc, hs]
  cases w.op.flow u <;> simp only [proceed_setUpc, returnOp_setUpc]

/-- A micro-program's next micro-step is made after the Peer's turn, whichever command runs it. -/
theorem run_proceed_step (k : Kont) (w : Work) (rest : List Work) (g : Option Byte) (s : State) :
    run (proceed k (w :: rest) g s) = run (afterOp k w rest (takeTurn s.peer s)) := by
  rw [show proceed k (w :: rest) g s = { s with upc := some (.op w rest k) } from rfl,
    run_turn (by simp), engineStep_op (w := w) (rest := rest) (k := k) (by simp), takeTurn_setUpc,
    afterOp_setUpc]

/-- With no Peer move left, the next micro-step is made in the present state. -/
theorem run_proceed_quiet (k : Kont) (w : Work) (rest : List Work) (g : Option Byte) {s : State}
    (h : s.peer = []) : run (proceed k (w :: rest) g s) = run (afterOp k w rest s) := by
  rw [run_proceed_step, takeTurn_nil h]

/-- The Peer lets the next micro-step be made. -/
theorem run_proceed_pass (k : Kont) (w : Work) (rest : List Work) (g : Option Byte) {s : State}
    {ms : List PeerMove} (h : s.peer = .pass :: ms) : run (proceed k (w :: rest) g s) =
      run (afterOp k w rest { s with peer := ms }) := by
  rw [run_proceed_step, h, takeTurn]

/-- The Peer moves first. -/
theorem run_proceed_move (k : Kont) (w : Work) (rest : List Work) (g : Option Byte) {s : State}
    {m : PeerMove} {ms : List PeerMove} (h : s.peer = m :: ms) (hm : m ≠ .pass) :
    run (proceed k (w :: rest) g s) =
      run (proceed k (w :: rest) none (peerStep m { s with peer := ms })) := by
  rw [show proceed k (w :: rest) g s = { s with upc := some (.op w rest k) } from rfl,
    run_tick (by simp)]
  congr 1
  cases m with
  | pass => exact absurd rfl hm
  | _ => simp only [tick, h]; rfl

/-- What a stretch `ws` of micro-program does from `s`, the same whatever command runs it and whatever
follows it: it goes on in a state that meets `ok`, or its operation returns a code in a state that meets
`bad`. -/
def Does (ws : List Work) (s : State) (ok : State → Prop) (bad : FaultCode → State → Prop) : Prop :=
  (∃ t, ok t ∧ ∀ (k : Kont) (rest : List Work),
    run (proceed k (ws ++ rest) none s) = run (proceed k rest none t)) ∨
  (∃ r t, bad r t ∧ ∀ (k : Kont) (rest : List Work),
    run (proceed k (ws ++ rest) none s) = run (returnOp k r none t))

theorem Does.nil {s : State} {ok : State → Prop} {bad : FaultCode → State → Prop} (h : ok s) :
    Does [] s ok bad := .inl ⟨s, h, fun _ _ => rfl⟩

theorem Does.append {xs ys : List Work} {s : State} {mid ok : State → Prop}
    {bad : FaultCode → State → Prop} (hx : Does xs s mid bad) (hy : ∀ t, mid t → Does ys t ok bad) :
    Does (xs ++ ys) s ok bad := by
  simp only [Does, List.append_assoc]
  rcases hx with ⟨t, ht, e⟩ | ⟨r, t, ht, e⟩
  · rcases hy t ht with ⟨u, hu, e'⟩ | ⟨r, u, hu, e'⟩
    · exact .inl ⟨u, hu, fun k rest => (e k _).trans (e' k rest)⟩
    · exact .inr ⟨r, u, hu, fun k rest => (e k _).trans (e' k rest)⟩
  · exact .inr ⟨r, t, ht, fun k rest => e k _⟩

theorem Does.cons {w : Work} {ys : List Work} {s : State} {mid ok : State → Prop}
    {bad : FaultCode → State → Prop} (hx : Does [w] s mid bad) (hy : ∀ t, mid t → Does ys t ok bad) :
    Does (w :: ys) s ok bad := Does.append (xs := [w]) hx hy

theorem Does.imp {ws : List Work} {s : State} {ok ok' : State → Prop}
    {bad bad' : FaultCode → State → Prop} (h : Does ws s ok bad) (h1 : ∀ t, ok t → ok' t)
    (h2 : ∀ r t, bad r t → bad' r t) : Does ws s ok' bad' := by
  rcases h with ⟨t, ht, e⟩ | ⟨r, t, ht, e⟩
  · exact .inl ⟨t, h1 t ht, e⟩
  · exact .inr ⟨r, t, h2 r t ht, e⟩

/-- One micro-step: its writes are made after the Peer's turn, and its control decides. -/
theorem Does.op {w : Work} {s : State} {ok : State → Prop} {bad : FaultCode → State → Prop}
    (hn : ∀ u, u.master = s.master → w.op.flow u = .next none →
      ok (stamp w.mark (commit u (w.op.write u) (w.op.event u))))
    (hs : ∀ u r, u.master = s.master → w.op.flow u = .stop r →
      bad r (commit u (w.op.write u) (w.op.event u)))
    (hg : ∀ u b, u.master = s.master → w.op.flow u ≠ .next (some b))
    (ha : ∀ u more, u.master = s.master → w.op.flow u = .again more →
      Does more (commit u (w.op.write u) (w.op.event u)) ok bad) :
    Does [w] s ok bad := by
  have hu : (takeTurn s.peer s).master = s.master := takeTurn_master _ s
  generalize hv : takeTurn s.peer s = u at hu
  simp only [Does, List.cons_append, List.nil_append, run_proceed_step, hv, afterOp]
  match hf : w.op.flow u with
  | .next none => exact .inl ⟨_, hn u hu hf, fun _ _ => rfl⟩
  | .next (some b) => exact absurd hf (hg u b hu)
  | .again more => exact ha u more hu hf
  | .stop r => exact .inr ⟨r, _, hs u r hu hf, fun _ _ => rfl⟩

/-- A micro-step that decides nothing and reads no line. -/
theorem Does.simple {op : MicroOp} {s : State} {ok : State → Prop} {bad : FaultCode → State → Prop}
    (hf : ∀ u, op.flow u = .next none)
    (hn : ∀ u, u.master = s.master → ok (commit u (op.write u) (op.event u))) :
    Does [plain op] s ok bad := by
  refine Does.op (fun u hu _ => by simpa [plain, stamp] using hn u hu) ?_ ?_ ?_ <;> simp [plain, hf]

/-! ## The poll and the pulse (`41_bit_transfer.md` rules R172 and R173) -/

/-- The bounded poll: it ends with the line high, or reports ClockHighTimeout; only POLLK changes. -/
theorem does_readScl (s : State) :
    Does [plain .readScl] s (fun t => ∃ p, t.master = { s.master with pollk := p })
      (fun r t => r = .clockHighTimeout ∧ ∃ p, t.master = { s.master with pollk := p }) := by
  generalize hd : pollBound s.cfg - s.pollk = d
  induction d generalizing s with
  | zero =>
    refine Does.op ?_ ?_ ?_ ?_
    · intro u hu _
      exact ⟨_, by rw [← hu]; rfl⟩
    · intro u r hu hf
      refine ⟨?_, _, by rw [← hu]; rfl⟩
      simp only [plain, MicroOp.flow] at hf
      split at hf <;> (try split at hf) <;> simp_all
    · intro u b hu
      simp only [plain, MicroOp.flow]
      split <;> (try split) <;> simp
    · intro u more hu hf
      have hc : u.cfg = s.cfg := master_cfg hu
      have hp : u.pollk = s.pollk := master_pollk hu
      simp only [plain, MicroOp.flow, hc, hp] at hf
      split at hf
      · cases hf
      · rw [if_pos (by omega)] at hf; cases hf
  | succ d ih =>
    refine Does.op ?_ ?_ ?_ ?_
    · intro u hu _
      exact ⟨_, by rw [← hu]; rfl⟩
    · intro u r hu hf
      refine ⟨?_, _, by rw [← hu]; rfl⟩
      simp only [plain, MicroOp.flow] at hf
      split at hf <;> (try split at hf) <;> simp_all
    · intro u b hu
      simp only [plain, MicroOp.flow]
      split <;> (try split) <;> simp
    · intro u more hu hf
      have hc : u.cfg = s.cfg := master_cfg hu
      have hp : u.pollk = s.pollk := master_pollk hu
      simp only [plain, MicroOp.flow] at hf
      split at hf
      · cases hf
      · rename_i hl
        split at hf
        · cases hf
        · cases hf
          refine Does.imp (ih _ ?_) ?_ ?_
          · simp [plain, MicroOp.write, hl, hc, hp]; omega
          · rintro t ⟨p, ht⟩
            exact ⟨p, by rw [ht, ← hu]; rfl⟩
          · rintro r t ⟨hr, p, ht⟩
            exact ⟨hr, p, by rw [ht, ← hu]; rfl⟩

/-- `b` is `a` shifted left `k` times, whatever was shifted in. -/
def Shifted (k : Nat) (a b : Byte) : Prop := b.toNat / 2 ^ k = a.toNat % 2 ^ (8 - k)

theorem Shifted.zero (a : Byte) : Shifted 0 a a := by
  have := a.isLt
  simp only [Shifted, Nat.sub_zero, pow_zero, Nat.div_one]
  omega

theorem Shifted.succ {k : Nat} {a b : Byte} (h : Shifted k a b) (hk : k < 8) (l : Bool) :
    Shifted (k + 1) a (b.extractLsb' 0 7 ++ BitVec.ofBool l) := by
  have hs : (b.extractLsb' 0 7 ++ BitVec.ofBool l : Byte).toNat / 2 = b.toNat % 2 ^ 7 := by
    rw [BitVec.toNat_append, Nat.shiftLeft_eq, Nat.mul_comm,
      ← Nat.two_pow_add_eq_or_of_lt (by cases l <;> decide)]
    cases l <;> (simp; try omega)
  unfold Shifted at h ⊢
  rw [pow_succ, Nat.mul_comm, ← Nat.div_div_eq_div_mul, hs]
  have h7 : b.toNat % 2 ^ 7 / 2 ^ k = b.toNat / 2 ^ k % 2 ^ (7 - k) := by
    rw [show (7 : Nat) = k + (7 - k) by omega, pow_add, Nat.mod_mul_right_div_self]
    congr 2; omega
  rw [h7, h, show 8 - k = (7 - k) + 1 by omega, pow_succ, Nat.mod_mul_right_mod]
  congr 2; omega

/-- Micro-steps with no decision, each named by the master state it leaves. -/
theorem Does.write {op : MicroOp} {s : State} {m : State} {bad : FaultCode → State → Prop}
    (hf : ∀ u, op.flow u = .next none) (hm : ∀ u, u.master = s.master →
      (commit u (op.write u) (op.event u)).master = m) :
    Does [plain op] s (fun t => t.master = m) bad :=
  Does.simple hf hm

/-- A pulse up to its falling edge (`41_bit_transfer.md` rule R173). -/
theorem does_pulseHead (s : State) :
    Does [plain (.wait .preClockHigh), plain .sclRel, plain .readScl, plain (.wait .postClockHigh),
        plain .sclLow] s
      (fun t => ∃ p, t.master = { s.master with sclDrv := .low, pollk := p })
      (fun r t => r = .clockHighTimeout ∧
        ∃ p, t.master = { s.master with sclDrv := .rel, pollk := p }) := by
  refine Does.cons (mid := fun t => t.master = s.master) (Does.write (fun _ => rfl) fun u hu => hu) ?_
  intro t1 h1
  refine Does.cons (mid := fun t => t.master = { s.master with sclDrv := .rel, pollk := 0 })
    (Does.write (fun _ => rfl) fun u hu => by rw [← h1, ← hu]; rfl) ?_
  intro t2 h2
  refine Does.cons (mid := fun t => ∃ p, t.master = { s.master with sclDrv := .rel, pollk := p })
    ((does_readScl t2).imp (fun t ⟨p, h⟩ => ⟨p, by rw [h, h2]⟩)
      (fun r t ⟨hr, p, h⟩ => ⟨hr, p, by rw [h, h2]⟩)) ?_
  rintro t3 ⟨p, h3⟩
  refine Does.cons (mid := fun t => t.master = t3.master)
    (Does.write (fun _ => rfl) fun u hu => hu) ?_
  intro t4 h4
  exact (Does.write (m := { s.master with sclDrv := .low, pollk := p }) (fun _ => rfl) fun u hu => by
    have : (commit u (MicroOp.write .sclLow u) (MicroOp.event .sclLow u)).master =
      { u.master with sclDrv := .low } := rfl
    rw [this, hu, h4, h3]).imp (fun _ h => ⟨p, h⟩) (fun _ _ h => h)

theorem shift_master (u : State) :
    (commit u (MicroOp.write .shift u) (MicroOp.event .shift u)).master =
    { u.master with shreg := u.shreg.extractLsb' 0 7 ++ BitVec.ofBool u.latch, cnt := u.cnt - 1 } := rfl

/-- The pulses still to make, CNT of them, from SHREG already shifted `n - CNT` times from `a`
(`41_bit_transfer.md` rules R173, R174 and R176). -/
theorem does_pulses {n : Nat} {a : Byte} (hn : n ≤ 8) (c : Nat) (s : State) (hc : s.cnt = c + 1)
    (hcn : c + 1 ≤ n) (hs : Shifted (n - (c + 1)) a s.shreg) :
    Does pulseProg s
      (fun t => ∃ p sh, Shifted n a sh ∧
        t.master = { s.master with sclDrv := .low, pollk := p, shreg := sh, cnt := 0 })
      (fun r t => r = .clockHighTimeout ∧ ∃ p sh c', 1 ≤ c' ∧ c' ≤ c + 1 ∧ Shifted (n - c') a sh ∧
        t.master = { s.master with sclDrv := .rel, pollk := p, shreg := sh, cnt := c' }) := by
  induction c generalizing s with
  | zero =>
    refine Does.append (ys := [plain .shift]) ((does_pulseHead s).imp (fun _ h => h)
      fun r t ⟨hr, p, h⟩ => ⟨hr, p, s.shreg, s.cnt, by omega, by omega, by rw [hc]; exact hs, by
        rw [h]; rfl⟩) ?_
    rintro t5 ⟨p, h5⟩
    have hcnt : ∀ u : State, u.master = t5.master → u.cnt = 1 := fun u hu => by
      rw [master_cnt hu, show t5.cnt = s.cnt by have h' := congrArg State.cnt h5; exact h', hc]
    refine Does.op ?_ ?_ ?_ ?_
    · intro u hu _
      refine ⟨p, u.shreg.extractLsb' 0 7 ++ BitVec.ofBool u.latch, ?_, ?_⟩
      · have hsh : u.shreg = s.shreg := by
          rw [master_shreg hu, show t5.shreg = s.shreg by have h' := congrArg State.shreg h5; exact h']
        rw [hsh, show n = n - (0 + 1) + 1 by omega]
        exact hs.succ (by omega) _
      · simp only [plain, stamp, shift_master, hu, h5, hcnt u hu]
    · intro u r hu hf
      simp [plain, MicroOp.flow, hcnt u hu] at hf
    · intro u b hu
      simp [plain, MicroOp.flow, hcnt u hu]
    · intro u more hu hf
      simp [plain, MicroOp.flow, hcnt u hu] at hf
  | succ c ih =>
    refine Does.append (ys := [plain .shift]) ((does_pulseHead s).imp (fun _ h => h)
      fun r t ⟨hr, p, h⟩ => ⟨hr, p, s.shreg, s.cnt, by omega, by omega, by rw [hc]; exact hs, by
        rw [h]; rfl⟩) ?_
    rintro t5 ⟨p, h5⟩
    have hcnt : ∀ u : State, u.master = t5.master → u.cnt = c + 2 := fun u hu => by
      rw [master_cnt hu, show t5.cnt = s.cnt by have h' := congrArg State.cnt h5; exact h', hc]
    refine Does.op ?_ ?_ ?_ ?_
    · intro u hu hf
      simp [plain, MicroOp.flow, hcnt u hu] at hf
    · intro u r hu hf
      simp [plain, MicroOp.flow, hcnt u hu] at hf
    · intro u b hu
      simp [plain, MicroOp.flow, hcnt u hu]
    · intro u more hu hf
      have hm : more = pulseProg := by simpa [plain, MicroOp.flow, hcnt u hu] using hf.symm
      subst hm
      have hsh : u.shreg = s.shreg := by
        rw [master_shreg hu, show t5.shreg = s.shreg by have h' := congrArg State.shreg h5; exact h']
      have hm : (commit u (MicroOp.write .shift u) (MicroOp.event .shift u)).master = { s.master with
          sclDrv := .low, pollk := p
          shreg := u.shreg.extractLsb' 0 7 ++ BitVec.ofBool u.latch, cnt := u.cnt - 1 } := by
        rw [shift_master, hu, h5]
      refine (ih (commit u (MicroOp.write .shift u) (MicroOp.event .shift u)) ?_ (by omega) ?_).imp
        ?_ ?_
      · simp [MicroOp.write, hcnt u hu]
      · simp only [commit_shreg, MicroOp.write, hsh]
        rw [show n - (c + 1) = n - (c + 1 + 1) + 1 by omega]
        exact hs.succ (by omega) _
      · rintro t ⟨p', sh, h, ht⟩
        exact ⟨p', sh, h, by rw [ht, hm]⟩
      · rintro r t ⟨hr, p', sh, c', hc1, hc2, h, ht⟩
        exact ⟨hr, p', sh, c', hc1, by omega, h, by rw [ht, hm]⟩

/-! ## BitTransfer, Start, Stop and Transmit -/

/-- `BitTransfer(n)` up to its μPRESET (`41_bit_transfer.md` rule R174). -/
def bitsProg (n : BitCount) : List Work :=
  plain (.beginBits n) :: (pulseProg ++ [plain (.wait .postTransfer)])

/-- Every transfer of bits, for every Peer. -/
theorem does_bits (n : BitCount) (s : State) :
    Does (bitsProg n) s
      (fun t => ∃ p sh, Shifted (pulses n) s.shreg sh ∧
        t.master = { s.master with sclDrv := .low, pollk := p, shreg := sh, cnt := 0 })
      (fun r t => r = .clockHighTimeout ∧ ∃ p sh c, 1 ≤ c ∧ c ≤ pulses n ∧
        Shifted (pulses n - c) s.shreg sh ∧
        t.master = { s.master with sclDrv := .rel, pollk := p, shreg := sh, cnt := c }) := by
  refine Does.cons (mid := fun t => t.master = { s.master with cnt := pulses n })
    (Does.write (fun _ => rfl) fun u hu => by rw [← hu]; rfl) ?_
  intro t1 h1
  have hs : t1.shreg = s.shreg := by have h' := congrArg State.shreg h1; exact h'
  have hc : t1.cnt = pulses n := by have h' := congrArg State.cnt h1; exact h'
  have hn : 1 ≤ pulses n ∧ pulses n ≤ 8 := by cases n <;> decide
  have hp : pulses n - 1 + 1 = pulses n := by omega
  refine Does.append ((does_pulses (a := s.shreg) hn.2 (pulses n - 1) t1 (by omega) (by omega) ?_).imp
    (fun t h => h) ?_) ?_
  · rw [hp, Nat.sub_self, hs]; exact Shifted.zero _
  · rintro r t ⟨hr, p, sh, c, h1c, h2c, h, ht⟩
    exact ⟨hr, p, sh, c, h1c, by omega, h, by rw [ht, h1]⟩
  · rintro t2 ⟨p, sh, h, h2⟩
    exact Does.imp (ws := [plain (.wait .postTransfer)])
      (Does.write (m := t2.master) (fun _ => rfl) fun u hu => hu)
      (fun t ht => ⟨p, sh, h, by rw [ht, h2, h1]⟩) (fun _ _ h => h)

theorem bitTransferProg_eq (n : BitCount) (use : PresetUse) (m : Option Phase) :
    bitTransferProg n use m = bitsProg n ++ [{ op := .preset use, mark := m }] := by
  simp [bitTransferProg, bitsProg]

theorem transmitProg_eq (ph : TxPhase) (b : Byte) (m : Option Phase) : transmitProg ph b m =
    plain (.check (.transmit ph)) :: plain .sclLow :: plain (.stage b) :: (bitsProg .eight ++
      (plain (.preset .drop) :: plain .sdaIn :: (bitsProg .one ++
        [{ op := .preset (.ack ph), mark := m }]))) := rfl

theorem receiveByteProg_eq (i n : Half) (m : Option Phase) : receiveByteProg i n m =
    { op := .sdaIn, mark := m } :: (bitsProg .eight ++ (plain (.preset (.toRx i)) ::
      plain (.stage (answerByte i n)) :: (bitsProg .one ++ [plain (.preset (.ackSent i n))]))) := rfl

theorem preset_master (use : PresetUse) (u : State) :
    (commit u (MicroOp.write (.preset use) u) (MicroOp.event (.preset use) u)).master =
    { u.master with shreg := 0xFF, sdaDir := .inward } := rfl

theorem commit_self_startDet (u : State) (e : EventKind) : (commit u u e).startDet = u.startDet := by
  simp only [commit, startEdge]; cases u.scl <;> cases u.sda <;> simp

theorem commit_self_stopDet (u : State) (e : EventKind) : (commit u u e).stopDet = u.stopDet := by
  simp only [commit, stopEdge]; cases u.scl <;> cases u.sda <;> simp

/-- A check returns its code; it writes nothing of the master's. -/
theorem does_check (c : Check) (m : Option Phase) (s : State) :
    Does [{ op := .check c, mark := m }] s
      (fun t => t.master = (stamp m s).master ∧ ∃ u, u.master = s.master ∧ checkCode c u = .ok ∧
        t.startDet = u.startDet ∧ t.stopDet = u.stopDet)
      (fun r t => t.master = s.master ∧ ∃ u, u.master = s.master ∧ checkCode c u = r ∧ r ≠ .ok ∧
        t.startDet = u.startDet ∧ t.stopDet = u.stopDet) := by
  refine Does.op ?_ ?_ ?_ ?_
  · intro u hu hf
    refine ⟨?_, u, hu, ?_, ?_, ?_⟩
    · cases m with
      | none => exact hu
      | some p =>
        have h' := congrArg (fun x : State => { x with phase := p }) hu
        exact h'
    · by_contra h; simp [MicroOp.flow, Flow.ofCode, h] at hf
    · rw [stamp_startDet]; exact commit_self_startDet u _
    · rw [stamp_stopDet]; exact commit_self_stopDet u _
  · intro u r hu hf
    simp only [MicroOp.flow, Flow.ofCode] at hf
    split at hf
    · cases hf
    · rename_i h
      cases hf
      exact ⟨hu, u, hu, rfl, h, commit_self_startDet u _, commit_self_stopDet u _⟩
  · intro u b _
    simp only [MicroOp.flow, Flow.ofCode]; split <;> simp
  · intro u more _ hf
    exact absurd hf (Flow.ofCode_ne_again _ _)

/-- `Start()` (`42_conditions.md` rules R200 and R201), for every Peer. -/
theorem does_start (m : Option Phase) (s : State) :
    Does (startProg m) s
      (fun t => t.startDet = true ∧ ∃ p, t.master = (stamp m { s with
        sclDrv := .low, sdaForce := false, sdaDir := .outward, pollk := p }).master)
      (fun r t => (r = .clockHighTimeout ∧ ∃ p, t.master = { s.master with
          sclDrv := .rel, pollk := p }) ∨
        (r = .missingStart ∧ t.startDet = false ∧ ∃ p, t.master = { s.master with
          sclDrv := .low, sdaForce := false, sdaDir := .outward, pollk := p })) := by
  refine Does.cons (mid := fun t => t.master = { s.master with sclDrv := .rel, pollk := 0 })
    (Does.write (fun _ => rfl) fun u hu => by rw [← hu]; rfl) ?_
  intro t2 h2
  refine Does.cons (mid := fun t => ∃ p, t.master = { s.master with sclDrv := .rel, pollk := p })
    ((does_readScl t2).imp (fun t ⟨p, h⟩ => ⟨p, by rw [h, h2]⟩)
      (fun r t ⟨hr, p, h⟩ => .inl ⟨hr, p, by rw [h, h2]⟩)) ?_
  rintro t3 ⟨p, h3⟩
  refine Does.cons (mid := fun t => t.master = { t3.master with sdaForce := true, sdaDir := .outward })
    (Does.write (fun _ => rfl) fun u hu => by rw [← hu]; rfl) ?_
  intro t4 h4
  refine Does.cons (mid := fun t => t.master = t4.master)
    (Does.write (fun _ => rfl) fun u hu => hu) ?_
  intro t5 h5
  refine Does.cons (mid := fun t => t.master = { t4.master with sclDrv := .low })
    (Does.write (fun _ => rfl) fun u hu => by rw [← h5, ← hu]; rfl) ?_
  intro t6 h6
  refine Does.cons (mid := fun t => t.master = { t6.master with sdaForce := false })
    (Does.write (fun _ => rfl) fun u hu => by rw [← hu]; rfl) ?_
  intro t7 h7
  have hm : t7.master = { s.master with
      sclDrv := .low, sdaForce := false, sdaDir := .outward, pollk := p } := by
    rw [h7, h6, h4, h3]
  refine (does_check .startMade m t7).imp ?_ ?_
  · rintro t ⟨ht, u, -, hc, hd, -⟩
    refine ⟨?_, p, ?_⟩
    · rw [hd]; by_contra h; simp [checkCode, h] at hc
    · rw [ht]
      cases m with
      | none => exact hm
      | some q =>
        have h' := congrArg (fun x : State => { x with phase := q }) hm
        exact h'
  · rintro r t ⟨ht, u, -, hc, hr, hd, -⟩
    simp only [checkCode] at hc
    split at hc
    · exact absurd hc.symm hr
    · rename_i h
      exact .inr ⟨hc.symm, by simpa [hd] using h, p, ht.trans hm⟩

/-- `Stop()` (`42_conditions.md` rules R205 and R206), for every Peer. -/
theorem does_stop (s : State) :
    Does stopProg s
      (fun t => t.stopDet = true ∧ ∃ p, t.master = { s.master with
        sclDrv := .rel, sdaForce := false, sdaDir := .outward, pollk := p })
      (fun r t => (r = .clockHighTimeout ∧ ∃ p, t.master = { s.master with
          sclDrv := .rel, sdaForce := true, sdaDir := .outward, pollk := p }) ∨
        (r = .missingStop ∧ t.stopDet = false ∧ ∃ p, t.master = { s.master with
          sclDrv := .rel, sdaForce := false, sdaDir := .outward, pollk := p })) := by
  refine Does.cons (mid := fun t => t.master = { s.master with sdaForce := true, sdaDir := .outward })
    (Does.write (fun _ => rfl) fun u hu => by rw [← hu]; rfl) ?_
  intro t1 h1
  refine Does.cons (mid := fun t => t.master = { t1.master with sclDrv := .rel, pollk := 0 })
    (Does.write (fun _ => rfl) fun u hu => by rw [← hu]; rfl) ?_
  intro t2 h2
  refine Does.cons (mid := fun t => ∃ p, t.master = { t2.master with pollk := p })
    ((does_readScl t2).imp (fun t h => h)
      (fun r t ⟨hr, p, h⟩ => .inl ⟨hr, p, by rw [h, h2, h1]⟩)) ?_
  rintro t3 ⟨p, h3⟩
  refine Does.cons (mid := fun t => t.master = t3.master)
    (Does.write (fun _ => rfl) fun u hu => hu) ?_
  intro t4 h4
  refine Does.cons (mid := fun t => t.master = { t4.master with sdaForce := false })
    (Does.write (fun _ => rfl) fun u hu => by rw [← hu]; rfl) ?_
  intro t5 h5
  refine Does.cons (mid := fun t => t.master = t5.master)
    (Does.write (fun _ => rfl) fun u hu => hu) ?_
  intro t6 h6
  have hm : t6.master = { s.master with
      sclDrv := .rel, sdaForce := false, sdaDir := .outward, pollk := p } := by
    rw [h6, h5, h4, h3, h2, h1]
  refine (does_check .stopMade none t6).imp ?_ ?_
  · rintro t ⟨ht, u, -, hc, -, hd⟩
    refine ⟨?_, p, ht.trans hm⟩
    rw [hd]; by_contra h; simp [checkCode, h] at hc
  · rintro r t ⟨ht, u, -, hc, hr, -, hd⟩
    simp only [checkCode] at hc
    split at hc
    · exact absurd hc.symm hr
    · rename_i h
      exact .inr ⟨hc.symm, by simpa [hd] using h, p, ht.trans hm⟩

/-- The codes of TRANSMIT's pre-checks (`43_byte_engine.md` rule R221). -/
def preCheckCodes : TxPhase → List FaultCode
  | .address => [.missingStart, .dataCollision]
  | .data => [.unexpectedStart, .unexpectedStop, .dataCollision]

theorem checkCode_transmit (ph : TxPhase) (u : State) :
    checkCode (.transmit ph) u = .ok ∨ checkCode (.transmit ph) u ∈ preCheckCodes ph := by
  cases ph <;> simp only [checkCode, preCheckCodes] <;> (repeat' split) <;> simp

/-- The ACK bit can only give the NACK of the phase (`43_byte_engine.md` rule R220). -/
theorem ackFlow_stop {ph : TxPhase} {v : Byte} {r : FaultCode}
    (h : (PresetUse.ack ph).flow v = .stop r) : r = nackCode ph := by
  simp only [PresetUse.flow] at h
  generalize v.getLsbD 0 = bit at h
  cases bit <;> cases ph <;> simp [Flow.ofCode, nackCode] at h ⊢ <;> exact h.symm

theorem ofCode_ne_given (r : FaultCode) (b : Byte) : Flow.ofCode r ≠ .next (some b) := by
  unfold Flow.ofCode; split <;> simp

/-- `Transmit(b, isAddr)` (`43_byte_engine.md` rules R220 and R222), for every Peer. -/
theorem does_transmit (ph : TxPhase) (b : Byte) (m : Option Phase) (s : State) :
    Does (transmitProg ph b m) s
      (fun t => ∃ p, t.master = (stamp m { s with
        sclDrv := .low, sdaDir := .inward, shreg := 0xFF, pollk := p, cnt := 0 }).master)
      (fun r t => (r ∈ preCheckCodes ph ∧ t.master = s.master) ∨
        (r = .clockHighTimeout ∧ ∃ p sh c d, 1 ≤ c ∧ c ≤ 8 ∧ t.master = { s.master with
          sclDrv := .rel, sdaDir := d, shreg := sh, pollk := p, cnt := c }) ∨
        (r = nackCode ph ∧ ∃ p, t.master = { s.master with
          sclDrv := .low, sdaDir := .inward, shreg := 0xFF, pollk := p, cnt := 0 })) := by
  rw [transmitProg_eq]
  refine Does.cons ((does_check (.transmit ph) none s).imp (fun _ h => h.1) ?_) ?_
  · rintro r t ⟨ht, u, -, hc, hr, -⟩
    refine .inl ⟨?_, ht⟩
    rcases checkCode_transmit ph u with h | h
    · exact absurd (hc.symm.trans h) hr
    · rwa [hc] at h
  intro t1 h1
  replace h1 : t1.master = s.master := h1
  refine Does.cons (mid := fun t => t.master = { s.master with sclDrv := .low })
    (Does.write (fun _ => rfl) fun u hu => by rw [← h1, ← hu]; rfl) ?_
  intro t2 h2
  refine Does.cons (mid := fun t => t.master = { t2.master with shreg := b, sdaDir := .outward })
    (Does.write (fun _ => rfl) fun u hu => by rw [← hu]; rfl) ?_
  intro t3 h3
  refine Does.append ((does_bits .eight t3).imp (fun _ h => h) ?_) ?_
  · rintro r t ⟨hr, p, sh, c, hc1, hc2, -, ht⟩
    exact .inr (.inl ⟨hr, p, sh, c, .outward, hc1, hc2, by rw [ht, h3, h2]⟩)
  rintro t4 ⟨p, sh, -, h4⟩
  refine Does.cons (mid := fun t => t.master = { t4.master with shreg := 0xFF, sdaDir := .inward })
    (Does.write (fun _ => rfl) fun u hu => by rw [preset_master, hu]) ?_
  intro t5 h5
  refine Does.cons (mid := fun t => t.master = { t5.master with sdaDir := .inward })
    (Does.write (fun _ => rfl) fun u hu => by rw [← hu]; rfl) ?_
  intro t6 h6
  refine Does.append ((does_bits .one t6).imp (fun _ h => h) ?_) ?_
  · rintro r t ⟨hr, p', sh', c, hc1, hc2, -, ht⟩
    have : pulses .one = 1 := rfl
    exact .inr (.inl ⟨hr, p', sh', c, .inward, hc1, by omega, by rw [ht, h6, h5, h4, h3, h2]⟩)
  rintro t7 ⟨p', sh', -, h7⟩
  have hm : ∀ u : State, u.master = t7.master →
      (commit u (MicroOp.write (.preset (.ack ph)) u) (MicroOp.event (.preset (.ack ph)) u)).master =
        { s.master with
        sclDrv := .low, sdaDir := .inward, shreg := 0xFF, pollk := p', cnt := 0 } := fun u hu => by
    rw [preset_master, hu, h7, h6, h5, h4, h3, h2]
  refine Does.op ?_ ?_ ?_ ?_
  · intro u hu _
    refine ⟨p', ?_⟩
    cases m with
    | none => exact hm u hu
    | some q =>
      have h' := congrArg (fun x : State => { x with phase := q }) (hm u hu)
      exact h'
  · intro u r hu hf
    refine .inr (.inr ⟨?_, p', hm u hu⟩)
    exact ackFlow_stop hf
  · intro u c _
    exact ofCode_ne_given _ _
  · intro u more _ hf
    exact absurd hf (Flow.ofCode_ne_again _ _)

/-! ## RECEIVE's byte loop (`43_byte_engine.md` rules R230 and R231) -/

/-- From `s` to `t`, the bytes of the indices from `lo` up to `hi` are received, in order: TRACE gets one
μWRITERX for each, RX holds their values, and every other index reads as before (rule R87). -/
def Receives (lo hi : Nat) (s t : State) : Prop :=
  ∃ vs : List Byte, lo + vs.length = hi ∧
    rxWrites t.trace = (vs.mapIdx fun k v => (lo + k, v)).reverse ++ rxWrites s.trace ∧
    ∀ a, t.rx.read a = if lo ≤ a ∧ a < hi then vs[a - lo]? else s.rx.read a

/-- No byte is received between `s` and `t`: RX and its events are the same. -/
def SameRx (s t : State) : Prop := t.rx = s.rx ∧ rxWrites t.trace = rxWrites s.trace

theorem SameRx.trans {s u t : State} (h : SameRx s u) (h' : SameRx u t) : SameRx s t :=
  ⟨h'.1.trans h.1, h'.2.trans h.2⟩

/-- A master part that has the RX and the events of `s`. -/
theorem SameRx.of_master {s t x : State} (h : t.master = x) (hx : x.rx = s.rx)
    (hw : x.trace = rxEvents s.trace) : SameRx s t := by
  subst h
  exact ⟨hx, by rw [← rxWrites_rxEvents, ← rxWrites_rxEvents s.trace, ← hw]; rfl⟩

theorem SameRx.receives {s t : State} (h : SameRx s t) (lo : Nat) : Receives lo lo s t :=
  ⟨[], rfl, by simpa using h.2, fun a => by rw [if_neg (by omega), h.1]⟩

/-- One byte is received. -/
theorem Receives.one {s t : State} {lo : Nat} {v : Byte} (hx : t.rx = s.rx.write lo v)
    (hw : rxWrites t.trace = (lo, v) :: rxWrites s.trace) : Receives lo (lo + 1) s t := by
  refine ⟨[v], rfl, by simpa using hw, fun a => ?_⟩
  rw [hx]
  split
  · rw [show a = lo by omega]; simp
  · rw [Memory.read_write_other (by omega)]

/-- Nothing is received after `u`. -/
theorem Receives.same {lo hi : Nat} {s u t : State} (h : Receives lo hi s u) (h' : SameRx u t) :
    Receives lo hi s t := by
  obtain ⟨vs, h1, h2, h3⟩ := h
  exact ⟨vs, h1, by rw [h'.2, h2], fun a => by rw [h'.1, h3]⟩

theorem Receives.trans {lo mid hi : Nat} {s u t : State} (h : Receives lo mid s u)
    (h' : Receives mid hi u t) : Receives lo hi s t := by
  obtain ⟨vs, h1, h2, h3⟩ := h
  obtain ⟨ws, h1', h2', h3'⟩ := h'
  refine ⟨vs ++ ws, by rw [List.length_append]; omega, ?_, fun a => ?_⟩
  · rw [h2', h2, ← List.append_assoc, ← List.reverse_append, List.mapIdx_append]
    simp only [← h1, Nat.add_assoc, Nat.add_comm vs.length]
  · rw [h3', h3]
    split
    · rw [if_pos (by omega), List.getElem?_append_right (by omega)]
      congr 1; omega
    · split
      · rw [if_pos (by omega), List.getElem?_append_left (by omega)]
      · rw [if_neg (by omega)]

/-- The bytes received from index 0 on, in the events `es` that TRACE gets. -/
theorem Receives.in_trace {k : Nat} {s t : State} {es : List Event} (h : Receives 0 k s t)
    (he : t.trace = es ++ s.trace) : ∃ vs : List Byte, vs.length = k ∧
      rxWrites es.reverse = vs.mapIdx (fun a v => (a, v)) ∧
      ∀ a, t.rx.read a = if a < vs.length then vs[a]? else s.rx.read a := by
  obtain ⟨vs, h1, h2, h3⟩ := h
  refine ⟨vs, by omega, ?_, fun a => by rw [h3]; simp [← h1]⟩
  rw [he] at h2
  simp only [rxWrites, List.filterMap_append, List.append_cancel_right_eq, List.filterMap_reverse] at h2 ⊢
  rw [h2]; simp

/-- The first micro-step of a stretch with its PHASE value. -/
theorem does_sdaIn (m : Option Phase) (s : State) (bad : FaultCode → State → Prop) :
    Does [{ op := .sdaIn, mark := m }] s
      (fun t => t.master = { (stamp m s).master with sdaDir := .inward }) bad := by
  refine Does.op ?_ ?_ ?_ ?_ <;> try simp [MicroOp.flow]
  intro u hu
  cases m with
  | none => have h' := congrArg (fun x : State => { x with sdaDir := .inward }) hu; exact h'
  | some q =>
    have h' := congrArg (fun x : State => { x with sdaDir := .inward, phase := q }) hu
    exact h'

/-- One byte of the loop, up to the μPRESET after its ACK/NACK bit. -/
theorem does_readByte (i n : Half) (m : Option Phase) (s : State) :
    Does ({ op := .sdaIn, mark := m } :: (bitsProg .eight ++ (plain (.preset (.toRx i)) ::
        plain (.stage (answerByte i n)) :: bitsProg .one))) s
      (fun t => Receives i.toNat (i.toNat + 1) s t ∧ ∃ p sh, t.master = { (stamp m s).master with
        sclDrv := .low, sdaDir := .outward, shreg := sh, pollk := p, cnt := 0
        rx := t.rx, trace := rxEvents t.trace })
      (fun r t => r = .clockHighTimeout ∧
        (Receives i.toNat i.toNat s t ∨ Receives i.toNat (i.toNat + 1) s t) ∧
        ∃ p sh c dir, 1 ≤ c ∧ c ≤ 8 ∧ t.master = { (stamp m s).master with
          sclDrv := .rel, sdaDir := dir, shreg := sh, pollk := p, cnt := c
          rx := t.rx, trace := rxEvents t.trace }) := by
  refine Does.cons (does_sdaIn m s _) ?_
  intro t1 h1
  have s1 : SameRx s t1 := .of_master h1 (stamp_rx m s) (congrArg rxEvents (stamp_trace m s))
  refine Does.append ((does_bits .eight t1).imp (fun _ h => h) ?_) ?_
  · rintro r t ⟨hr, p, sh, c, hc1, hc2, -, ht⟩
    have st : SameRx s t := s1.trans (.of_master ht rfl rfl)
    rw [h1] at ht
    exact ⟨hr, .inl (st.receives _), p, sh, c, .inward, hc1, hc2, master_upto ht⟩
  rintro t2 ⟨p, sh, -, h2⟩
  have s2 : SameRx s t2 := s1.trans (.of_master h2 rfl rfl)
  refine Does.cons (mid := fun t => Receives i.toNat (i.toNat + 1) s t ∧ t.master = { t2.master with
      shreg := 0xFF, sdaDir := .inward, rx := t.rx, trace := rxEvents t.trace }) (Does.op
    (fun u _ h => by simp [plain, MicroOp.flow, PresetUse.flow] at h)
    (fun u r _ h => by simp [plain, MicroOp.flow, PresetUse.flow] at h)
    (fun u b _ => by simp [plain, MicroOp.flow, PresetUse.flow]) fun u more hu h => ?_) ?_
  · have hm : more = [plain (.writeRx i u.shreg)] := by
      simpa [plain, MicroOp.flow, PresetUse.flow] using h.symm
    subst hm
    refine Does.simple (fun _ => rfl) fun w hw => ?_
    replace hw : w.master = { t2.master with shreg := 0xFF, sdaDir := .inward } := by
      rw [hw, ← hu]; rfl
    have sw : SameRx s w := s2.trans (.of_master hw rfl rfl)
    refine ⟨.one (v := u.shreg) (by rw [← sw.1]; rfl) (by rw [← sw.2]; rfl), ?_⟩
    have e : (commit w (MicroOp.write (.writeRx i u.shreg) w)
        (MicroOp.event (.writeRx i u.shreg) w)).master = { w.master with
          rx := w.rx.write i.toNat u.shreg
          trace := ⟨.writeRx i u.shreg, false, false⟩ :: rxEvents w.trace } := rfl
    rw [hw] at e
    exact master_upto e
  rintro t3 ⟨hr3, h3⟩
  refine Does.cons (mid := fun t => t.master = { t3.master with
      shreg := answerByte i n, sdaDir := .outward })
    (Does.write (fun _ => rfl) fun u hu => by rw [← hu]; rfl) ?_
  intro t4 h4
  have s4 : SameRx t3 t4 := .of_master h4 rfl rfl
  refine (does_bits .one t4).imp ?_ ?_
  · rintro t ⟨p', sh', -, ht⟩
    have st : SameRx t3 t := s4.trans (.of_master ht rfl rfl)
    rw [h4, h3, h2, h1] at ht
    exact ⟨hr3.same st, p', sh', master_upto ht⟩
  · rintro r t ⟨hr, p', sh', c, hc1, hc2, -, ht⟩
    have : pulses .one = 1 := rfl
    have st : SameRx t3 t := s4.trans (.of_master ht rfl rfl)
    rw [h4, h3, h2, h1] at ht
    exact ⟨hr, .inr (hr3.same st), p', sh', c, .outward, hc1, by omega, master_upto ht⟩

/-- The loop from byte i on, for every Peer: every byte from i to n − 1 is received, or the clock timed out
after some of them, in order; RX and TRACE show just these bytes. -/
theorem does_receiveByte (n : Half) (d : Nat) (i : Half) (m : Option Phase) (s : State)
    (hd : n.toNat = i.toNat + 1 + d) :
    Does (receiveByteProg i n m) s
      (fun t => Receives i.toNat n.toNat s t ∧ ∃ p, t.master = { (stamp m s).master with
        sclDrv := .low, sdaDir := .inward, shreg := 0xFF, pollk := p, cnt := 0
        rx := t.rx, trace := rxEvents t.trace })
      (fun r t => r = .clockHighTimeout ∧ (∃ k, k ≤ n.toNat ∧ Receives i.toNat k s t) ∧
        ∃ p sh c dir, 1 ≤ c ∧ c ≤ 8 ∧ t.master = { (stamp m s).master with
          sclDrv := .rel, sdaDir := dir, shreg := sh, pollk := p, cnt := c
          rx := t.rx, trace := rxEvents t.trace }) := by
  induction d generalizing i m s with
  | zero =>
    rw [receiveByteProg_eq, show (∀ xs ys zs : List Work, ∀ a b c : Work,
      a :: (xs ++ (b :: c :: (ys ++ zs))) = (a :: (xs ++ (b :: c :: ys))) ++ zs) by simp]
    refine Does.append ((does_readByte i n m s).imp (fun _ h => h) ?_) ?_
    · rintro r t ⟨hr, hx, h⟩
      exact ⟨hr, hx.elim (fun h => ⟨_, by omega, h⟩) (fun h => ⟨_, by omega, h⟩), h⟩
    rintro t ⟨hr, p, sh, ht⟩
    refine (Does.write (m := { t.master with shreg := 0xFF, sdaDir := .inward })
      (fun u => by simp [MicroOp.flow, PresetUse.flow, hd]) fun u hu => by
        rw [preset_master, hu]).imp ?_ (fun _ _ h => h)
    intro u hu
    have su : SameRx t u := .of_master hu rfl rfl
    rw [ht] at hu
    exact ⟨by rw [hd]; exact hr.same su, p, master_upto hu⟩
  | succ d ih =>
    have hi : (i + 1).toNat = i.toNat + 1 := by
      have := n.isLt
      rw [BitVec.toNat_add]; simp; omega
    rw [receiveByteProg_eq, show (∀ xs ys zs : List Work, ∀ a b c : Work,
      a :: (xs ++ (b :: c :: (ys ++ zs))) = (a :: (xs ++ (b :: c :: ys))) ++ zs) by simp]
    refine Does.append ((does_readByte i n m s).imp (fun _ h => h) ?_) ?_
    · rintro r t ⟨hr, hx, h⟩
      exact ⟨hr, hx.elim (fun h => ⟨_, by omega, h⟩) (fun h => ⟨_, by omega, h⟩), h⟩
    rintro t ⟨hr, p, sh, ht⟩
    have hlt : i.toNat + 1 < n.toNat := by omega
    refine Does.op
      (fun u _ h => by simp [plain, MicroOp.flow, PresetUse.flow, hlt] at h)
      (fun u r _ h => by simp [plain, MicroOp.flow, PresetUse.flow, hlt] at h)
      (fun u b _ => by simp [plain, MicroOp.flow, PresetUse.flow, hlt]) fun u more hu h => ?_
    have hm : more = receiveByteProg (i + 1) n none := by
      simpa [plain, MicroOp.flow, PresetUse.flow, hlt] using h.symm
    subst hm
    have hw : (commit u ((plain (.preset (.ackSent i n))).op.write u)
        ((plain (.preset (.ackSent i n))).op.event u)).master = { t.master with
          sdaDir := .inward, shreg := 0xFF } := by
      show (commit u (MicroOp.write (.preset (.ackSent i n)) u) _).master = _
      rw [← hu]; rfl
    generalize commit u ((plain (.preset (.ackSent i n))).op.write u)
        ((plain (.preset (.ackSent i n))).op.event u) = v at hw
    have hv : Receives i.toNat (i.toNat + 1) s v := hr.same (.of_master hw rfl rfl)
    rw [ht] at hw
    refine (ih (i + 1) none v (by omega)).imp ?_ ?_
    · rintro t' ⟨hf, p', ht'⟩
      rw [hi] at hf
      refine ⟨hv.trans hf, p', ?_⟩
      rw [stamp, hw] at ht'
      exact ht'
    · rintro r t' ⟨hr, ⟨k, hk, hf⟩, p', sh', c, dir, hc1, hc2, ht'⟩
      rw [hi] at hf
      refine ⟨hr, ⟨k, hk, hv.trans hf⟩, p', sh', c, dir, hc1, hc2, ?_⟩
      rw [stamp, hw] at ht'
      exact ht'

/-- The part of a state that no orchestrator operation writes. -/
def State.kept (s : State) : State :=
  { s.master with
    sclDrv := .rel, sdaForce := false, sdaDir := .inward, shreg := 0, cnt := 0, pollk := 0
    phase := .idle, rx := [], trace := [] }

theorem kept_of_master {s t x : State} (h : t.master = x) (hx : x.kept = s.kept) : t.kept = s.kept :=
  (congrArg State.kept h : t.master.kept = x.kept).trans hx

/-- The drivers, the data pin's direction and SHREG, off a master part. -/
theorem drivers_of_master {t x : State} (h : t.master = x) : t.sclDrv = x.sclDrv ∧
    t.sdaForce = x.sdaForce ∧ t.sdaDir = x.sdaDir ∧ t.shreg = x.shreg := by subst h; exact ⟨rfl, rfl, rfl, rfl⟩

/-- `Receive(N)` (`43_byte_engine.md` rules R230 to R232), for every Peer. -/
theorem does_receive (cfg : Config) (n : Half) (s : State) :
    Does (receiveProg cfg n) s
      (fun t => t.kept = s.kept ∧ t.stopDet = true ∧ t.sclDrv = .rel ∧ t.sdaForce = false ∧
        t.sdaDir = .outward ∧ Receives 0 n.toNat s t)
      (fun r t => t.kept = s.kept ∧
        ((r = .clockHighTimeout ∧ t.sclDrv = .rel ∧ ∃ k, k ≤ n.toNat ∧ Receives 0 k s t) ∨
        (r ∈ preCheckCodes .address ∧ t.sclDrv = .low ∧ SameRx s t) ∨
        (r = .addressNack ∧ t.sclDrv = .low ∧ t.sdaDir = .inward ∧ t.shreg = 0xFF ∧ SameRx s t) ∨
        (r = .missingStop ∧ t.sclDrv = .rel ∧ Receives 0 n.toNat s t))) := by
  refine Does.append (mid := fun t => t.kept = s.kept ∧ t.sclDrv = .low ∧ SameRx s t)
    ((does_start (some .started) s).imp ?_ ?_) ?_
  · rintro t ⟨-, p, ht⟩
    exact ⟨kept_of_master ht rfl, (drivers_of_master ht).1, .of_master ht rfl rfl⟩
  · rintro r t (⟨hr, p, ht⟩ | ⟨hr, -, p, ht⟩)
    · exact ⟨kept_of_master ht rfl, .inl ⟨hr, (drivers_of_master ht).1, 0, Nat.zero_le _,
        SameRx.receives (s := s) (.of_master ht rfl rfl) 0⟩⟩
    · exact ⟨kept_of_master ht rfl, .inr (.inl ⟨by simp [hr, preCheckCodes],
        (drivers_of_master ht).1, .of_master ht rfl rfl⟩)⟩
  rintro t1 ⟨k1, d1, s1⟩
  refine Does.append (mid := fun t => t.kept = s.kept ∧ SameRx s t)
    ((does_transmit .address _ (some .addressSent) t1).imp ?_ ?_) ?_
  · rintro t ⟨p, ht⟩
    exact ⟨kept_of_master ht k1, s1.trans (.of_master ht rfl rfl)⟩
  · rintro r t (⟨hr, ht⟩ | ⟨hr, p, sh, c, d, -, -, ht⟩ | ⟨hr, p, ht⟩)
    · exact ⟨kept_of_master ht k1, .inr (.inl ⟨hr, (drivers_of_master ht).1.trans d1,
        s1.trans (.of_master ht rfl rfl)⟩)⟩
    · exact ⟨kept_of_master ht k1, .inl ⟨hr, (drivers_of_master ht).1, 0, Nat.zero_le _,
        (s1.trans (.of_master ht rfl rfl)).receives 0⟩⟩
    · have hd := drivers_of_master ht
      exact ⟨kept_of_master ht k1, .inr (.inr (.inl ⟨hr, hd.1, hd.2.2.1, hd.2.2.2,
        s1.trans (.of_master ht rfl rfl)⟩))⟩
  rintro t2 ⟨k2, s2⟩
  have start : ∀ {k t}, Receives 0 k t2 t → Receives 0 k s t := fun h => (s2.receives 0).trans h
  refine Does.append (mid := fun t => t.kept = s.kept ∧ Receives 0 n.toNat s t) ?_ ?_
  · split
    · rename_i h0
      subst h0
      exact Does.nil ⟨k2, s2.receives 0⟩
    · rename_i h0
      have hn : n.toNat ≠ 0 := fun h => h0 (BitVec.eq_of_toNat_eq h)
      refine (does_receiveByte n (n.toNat - 1) 0 (some .receiving) t2 (by simp; omega)).imp ?_ ?_
      · rintro t ⟨hr, p, ht⟩
        exact ⟨kept_of_master ht k2, start hr⟩
      · rintro r t ⟨hr, ⟨k, hk, hx⟩, p, sh, c, dir, -, -, ht⟩
        exact ⟨kept_of_master ht k2, .inl ⟨hr, (drivers_of_master ht).1, k, hk, start hx⟩⟩
  rintro t3 ⟨k3, hx⟩
  refine (does_stop t3).imp ?_ ?_
  · rintro t ⟨hs, p, ht⟩
    have hd := drivers_of_master ht
    exact ⟨kept_of_master ht k3, hs, hd.1, hd.2.1, hd.2.2.1, hx.same (.of_master ht rfl rfl)⟩
  · rintro r t (⟨hr, p, ht⟩ | ⟨hr, -, p, ht⟩)
    · exact ⟨kept_of_master ht k3, .inl ⟨hr, (drivers_of_master ht).1, n.toNat, Nat.le_refl _,
        hx.same (.of_master ht rfl rfl)⟩⟩
    · exact ⟨kept_of_master ht k3, .inr (.inr (.inr ⟨hr, (drivers_of_master ht).1,
        hx.same (.of_master ht rfl rfl)⟩))⟩

end Sys2Proof.Machine
end

