-- ==== Sys2Proof/Laws/Commands.lean ====
section
/-! SUPPORT. What issuing a command can do: blocked, refused, or its micro-program run to the end; one lemma per
command that runs, so that a proof never unfolds `exec`. -/

namespace Sys2Proof.Machine

/-! ## Issuing -/

theorem command_blocked {s : State} (h : s.upc ≠ none) (i : Instr)
    (f : State → Host.Outcome State Fault Refusal) : command i s f = .refused .hostBlocked := by
  have : s.upc.isSome = true := by cases hu : s.upc <;> simp_all
  simp [command, this]

theorem command_refused {s : State} {i : Instr} {r : RefuseReason} (h : s.upc = none)
    (hr : refusal (commandClass i) s = some r) (f : State → Host.Outcome State Fault Refusal) :
    command i s f = .next (refuse s) := by simp [command, h, hr]

/-- The refusal of a command, by what rule R315's table looks at. -/
theorem refusal_eq (i : Instr) (s : State) : refusal (commandClass i) s =
    if s.sessOpen = true ∧ i.isMember = false then some .sessionOwnsBus
    else if s.sessOpen = false ∧ i.isMember = true then some .noSession
    else if s.sessOpen = false ∧ s.phase = .error ∧ i.continues = true then some .afterFault
    else none := by
  unfold refusal
  generalize s.sessOpen = o
  generalize s.phase = p
  cases o <;> cases i <;> cases p <;> rfl

theorem refuseReason_ok {w : Word} {i : Instr} (h : decode w = .ok i) (s : State) :
    refuseReason w s = refusal (commandClass i) s := by simp [refuseReason, h]

/-- What is not refused: rule R315's last sentence. -/
theorem refusal_eq_none {i : Instr} {s : State} (ho : s.sessOpen = i.isMember)
    (hp : ¬ (s.phase = .error ∧ i.continues = true)) : refusal (commandClass i) s = none := by
  rw [refusal_eq, ho]
  cases hm : i.isMember <;> simp
  simpa using hp

theorem command_runs {i : Instr} {s : State} (h : s.upc = none) (ho : s.sessOpen = i.isMember)
    (hp : ¬ (s.phase = .error ∧ i.continues = true))
    (f : State → Host.Outcome State Fault Refusal) : command i s f = f s := by
  simp [command, h, refusal_eq_none ho hp]

/-! ## The raw commands -/

theorem exec_bitx (n : BitCount) {s : State} (h : s.upc = none) (ho : s.sessOpen = false)
    (hp : s.phase ≠ .error) :
    exec (.bitx n) s = .next (run (proceed (.finish .bitx) (bitTransferProg n .give none) none s)) :=
  command_runs (i := .bitx n) h ho (fun h => hp h.1) _

theorem exec_start {s : State} (h : s.upc = none) (ho : s.sessOpen = false) :
    exec .start s = .next (run (proceed (.finish .start) (startProg none) none s)) :=
  command_runs (i := .start) h ho (fun h => nomatch h.2) _

theorem exec_stop {s : State} (h : s.upc = none) (ho : s.sessOpen = false) (hp : s.phase ≠ .error) :
    exec .stop s = .next (run (proceed (.finish .stop) stopProg none s)) :=
  command_runs (i := .stop) h ho (fun h => hp h.1) _

theorem exec_transmit (ph : TxPhase) (b : Byte) {s : State} (h : s.upc = none)
    (ho : s.sessOpen = false) (hp : s.phase ≠ .error) : exec (.transmit ph b) s =
      .next (run (proceed (.finish (.transmit ph)) (transmitProg ph b none) none s)) :=
  command_runs (i := .transmit ph b) h ho (fun h => hp h.1) _

theorem exec_receive (n : Half) {s : State} (h : s.upc = none) (ho : s.sessOpen = false) :
    exec (.receive n) s = .next (run (proceed (.finish .receive) (receiveProg s.cfg n) none s)) :=
  command_runs (i := .receive n) h ho (fun h => nomatch h.2) _

theorem exec_startSending {s : State} (h : s.upc = none) (ho : s.sessOpen = false) :
    exec .startSending s =
      .next (run (proceed (.finish .startSending) (startSendingProg s.cfg) none s)) :=
  command_runs (i := .startSending) h ho (fun h => nomatch h.2) _

theorem exec_send (b : Byte) {s : State} (h : s.upc = none) (ho : s.sessOpen = false)
    (hp : s.phase ≠ .error) :
    exec (.send b) s = .next (run (proceed (.finish .send) (transmitProg .data b none) none s)) :=
  command_runs (i := .send b) h ho (fun h => hp h.1) _

/-! ## The session commands -/

theorem exec_sOpen (step0 : Half) {s : State} (h : s.upc = none) (ho : s.sessOpen = false) :
    exec (.sOpen step0) s = .next (run (proceed (.sOpen (openingStep s.cfg step0))
      (startSendingProg s.cfg) none s)) :=
  command_runs (i := .sOpen step0) h ho (fun h => nomatch h.2) _

theorem exec_sSend_ok (b : Byte) {s : State} (h : s.upc = none) (ho : s.sessOpen = true)
    (hf : s.sessFault = some .ok) :
    exec (.sSend b) s = .next (run (proceed .sSend (transmitProg .data b none) none s)) := by
  rw [exec, execSSend, command_runs (i := .sSend b) h ho (fun h => nomatch h.2), if_pos hf, runProg]

theorem exec_sSend_faulted (b : Byte) {s : State} (h : s.upc = none) (ho : s.sessOpen = true)
    (hf : s.sessFault ≠ some .ok) :
    exec (.sSend b) s = .next (run { s with upc := some (.sess [] (.finish none .nothing)) }) := by
  rw [exec, execSSend, command_runs (i := .sSend b) h ho (fun h => nomatch h.2), if_neg hf, runSess]

theorem exec_sSendRepeated (count : Half) (b : Byte) {s : State} (h : s.upc = none)
    (ho : s.sessOpen = true) :
    exec (.sSendRepeated count b) s = .next (run (repeatLoop count.toNat b s)) := by
  rw [exec, execSSendRepeated, command_runs (i := .sSendRepeated count b) h ho (fun h => nomatch h.2)]

theorem exec_sValid {s : State} (h : s.upc = none) (ho : s.sessOpen = true) :
    exec .sValid s = .next (run { s with upc := some (.sess [] (.finish none .valid)) }) :=
  command_runs (i := .sValid) h ho (fun h => nomatch h.2) _

theorem exec_sReceive_ok (n : Half) {s : State} (h : s.upc = none) (ho : s.sessOpen = true)
    (hf : s.sessFault = some .ok) :
    exec (.sReceive n) s = .next (run (proceed .sReceive (receiveProg s.cfg n) none s)) := by
  rw [exec, execSReceive, command_runs (i := .sReceive n) h ho (fun h => nomatch h.2), if_pos hf, runProg]

theorem exec_sReceive_faulted (n : Half) {s : State} (h : s.upc = none) (ho : s.sessOpen = true)
    (hf : s.sessFault ≠ some .ok) : exec (.sReceive n) s =
      .next (run { s with upc := some (.sess [.openTo false] (.finish none .nothing)) }) := by
  rw [exec, execSReceive, command_runs (i := .sReceive n) h ho (fun h => nomatch h.2), if_neg hf, runSess]

theorem exec_sStop_ok {s : State} (h : s.upc = none) (ho : s.sessOpen = true)
    (hf : s.sessFault = some .ok) :
    exec .sStop s = .next (run (proceed .sStop stopProg none s)) := by
  rw [exec, execSStop, command_runs (i := .sStop) h ho (fun h => nomatch h.2), if_pos hf, runProg]

theorem exec_sStop_faulted {s : State} (h : s.upc = none) (ho : s.sessOpen = true)
    (hf : s.sessFault ≠ some .ok) : exec .sStop s =
      .next (run { s with upc := some (.sess [.openTo false] (.finish none .status)) }) := by
  rw [exec, execSStop, command_runs (i := .sStop) h ho (fun h => nomatch h.2), if_neg hf, runSess]

/-! ## Micro-programs in full -/

/-- A whole micro-program returns OK, or a fault, the same one to every command that runs it. -/
theorem Does.whole {ws : List Work} {s : State} {ok : State → Prop} {bad : FaultCode → State → Prop}
    (h : Does ws s ok bad) :
    (∃ t, ok t ∧ ∀ k, run (proceed k ws none s) = run (returnOp k .ok none t)) ∨
    (∃ r t, bad r t ∧ ∀ k, run (proceed k ws none s) = run (returnOp k r none t)) := by
  rcases h with ⟨t, ht, e⟩ | ⟨r, t, ht, e⟩
  · exact .inl ⟨t, ht, fun k => List.append_nil ws ▸ e k []⟩
  · exact .inr ⟨r, t, ht, fun k => List.append_nil ws ▸ e k []⟩

/-- A raw command has ended when its operation returns. -/
theorem run_returnOp_finish (op : OpKind) (r : FaultCode) (g : Option Byte) (s : State) :
    run (returnOp (.finish op) r g s) = finish op r g s := run_of_idle rfl

/-- A μSESS that closes its command: the Peer's turn, the assignments, and `finishS`. -/
theorem run_sess_finish (as : List SessAssign) (o : Option (OpKind × FaultCode)) (g : SessGive)
    (s : State) : ∃ u, u.master = s.master ∧ (s.peer = [] → ∃ x, u = { s with upc := x }) ∧
      run { s with upc := some (.sess as (.finish o g)) } =
        finishS o g (commit u (writeAll as u) (.sess as)) := by
  refine ⟨takeTurn s.peer { s with upc := some (.sess as (.finish o g)) }, by simp, fun h =>
    ⟨_, takeTurn_nil (s := { s with upc := some (.sess as (.finish o g)) }) h⟩, ?_⟩
  rw [run_turn (by simp)]
  have hu : (takeTurn s.peer { s with upc := some (.sess as (.finish o g)) }).upc =
      some (.sess as (.finish o g)) := by simp
  simp only [engineStep, hu, sessEnd]
  exact run_of_idle rfl

end Sys2Proof.Machine
end

