-- ==== Sys2Proof/Laws/Decode.lean ====
section
/-! SUPPORT. A packed word as a number, its fields, and a packed word under a mask. -/

namespace Sys2Proof

/-- The fields of a word at their places (rule R101). -/
theorem packWord_toNat (op : BitVec 4) (a : Bool) (imm : Half) (b : Byte) :
    (packWord op a imm b).toNat =
      op.toNat * 2 ^ 28 + (if a then 1 else 0) * 2 ^ 24 + imm.toNat * 2 ^ 8 + b.toNat := by
  have h1 : (packWord op a imm b).toNat = _ :=
    BitVec.toNat_append op (0#3 ++ (BitVec.ofBool a ++ (imm ++ b)))
  have hb := b.isLt
  have hi := imm.isLt
  rw [h1, BitVec.toNat_append, BitVec.toNat_append, BitVec.toNat_append]
  simp only [Nat.shiftLeft_eq]
  rw [Nat.mul_comm imm.toNat, ← Nat.two_pow_add_eq_or_of_lt hb, Nat.mul_comm (BitVec.ofBool a).toNat,
    ← Nat.two_pow_add_eq_or_of_lt (by omega), Nat.mul_comm (BitVec.toNat 0#3),
    ← Nat.two_pow_add_eq_or_of_lt (by cases a <;> simp <;> omega), Nat.mul_comm op.toNat,
    ← Nat.two_pow_add_eq_or_of_lt (by cases a <;> simp <;> omega)]
  cases a <;> simp <;> omega

@[simp] theorem packWord_op (op : BitVec 4) (a : Bool) (imm : Half) (b : Byte) :
    Word.op (packWord op a imm b) = op := by
  apply BitVec.eq_of_toNat_eq
  have := b.isLt; have := imm.isLt; have := op.isLt
  simp only [Word.op, BitVec.extractLsb'_toNat, packWord_toNat, Nat.shiftRight_eq_div_pow]
  cases a <;> simp <;> omega

@[simp] theorem packWord_rsv (op : BitVec 4) (a : Bool) (imm : Half) (b : Byte) :
    Word.rsv (packWord op a imm b) = 0 := by
  apply BitVec.eq_of_toNat_eq
  have := b.isLt; have := imm.isLt; have := op.isLt
  simp only [Word.rsv, BitVec.extractLsb'_toNat, packWord_toNat, Nat.shiftRight_eq_div_pow]
  cases a <;> simp <;> omega

@[simp] theorem packWord_modifier (op : BitVec 4) (a : Bool) (imm : Half) (b : Byte) :
    Word.modifier (packWord op a imm b) = a := by
  have := b.isLt; have := imm.isLt; have := op.isLt
  simp only [Word.modifier, BitVec.getLsbD, Nat.testBit, Nat.shiftRight_eq_div_pow, packWord_toNat]
  cases a <;> simp <;> omega

@[simp] theorem packWord_imm16 (op : BitVec 4) (a : Bool) (imm : Half) (b : Byte) :
    Word.imm16 (packWord op a imm b) = imm := by
  apply BitVec.eq_of_toNat_eq
  have := b.isLt; have := imm.isLt; have := op.isLt
  simp only [Word.imm16, BitVec.extractLsb'_toNat, packWord_toNat, Nat.shiftRight_eq_div_pow]
  cases a <;> simp <;> omega

@[simp] theorem packWord_byte (op : BitVec 4) (a : Bool) (imm : Half) (b : Byte) :
    Word.byte (packWord op a imm b) = b := by
  apply BitVec.eq_of_toNat_eq
  have := b.isLt; have := imm.isLt; have := op.isLt
  simp only [Word.byte, BitVec.extractLsb'_toNat, packWord_toNat, Nat.shiftRight_eq_div_pow]
  cases a <;> simp <;> omega

/-- A packed word masked field by field. -/
theorem packWord_and (op mo : BitVec 4) (mr : BitVec 3) (a : Bool) (ma : BitVec 1) (imm mi : Half)
    (b mb : Byte) : packWord op a imm b &&& (mo ++ (mr ++ (ma ++ (mi ++ mb))) : Word) =
      ((op &&& mo) ++ ((0#3 &&& mr) ++ ((BitVec.ofBool a &&& ma) ++ ((imm &&& mi) ++ (b &&& mb)))) :
        Word) := by
  rw [← BitVec.and_append (x₁ := imm), ← BitVec.and_append (x₁ := BitVec.ofBool a),
    ← BitVec.and_append (x₁ := 0#3)]
  exact BitVec.and_append

end Sys2Proof
end

