-- ==== Sys2Proof/Laws/PerInstr.lean ====
section
/-! SUPPORT. Families of statements, one lemma per command: `RowMatch`, that the encoder's word selects the
command's own row of rule R102's table. -/

namespace Sys2Proof.Laws.RowMatch

/-- The encoder's word matches the row with the command's mnemonic (rule R102). -/
def Statement (i : Instr) : Prop :=
  ∃ r ∈ opcodeTable, r.mnemonic = i.mnemonic ∧ r.selects (encode i) = true

/-- A row's mask and pattern in fields select a packed word when they do so field by field. -/
theorem selects_of_fields {name : String} {pat mask : Word} {op : BitVec 4} {a : Bool} {imm : Half}
    {b : Byte} (ma : BitVec 1) (mi : Half) (mb : Byte) (hm : mask = 15#4 ++ (7#3 ++ (ma ++ (mi ++ mb))))
    (ha : BitVec.ofBool a &&& ma = 0) (hi : imm &&& mi = 0) (hb : b &&& mb = 0)
    (hp : pat = op ++ (0#3 ++ (0#1 ++ (0#16 ++ 0#8)))) :
    OpcodeRow.selects ⟨name, pat, mask⟩ (packWord op a imm b) = true := by
  have ho : op &&& 15#4 = op := by
    have h := BitVec.and_allOnes (x := op)
    exact h
  have h := packWord_and op 15#4 7#3 a ma imm mi b mb
  rw [ho, ha, hi, hb] at h
  simp only [OpcodeRow.selects, beq_iff_eq, hm, hp]
  exact h

theorem bitx (n : BitCount) : Statement (.bitx n) :=
  ⟨opcodeTable[0], by decide, rfl, selects_of_fields 0 0xFFFF 0xFF (by decide) (by simp)
    (by simp) (by simp) (by decide)⟩

theorem start : Statement .start :=
  ⟨opcodeTable[1], by decide, rfl, selects_of_fields 1 0xFFFF 0xFF (by decide) (by simp)
    (by simp) (by simp) (by decide)⟩

theorem stop : Statement .stop :=
  ⟨opcodeTable[2], by decide, rfl, selects_of_fields 1 0xFFFF 0xFF (by decide) (by simp)
    (by simp) (by simp) (by decide)⟩

theorem transmit (ph : TxPhase) (b : Byte) : Statement (.transmit ph b) :=
  ⟨opcodeTable[3], by decide, rfl, selects_of_fields 0 0xFFFF 0 (by decide) (by simp)
    (by simp) (by simp) (by decide)⟩

theorem receive (n : Half) : Statement (.receive n) :=
  ⟨opcodeTable[4], by decide, rfl, selects_of_fields 1 0 0xFF (by decide) (by simp)
    (by simp) (by simp) (by decide)⟩

theorem startSending : Statement .startSending :=
  ⟨opcodeTable[5], by decide, rfl, selects_of_fields 1 0xFFFF 0xFF (by decide) (by simp)
    (by simp) (by simp) (by decide)⟩

theorem send (b : Byte) : Statement (.send b) :=
  ⟨opcodeTable[6], by decide, rfl, selects_of_fields 1 0xFFFF 0 (by decide) (by simp)
    (by simp) (by simp) (by decide)⟩

theorem sOpen (step0 : Half) : Statement (.sOpen step0) :=
  ⟨opcodeTable[7], by decide, rfl, selects_of_fields 1 0 0xFF (by decide) (by simp)
    (by simp) (by simp) (by decide)⟩

theorem sSend (b : Byte) : Statement (.sSend b) :=
  ⟨opcodeTable[8], by decide, rfl, selects_of_fields 1 0xFFFF 0 (by decide) (by simp)
    (by simp) (by simp) (by decide)⟩

theorem sSendRepeated (count : Half) (b : Byte) : Statement (.sSendRepeated count b) :=
  ⟨opcodeTable[9], by decide, rfl, selects_of_fields 1 0 0 (by decide) (by simp)
    (by simp) (by simp) (by decide)⟩

theorem sValid : Statement .sValid :=
  ⟨opcodeTable[10], by decide, rfl, selects_of_fields 1 0xFFFF 0xFF (by decide) (by simp)
    (by simp) (by simp) (by decide)⟩

theorem sReceive (n : Half) : Statement (.sReceive n) :=
  ⟨opcodeTable[11], by decide, rfl, selects_of_fields 1 0 0xFF (by decide) (by simp)
    (by simp) (by simp) (by decide)⟩

theorem sStop : Statement .sStop :=
  ⟨opcodeTable[12], by decide, rfl, selects_of_fields 1 0xFFFF 0xFF (by decide) (by simp)
    (by simp) (by simp) (by decide)⟩

end Sys2Proof.Laws.RowMatch
end

