-- ==== Sys2Proof/Laws/Turn.lean ====
section
/-! SUPPORT. Two things that let one run stand for another: the RESULT and VALUE from before a command do not
show in its run, and a Peer that never stretches the clock leaves SCL and LATCH to the engine. -/

namespace Sys2Proof.Machine

/-! ## What the end of a command overwrites -/

/-- `s` with other values in RESULT and VALUE. -/
def State.returning (s : State) (r : Option FaultCode) (v : Option Value) : State :=
  { s with result := r, value := v }

theorem returnOp_returning (k : Kont) (c : FaultCode) (g : Option Byte) (s : State)
    (r : Option FaultCode) (v : Option Value) :
    returnOp k c g (s.returning r v) = returnOp k c g s ∨
      (returnOp k c g (s.returning r v) = (returnOp k c g s).returning r v ∧
        (returnOp k c g s).upc ≠ none) := by
  cases k with
  | finish op => exact .inl rfl
  | _ => exact .inr ⟨rfl, by simp [returnOp]⟩

theorem proceed_returning (k : Kont) (ws : List Work) (g : Option Byte) (s : State)
    (r : Option FaultCode) (v : Option Value) :
    proceed k ws g (s.returning r v) = proceed k ws g s ∨
      (proceed k ws g (s.returning r v) = (proceed k ws g s).returning r v ∧
        (proceed k ws g s).upc ≠ none) := by
  cases ws with
  | nil => exact returnOp_returning k .ok g s r v
  | cons w rest => exact .inr ⟨rfl, by simp [proceed]⟩

theorem stamp_returning (m : Option Phase) (s : State) (r : Option FaultCode) (v : Option Value) :
    stamp m (s.returning r v) = (stamp m s).returning r v := by cases m <;> rfl

theorem repeatLoop_returning (n : Nat) (b : Byte) (s : State) (r : Option FaultCode)
    (v : Option Value) : repeatLoop n b (s.returning r v) = (repeatLoop n b s).returning r v ∧
      (repeatLoop n b s).upc ≠ none := by
  have hf : (s.returning r v).sessFault = s.sessFault := rfl
  unfold repeatLoop
  rw [hf]
  split
  · exact ⟨rfl, by simp [transmitProg, proceed]⟩
  · exact ⟨rfl, by simp⟩

theorem writeAll_returning (as : List SessAssign) (s : State) (r : Option FaultCode)
    (v : Option Value) : writeAll as (s.returning r v) = (writeAll as s).returning r v := by
  unfold writeAll
  induction as generalizing s with
  | nil => rfl
  | cons a as ih =>
    rw [List.foldl_cons, List.foldl_cons, ← ih]
    cases a <;> rfl

/-- A micro-step either ends its command, which writes RESULT and VALUE, or does not look at them. -/
theorem engineStep_returning (s : State) (h : s.upc ≠ none) (r : Option FaultCode) (v : Option Value) :
    engineStep (s.returning r v) = engineStep s ∨
      (engineStep (s.returning r v) = (engineStep s).returning r v ∧ (engineStep s).upc ≠ none) := by
  have hu : (s.returning r v).upc = s.upc := rfl
  unfold engineStep
  rw [hu]
  match hs : s.upc with
  | none => exact absurd hs h
  | some (.sess as e) =>
    have hc : ∀ k, commit (s.returning r v) ((writeAll as s).returning r v) k =
        (commit s (writeAll as s) k).returning r v := fun _ => rfl
    simp only [writeAll_returning, hc]
    cases e with
    | finish op g => exact .inl rfl
    | again c left b =>
      simp only [sessEnd]
      exact .inr (repeatLoop_returning left b
        (stamp (some (nextPhase .send c _)) (commit s (writeAll as s) (.sess as))) r v)
  | some (.op w rest k) =>
    have hf : w.op.flow (s.returning r v) = w.op.flow s := by cases w.op <;> rfl
    have hc : commit (s.returning r v) (w.op.write (s.returning r v)) (w.op.event (s.returning r v)) =
        (commit s (w.op.write s) (w.op.event s)).returning r v := by cases w.op <;> rfl
    simp only [hf, hc]
    cases w.op.flow s with
    | next g => simpa only [stamp_returning] using proceed_returning k rest g _ r v
    | again more => exact proceed_returning k (more ++ rest) none _ r v
    | stop c => exact returnOp_returning k c none _ r v

theorem takeTurn_returning (ms : List PeerMove) (s : State) (r : Option FaultCode)
    (v : Option Value) : takeTurn ms (s.returning r v) = (takeTurn ms s).returning r v := by
  induction ms generalizing s with
  | nil => rfl
  | cons m ms ih =>
    cases m with
    | pass => rfl
    | scl b => exact ih (peerStep (.scl b) { s with peer := ms })
    | sda b => exact ih (peerStep (.sda b) { s with peer := ms })

theorem engineBudget_takeTurn (ms : List PeerMove) (s : State) :
    engineBudget (takeTurn ms s) = engineBudget s := by
  induction ms generalizing s with
  | nil => rfl
  | cons m ms ih =>
    cases m with
    | pass => rfl
    | scl b => exact (ih _).trans (engineBudget_peerStep (.scl b) { s with peer := ms })
    | sda b => exact (ih _).trans (engineBudget_peerStep (.sda b) { s with peer := ms })

/-- RESULT and VALUE from before a command do not show in its run. -/
theorem run_returning {s : State} (h : s.upc ≠ none) (r : Option FaultCode) (v : Option Value) :
    run (s.returning r v) = run s := by
  generalize hm : engineBudget s = n
  induction n using Nat.strongRecOn generalizing s with
  | _ n ih =>
    have ht : (takeTurn s.peer s).upc ≠ none := by simpa using h
    rw [run_turn (s := s.returning r v) h, run_turn h]
    show run (engineStep (takeTurn s.peer (s.returning r v))) = _
    rw [takeTurn_returning]
    rcases engineStep_returning _ ht r v with e | ⟨e, hu⟩
    · rw [e]
    · rw [e]
      refine ih _ ?_ hu rfl
      have := engineBudget_engineStep ht
      have := engineBudget_takeTurn s.peer s
      omega

/-! ## A Peer that never stretches the clock -/

/-- While the Peer never holds SCL low, SCL is what the master makes it. -/
theorem neverStretched_scl {s : State} (h : s.neverStretched) : s.scl = (s.sclDrv == .rel) := by
  have h1 := h.1
  cases hd : s.sclDrv <;> simp [State.scl, State.pullsScl, h1, hd]

/-- Such a Peer's turn leaves SCL and LATCH, and its events show no rising edge of SCL. -/
theorem takeTurn_neverStretched (ms : List PeerMove) (s : State) (h : s.peerSclLow = false)
    (hm : ∀ m ∈ ms, m ≠ .scl true) : (takeTurn ms s).neverStretched ∧ (takeTurn ms s).scl = s.scl ∧
      (takeTurn ms s).latch = s.latch ∧ ∃ es, (takeTurn ms s).trace = es ++ s.trace ∧
        ∀ e ∈ es, e.scl = s.scl ∧ e.kind.byEngine = false := by
  induction ms generalizing s with
  | nil => exact ⟨⟨h, by simp [takeTurn]⟩, rfl, rfl, [], rfl, by simp⟩
  | cons m ms ih =>
    have hms : ∀ x ∈ ms, x ≠ .scl true := fun x hx => hm x (List.mem_cons_of_mem _ hx)
    cases m with
    | pass => exact ⟨⟨h, hms⟩, rfl, rfl, [], rfl, by simp⟩
    | scl b =>
      have hb : b = false := by
        cases b with
        | false => rfl
        | true => exact absurd rfl (hm (.scl true) (List.mem_cons_self ..))
      subst hb
      obtain ⟨h1, h2, h3, es, h4, h5⟩ := ih (peerStep (.scl false) { s with peer := ms }) rfl hms
      have hs : (peerStep (.scl false) { s with peer := ms }).scl = s.scl := by
        show (!s.pullsScl && !false) = (!s.pullsScl && !s.peerSclLow)
        rw [h]
      have hl : (peerStep (.scl false) { s with peer := ms }).latch = s.latch := by
        show (if (!s.scl && (peerStep (.scl false) { s with peer := ms }).scl) = true then _ else _) = _
        rw [hs]; cases s.scl <;> rfl
      refine ⟨h1, h2.trans hs, h3.trans hl, es ++ [⟨.peerScl false, s.scl, s.sda⟩], ?_, ?_⟩
      · show (takeTurn ms (peerStep (.scl false) { s with peer := ms })).trace = _
        rw [h4, List.append_assoc, ← hs]; rfl
      · intro e he
        rcases List.mem_append.mp he with he | he
        · rw [← hs]; exact h5 e he
        · rw [List.mem_singleton.mp he]; exact ⟨rfl, rfl⟩
    | sda b =>
      obtain ⟨h1, h2, h3, es, h4, h5⟩ := ih (peerStep (.sda b) { s with peer := ms }) h hms
      have hl : (peerStep (.sda b) { s with peer := ms }).latch = s.latch := by
        show (if (!s.scl && s.scl) = true then _ else _) = _
        cases s.scl <;> rfl
      refine ⟨h1, h2, h3.trans hl, es ++ [⟨.peerSda b, s.scl,
        (peerStep (.sda b) { s with peer := ms }).sda⟩], ?_, ?_⟩
      · show (takeTurn ms (peerStep (.sda b) { s with peer := ms })).trace = _
        rw [h4, List.append_assoc]; rfl
      · intro e he
        rcases List.mem_append.mp he with he | he
        · exact h5 e he
        · rw [List.mem_singleton.mp he]; exact ⟨rfl, rfl⟩

/-- Events that leave SCL as it is show no rising edge. -/
theorem riseSamples_append_still {scl : Bool} {es rest : List Event} (h : ∀ e ∈ es, e.scl = scl) :
    riseSamples scl (es ++ rest) = riseSamples scl rest := by
  induction es with
  | nil => rfl
  | cons e es ih =>
    have he := h e (List.mem_cons_self ..)
    have := ih fun x hx => h x (List.mem_cons_of_mem _ hx)
    rw [List.cons_append, riseSamples, he]
    cases scl <;> simp [this]

end Sys2Proof.Machine
end

