-- ==== Sys2Proof/Tests/Slice0.lean ====
section
/-! SUPPORT. The model's own tests. Every expected value is one of `95_test_vectors.md` (its label stands in the
test's comment) or is read off the rule cited. The witnesses of the statements' hypotheses stand at the end. -/

namespace Sys2Proof.Tests

open Sys2Proof Sys2Proof.Machine

/-! ## WellFormed: each check refuses (`30_encoding.md` rules R103 and R107) -/

theorem test_wf_refuses_bit_count :
    (AsmLine.bitx 2).problem = some .badBitCount ∧ (AsmLine.bitx 0).wf = false := by decide

theorem test_wf_refuses_byte :
    (AsmLine.transmit .data 256).problem = some .byteOutOfRange ∧
    (AsmLine.send 256).problem = some .byteOutOfRange ∧
    (AsmLine.sSend 256).problem = some .byteOutOfRange ∧
    (AsmLine.sSendRepeated 3 256).problem = some .byteOutOfRange := by decide

theorem test_wf_refuses_half :
    (AsmLine.receive 65536).problem = some .halfOutOfRange ∧
    (AsmLine.sOpen 65536).problem = some .halfOutOfRange ∧
    (AsmLine.sReceive 65536).problem = some .halfOutOfRange ∧
    (AsmLine.sSendRepeated 65536 0).problem = some .halfOutOfRange := by decide

theorem test_wf_accepts_the_bounds :
    (AsmLine.bitx 1).wf = true ∧ (AsmLine.bitx 8).wf = true ∧ (AsmLine.send 255).wf = true ∧
    (AsmLine.receive 65535).wf = true ∧ (AsmLine.sSendRepeated 65535 255).wf = true ∧
    (AsmLine.address .send).wf = true := by decide

/-- Rule R108 with the setting of section 0.1: ADDRESS Send is TRANSMIT addr, 0x78. -/
theorem test_assemble_address :
    assemble Config.ofVectors (.address .send) = .ok (.transmit .address 0x78) ∧
    assemble Config.ofVectors (.address .receive) = .ok (.transmit .address 0x79) := by decide

/-! ## Decoding (section 2.1): the words bit by bit, OP RSV A IMM16 BYTE -/

theorem test_decode_bitx :
    decode 0b0001_000_0_0000000000000000_00000000#32 = .ok (.bitx .one) ∧
    decode 0b0001_000_1_0000000000000000_00000000#32 = .ok (.bitx .eight) := by decide

theorem test_decode_conditions :
    decode 0b0010_000_0_0000000000000000_00000000#32 = .ok .start ∧
    decode 0b0011_000_0_0000000000000000_00000000#32 = .ok .stop := by decide

theorem test_decode_transmit :
    decode 0b0100_000_1_0000000000000000_01111000#32 = .ok (.transmit .address 0x78) ∧
    decode 0b0100_000_0_0000000000000000_10101111#32 = .ok (.transmit .data 0xAF) := by decide

theorem test_decode_receive :
    decode 0b0101_000_0_0000000000000010_00000000#32 = .ok (.receive 2) ∧
    decode 0b0101_000_0_1111111111111111_00000000#32 = .ok (.receive 65535) := by decide

theorem test_decode_orchestrator :
    decode 0b0110_000_0_0000000000000000_00000000#32 = .ok .startSending ∧
    decode 0b0111_000_0_0000000000000000_11111111#32 = .ok (.send 0xFF) := by decide

theorem test_decode_session :
    decode 0b1000_000_0_0000000000000101_00000000#32 = .ok (.sOpen 5) ∧
    decode 0b1001_000_0_0000000000000000_10101111#32 = .ok (.sSend 0xAF) ∧
    decode 0b1010_000_0_0000000000000011_00000000#32 = .ok (.sSendRepeated 3 0) ∧
    decode 0b1010_000_0_1111111111111111_11111111#32 = .ok (.sSendRepeated 65535 0xFF) ∧
    decode 0b1011_000_0_0000000000000000_00000000#32 = .ok .sValid ∧
    decode 0b1100_000_0_0000000000000010_00000000#32 = .ok (.sReceive 2) ∧
    decode 0b1101_000_0_0000000000000000_00000000#32 = .ok .sStop := by decide

/-- The IllegalCommand rows of section 2.1. -/
theorem test_decode_refuses :
    [0x00000000, 0x12000000, 0x100000FF, 0x21000000, 0x20000001, 0x40000100, 0x43000078, 0x50000201,
      0x51000200, 0x71000000, 0x81000000, 0xA2000000, 0xB0000100, 0xD0000001, 0xE0000000, 0xF0000000,
      0xFFFFFFFF].all (fun w : Word => decode w == .error .illegalCommand) = true := by decide

/-- The encoder writes the words of section 2.1. -/
theorem test_encode :
    encode (.bitx .eight) = 0x11000000 ∧ encode (.transmit .address 0x78) = 0x41000078 ∧
    encode (.receive 2) = 0x50000200 ∧ encode (.sSendRepeated 3 0) = 0xA0000300 ∧
    encode .sStop = 0xD0000000 := by decide

/-- The host's numbering of a row's bits is the word's own. -/
theorem test_decodeTableWord :
    decodeTableWord 32 0x41000078 = some (.transmit .address 0x78) ∧
    decodeTableWord 32 0x00000000 = none := by decide

/-! ## The Delay derivation (E7) -/

theorem test_delayCycles :
    delayCycles 0 8000000 = 0 ∧ delayCycles (-3) 1000000 = 0 ∧ delayCycles (47 / 10) 8000000 = 38 ∧
    delayCycles (1 / 1000) 1000000 = 1 ∧ delayCycles (13 / 10) 20000000 = 26 ∧
    delayCycles 5 16000000 = 80 := by decide +kernel

/-! ## One command from a small state -/

/-- The next state of an outcome, or the reset state where there is none. -/
def after (o : Host.Outcome State Fault Refusal) : State :=
  match o with
  | .next t => t
  | .fault _ => State.reset
  | .refused _ => State.reset

/-- One host step that issues the word `w` with the Peer moves `ms` to come. -/
def issue (w : Word) (ms : List PeerMove) (s : State) : State :=
  after (step { s with cmds := [w], peer := ms, trace := [] })

/-- RESULT, ENGSTAT and the micro-steps made, as the tables of `95_test_vectors.md` list them. -/
def shows (r : FaultCode) (w : BitVec 16) (n : Nat) (s : State) : Bool :=
  s.result == some r && s.engstat == w && s.microSteps == n

/-- POLL_BOUND = 4 (sections 2.3 to 2.8). -/
def poll4 : State := { State.reset with cfg := { Config.ofVectors with pollBoundPred := 3 } }

/-- The state after an OK START from reset (section 2.5, S1). -/
def started : State :=
  { State.reset with sclDrv := .low, sdaDir := .outward, startDet := true, phase := .started }

/-- The state after an OK START_SENDING from reset (E2). -/
def addressed : State := { State.reset with sclDrv := .low, phase := .addressSent }

/-- An open session whose sticky fault is `f`, at step `n`. -/
def session (f : FaultCode) (n : Nat) : State :=
  { addressed with
    sessOpen := true, sessFault := some f, sessStep := some n
    phase := if f = .ok then .addressSent else .error }

/-- Section 2.4, X1. -/
theorem test_bitx_quiet :
    (shows .ok 0x0000 51 (issue 0x11000000 [] State.reset) &&
      (issue 0x11000000 [] State.reset).value == some (.byte 0xFF)) = true := by decide +kernel

/-- Section 2.4, X2: pulse 1's sample is the reset LATCH. -/
theorem test_bitx_stale_latch :
    (shows .ok 0x0020 51 (issue 0x11000000 [] { State.reset with peerSdaLow := true }) &&
      (issue 0x11000000 [] { State.reset with peerSdaLow := true }).value ==
        some (.byte 0x80)) = true := by decide +kernel

/-- Rule R172: every pulse of a BITX 8 stretched through at most POLL_BOUND − 1 = 3 reads, with the
51 micro-steps of rule R366 and one more for each failed read. -/
theorem test_bitx_stretched :
    (shows .ok 0x0000 67 (issue 0x11000000
      (.pass :: [3, 0, 1, 2, 3, 3, 1, 3].flatMap stretchTurn) poll4)) = true := by decide +kernel

/-- Section 2.5, S1. -/
theorem test_start_ok : shows .ok 0x0109 7 (issue 0x20000000 [] State.reset) = true := by
  decide +kernel

/-- Section 2.3: SCL held low through four reads is a time-out; section 2.5, S3. -/
theorem test_start_timeout :
    (shows .clockHighTimeout 0x0046 5 (issue 0x20000000 [] { poll4 with peerSclLow := true }) &&
      (issue 0x20000000 [] { poll4 with peerSclLow := true }).pollk == 4) = true := by decide +kernel

/-- Section 2.6, P2. -/
theorem test_stop_on_idle_bus :
    shows .ok 0x015D 7 (issue 0x30000000 [] State.reset) = true := by decide +kernel

/-- Section 2.6, P3: a device holds SDA low. -/
theorem test_stop_missing :
    shows .missingStop 0x0166 7 (issue 0x30000000 [] { addressed with peerSdaLow := true }) = true := by
  decide +kernel

/-- Section 2.7, T1, with its wire. -/
theorem test_transmit_acked :
    (shows .ok 0x0002 64 (issue 0x41000078 ackTurn started) &&
      riseSamples false (issue 0x41000078 ackTurn started).trace.reverse ==
        [false, true, true, true, true, false, false, false, false]) = true := by decide +kernel

/-- Section 2.7, T11: a stretch that begins after pulse 2's μSHIFT and never ends. -/
theorem test_transmit_timeout :
    let s := issue 0x41000078 (passes 16 ++ [.scl true]) { started with cfg := poll4.cfg }
    (shows .clockHighTimeout 0x0146 22 s && s.shreg == 0xE1 && s.cnt == 6) = true := by decide +kernel

/-- Section 2.8, RV1. -/
theorem test_receive_two :
    let s := issue 0x50000200 (senderTurns [0xA5, 0x3C]) State.reset
    (shows .ok 0x0155 204 s && s.rx == [(0, 0xA5), (1, 0x3C)]) = true := by decide +kernel

/-- Section 2.8, RV2: no Stop after an AddressNack, and RX untouched. -/
theorem test_receive_nack :
    let s := issue 0x50000100 [] State.reset
    (shows .addressNack 0x0006 71 s && s.rx == []) = true := by decide +kernel

/-- PR3's first command. -/
theorem test_startSending :
    shows .ok 0x0002 71 (issue 0x60000000 ackStart State.reset) = true := by decide +kernel

/-- Section 2.7, T6 with SEND for TRANSMIT data (rule R108). -/
theorem test_send_nack :
    shows .dataNack 0x0006 64 (issue 0x700000AF [] addressed) = true := by decide +kernel

/-- Section 2.7, T4 with SEND: the stop check. -/
theorem test_send_unexpectedStop :
    shows .unexpectedStop 0x0156 1 (issue 0x70000000 []
      { State.reset with sdaDir := .outward, stopDet := true, phase := .stopped }) = true := by
  decide +kernel

/-- PR5's first command: STEP_WIDTH = 4. -/
theorem test_sOpen_step :
    let s := issue 0x80000E00 ackStart
      { State.reset with cfg := { Config.ofVectors with stepWidthPred := 3 } }
    (s.result == some .ok && s.microSteps == 72 && s.sessOpen && s.sessStep == some 14) = true := by
  decide +kernel

/-- S_OPEN's step0 is reduced modulo 2^STEP_WIDTH (rule R272): 21 mod 16 = 5. -/
theorem test_sOpen_wraps :
    (issue 0x80001500 [] { State.reset with cfg := { Config.ofVectors with stepWidthPred := 3 } }).sessStep
      = some 5 := by decide +kernel

/-- PR1's second command. -/
theorem test_sSend_ok :
    let s := issue 0x90000000 ackTurn (session .ok 0)
    (s.result == some .ok && s.microSteps == 65 && s.sessStep == some 1 && s.phase == .sending) = true := by
  decide +kernel

/-- E1, after the fault: nothing but one μSESS. -/
theorem test_sSend_faulted :
    let s := issue 0x900000AF [] (session .dataNack 3)
    (s.result == some .dataNack && s.microSteps == 1 && s.sessStep == some 3 && s.shreg == 0xFF) = true := by
  decide +kernel

/-- PR2's third command: 2 bytes forwarded, the second not acknowledged, 2 skipped. -/
theorem test_sSendRepeated_stops_at_the_fault :
    let s := issue 0xA0000400 (ackTurn ++ [.pass]) (session .ok 1)
    (s.result == some .dataNack && s.microSteps == 131 && s.sessStep == some 3 &&
      s.phase == .error) = true := by decide +kernel

/-- PR5's second command: 14 + 3 = 1 modulo 16, in 196 micro-steps. -/
theorem test_sSendRepeated_wraps :
    let s := issue 0xA0000300 (List.replicate 3 (ackTurn ++ [.pass])).flatten
      { session .ok 14 with cfg := { Config.ofVectors with stepWidthPred := 3 } }
    (s.result == some .ok && s.microSteps == 196 && s.sessStep == some 1) = true := by decide +kernel

/-- PR2's fourth command, and PR5's third. -/
theorem test_sValid :
    let s := issue 0xB0000000 [] (session .dataNack 3)
    let t := issue 0xB0000000 [] (session .ok 1)
    (s.value == some (.valid false) && s.result == some .dataNack && s.microSteps == 1 &&
      t.value == some (.valid true)) = true := by decide +kernel

/-- PR6's third command. -/
theorem test_sReceive :
    let s := issue 0xC0000200 (senderTurns [0x5A, 0xC3]) { session .ok 1 with phase := .sending }
    (shows .ok 0x0155 205 s && s.rx == [(0, 0x5A), (1, 0xC3)] && s.sessStep == some 1) = true := by
  decide +kernel

/-- PR1's last command. -/
theorem test_sStop_ok :
    let s := issue 0xD0000000 [] { session .ok 2 with phase := .sending }
    (shows .ok 0x0155 8 s && s.value == some (.status .ok 2)) = true := by decide +kernel

/-- PR2's fifth command: no Stop. -/
theorem test_sStop_faulted :
    let s := issue 0xD0000000 [] (session .dataNack 3)
    (s.value == some (.status .dataNack 3) && s.microSteps == 1 && s.sclDrv == .low &&
      s.sessOpen == false) = true := by decide +kernel

/-! ## Refusals (`60_exceptions.md` rules R311 to R315) -/

/-- Section 2.4, X6; section 2.5, S7; PR6's `S_STOP`; and section 2.1's first word. -/
theorem test_refusals :
    [(0x11000000, { State.reset with phase := .error }), (0x20000000, session .ok 0),
      (0xD0000000, State.reset), (0x00000000, State.reset)].all (fun c : Word × State =>
        issue c.1 [] c.2 == { c.2 with refused := true }) = true := by decide +kernel

/-- The reason column of rule R315, with rule R311's order: IllegalCommand before SessionOwnsBus before
AfterFault. -/
theorem test_refuse_reasons :
    [(0xE0000000, session .dataNack 0, some RefuseReason.illegalCommand),
      (0x11000000, session .dataNack 0, some .sessionOwnsBus), (0x20000000, session .ok 0, some .sessionOwnsBus),
      (0x80000000, session .ok 0, some .sessionOwnsBus),
      (0x30000000, { State.reset with phase := .error }, some .afterFault),
      (0x20000000, { State.reset with phase := .error }, none), (0xB0000000, State.reset, some .noSession),
      (0xD0000000, session .dataNack 0, none)].all (fun c : Word × State × Option RefuseReason =>
        refuseReason c.1 c.2.1 == c.2.2) = true := by decide +kernel

/-! ## Witnesses: states and operands that meet the hypotheses of each statement, clause by clause -/

theorem witness_EncodeInvertsDecode : decode 0x50FFFF00 = .ok (.receive 65535) := by decide

theorem witness_WordIsCommandIffOneRowSelectsIt :
    ((⟨"SEND", 0x70000000, 0xFFFFFF00⟩ : OpcodeRow) ∈ opcodeTable ∧
      OpcodeRow.selects ⟨"SEND", 0x70000000, 0xFFFFFF00⟩ 0x700000AF = true) ∧
    decode 0x700000AF = .ok (.send 0xAF) ∧
    (State.reset.upc = none ∧ { State.reset with cmds := [0xE0000000] }.cmds = [0xE0000000] ∧
      ∀ r ∈ opcodeTable, r.selects 0xE0000000 = false) := by decide

theorem witness_AddressPrefixLayout : Config.ofVectors.devAddr = 0x3C := rfl

theorem witness_HostReadsHeldValuesOnly :
    (State.reset.upc = none ∧ State.reset.result = none ∧ State.reset.value = none ∧
      State.reset.sessFault = none ∧ State.reset.sessStep = none ∧
      State.reset.rx.read (65535 : Half).toNat = none) ∧
    (session .ok 3).sessFault = some .ok ∧ (session .ok 3).sessStep = some 3 ∧
    { State.reset with result := some .ok }.result = some .ok ∧
    { State.reset with value := some (.valid true) }.value = some (.valid true) ∧
    { State.reset with rx := [(0, 0xA5)] }.rx.read (0 : Half).toNat = some 0xA5 ∧
    (proceed (.finish .start) (startProg none) none State.reset).upc ≠ none := by decide

theorem witness_DelayDerivationLaws :
    (0 : Rat) ≤ 0 ∧ (0 : Rat) < 1 / 1000 ∧ 0 < 1000000 ∧ (1 / 10 : Rat) ≤ 1 / 8 := by decide +kernel

theorem witness_StepRunsTheDecodedCommand :
    State.reset.upc = none ∧ { State.reset with cmds := [0x20000000] }.cmds = [0x20000000] ∧
    decode 0x20000000 = .ok .start ∧ 0x20000000 < 2 ^ 32 ∧
    decode (BitVec.ofNat 32 0x20000000) = .ok .start := by decide

theorem witness_IdleMachineKeepsItsState :
    State.reset.upc = none ∧ State.reset.cmds = [] ∧ State.reset.peer = [] ∧
    { State.reset with peer := [.sda true] }.peer = [.sda true] := by decide

theorem witness_HostHasNoMoveWhileACommandRuns :
    (proceed (.finish .start) (startProg none) none State.reset).upc ≠ none := by decide

theorem witness_RefusalTable :
    ((session .ok 0).upc = none ∧ (session .ok 0).sessOpen = true ∧ Instr.start.isMember = false) ∧
    ({ State.reset with phase := .error }.sessOpen = false ∧
      { State.reset with phase := .error }.phase = .error ∧ Instr.stop.continues = true) ∧
    (State.reset.sessOpen = false ∧ Instr.sStop.isMember = true) ∧
    (State.reset.sessOpen = Instr.start.isMember ∧
      ¬ (State.reset.phase = .error ∧ Instr.start.continues = true)) ∧
    (session .ok 0).sessOpen = Instr.sStop.isMember ∧
    (∀ r ∈ opcodeTable, r.selects 0 = false) ∧ decode 0xD0000000 = .ok .sStop ∧
    { State.reset with cmds := [0xD0000000] }.cmds = [0xD0000000] ∧
    refuseReason 0xD0000000 { State.reset with cmds := [0xD0000000] } = some .noSession ∧
    refuseReason 0x20000000 { State.reset with cmds := [0x20000000] } = none := by decide

theorem witness_NoStepMovesBothLines :
    ∃ op : MicroOp, op = .beginBits .eight ∨ op = .readScl ∨ op = .wait .idle ∨ op = .check .startMade ∨
      op = .writeRx 65535 0 := ⟨_, .inl rfl⟩

theorem witness_DetectorSeesEveryCondition :
    (∀ n m rest k, (proceed (.finish .start) (startProg none) none State.reset).upc ≠
      some (.op ⟨.beginBits n, m⟩ rest k)) ∧
    (proceed (.finish .bitx) (bitTransferProg .one .give none) none State.reset).upc =
      some (.op ⟨.beginBits .one, none⟩
        (pulseProg ++ [plain (.wait .postTransfer), { op := .preset .give, mark := none }])
        (.finish .bitx)) := by
  constructor
  · intro n m rest k h
    cases h
  · rfl

/-- A START from reset answers a next state: the hypothesis of the frames over all commands and of
`MicroStepCounts`, `FaultsByCommand`, `ClockHeldBetweenCommands` and `StartSendingIsStartThenAddress`. -/
theorem witness_start_answers :
    ∃ t, exec .start State.reset = .next t ∧ t.result = some .ok ∧ State.reset.upc = none ∧
      State.reset.sessOpen = Instr.start.isMember ∧
      ¬ (State.reset.phase = .error ∧ Instr.start.continues = true) ∧ State.reset.peer = [] ∧
      Instr.start.isRaw = true :=
  ⟨_, rfl, by decide +kernel, rfl, rfl, by decide, rfl, rfl⟩

/-- The other case of `StartSendingIsStartThenAddress`: START returns a fault. -/
theorem witness_start_faults :
    ∃ t, exec .start { poll4 with peerSclLow := true } = .next t ∧ t.result ≠ some .ok :=
  ⟨_, rfl, by decide +kernel⟩

/-- `BitxOutcomes`, with SCL released on entry and held low. -/
theorem witness_neverStretched : State.reset.neverStretched ∧ { State.reset with
    peer := ackStart }.neverStretched ∧ started.neverStretched ∧ started.sclDrv = .low ∧
    State.reset.sclDrv = .rel := ⟨⟨rfl, by decide⟩, ⟨rfl, by decide +kernel⟩, ⟨rfl, by decide⟩, rfl, rfl⟩

/-- The second clause of `MicroStepCounts`: a Peer that lets SCL go before the first read. -/
theorem witness_MicroStepCounts_best :
    ∃ t es, exec (.bitx .one) { addressed with peerSclLow := true, peer := [.scl false] } = .next t ∧
      t.result = some .ok ∧ t.trace = es ++ addressed.trace ∧
      ∀ e ∈ es, e.kind ≠ .readScl false :=
  ⟨_, _, rfl, by decide +kernel, (List.append_nil _).symm, by decide +kernel⟩

/-- A faulted session's S_SEND answers a next state: the last clause of `MicroStepCounts`. -/
theorem witness_MicroStepCounts_faulted :
    ∃ t, exec (.sSend 0xAF) (session .dataNack 3) = .next t ∧ (session .dataNack 3).upc = none ∧
      (session .dataNack 3).sessOpen = true ∧ (Instr.sSend 0xAF).isMember = true ∧
      (session .dataNack 3).sessFault ≠ some .ok := ⟨_, rfl, rfl, rfl, rfl, by decide⟩

/-- Every clause of the frames over all commands has a command that answers a next state. -/
theorem witness_frames :
    (∃ t, exec (.bitx .one) State.reset = .next t) ∧ (∃ t, exec .stop State.reset = .next t) ∧
    (∃ t, exec (.transmit .data 0) State.reset = .next t) ∧
    (∃ t, exec (.send 0) State.reset = .next t) ∧ (∃ t, exec (.receive 2) State.reset = .next t) ∧
    (∃ t, exec (.sOpen 5) State.reset = .next t) ∧
    (∃ t, exec (.sSend 0) (session .ok 0) = .next t) ∧
    (∃ t, exec (.sSendRepeated 3 0) (session .ok 0) = .next t) ∧
    (∃ t, exec .sValid (session .ok 0) = .next t) ∧
    (∃ t, exec (.sReceive 2) (session .ok 0) = .next t) ∧
    (∃ t, exec .sStop (session .ok 0) = .next t) ∧ { State.reset with refused := true }.refused = true :=
  ⟨⟨_, rfl⟩, ⟨_, rfl⟩, ⟨_, rfl⟩, ⟨_, rfl⟩, ⟨_, rfl⟩, ⟨_, rfl⟩, ⟨_, rfl⟩, ⟨_, rfl⟩, ⟨_, rfl⟩, ⟨_, rfl⟩,
    ⟨_, rfl⟩, rfl⟩

theorem reset_inv : State.reset.Inv where
  idle := rfl
  rxWf := rfl
  cntRange := by decide
  pollkRange := by decide
  sessTogether := rfl
  sessHeld := by decide
  stepRange := by intro n h; cases h
  sessOk := by intro h; cases h
  sessFaulted := by intro h; cases h
  notReceiving := by decide
  forceOnlyInError := by decide

theorem session_inv : (session .ok 3).Inv where
  idle := rfl
  rxWf := rfl
  cntRange := by decide
  pollkRange := by decide
  sessTogether := rfl
  sessHeld := by decide
  stepRange := by intro n h; cases h; decide +kernel
  sessOk := by decide
  sessFaulted := by decide
  notReceiving := by decide
  forceOnlyInError := by decide

theorem witness_StepKeepsInvariant :
    ∃ t, State.reset.Inv ∧ step { State.reset with cmds := [0x20000000] } = .next t ∧
      { State.reset with cmds := [0x20000000] }.Inv :=
  ⟨_, reset_inv, rfl, ⟨rfl, rfl, by decide, by decide, rfl, by decide, by (intro n h; cases h),
    by (intro h; cases h), by (intro h; cases h), by decide, by decide⟩⟩

theorem witness_SessionFaultMatchesPhase :
    ∃ t, (session .ok 3).Inv ∧ exec .sValid (session .ok 3) = .next t ∧ t.sessOpen = true :=
  ⟨_, session_inv, rfl, by decide +kernel⟩

/-- The premises of the raw commands' outcomes, at reset. -/
theorem witness_raw_outcomes :
    State.reset.upc = none ∧ State.reset.sessOpen = false ∧ State.reset.phase ≠ .error ∧
    State.reset.peer = [] := by decide

/-- With either bit count. -/
theorem witness_BitxSamplesWhatItPresents :
    started.upc = none ∧ started.sessOpen = false ∧ started.phase ≠ .error ∧ started.peer = [] ∧
    started.sclDrv = .low ∧ started.sdaDir = .outward ∧ started.sdaForce = false ∧
    started.peerSclLow = false ∧ started.peerSdaLow = false := by decide

theorem witness_StartOnAFreeBus :
    State.reset.upc = none ∧ State.reset.sessOpen = false ∧ State.reset.peer = [] ∧
    State.reset.busFree := ⟨rfl, rfl, rfl, rfl, rfl, rfl⟩

theorem witness_a_command_times_out :
    ∃ t, exec (.sSend 0xAF) { session .ok 3 with cfg := poll4.cfg, peerSclLow := true } = .next t ∧
      t.result = some .clockHighTimeout ∧
      (session .ok 3).sessOpen = (Instr.sSend 0xAF).isMember ∧
      (session .ok 3).sessFault = some .ok := ⟨_, rfl, by decide +kernel, rfl, rfl⟩

theorem witness_a_held_clock :
    { addressed with peerSclLow := true }.peer = [] ∧ (Instr.send 0xAF).isRaw = true ∧
    ¬ (addressed.phase = .error ∧ (Instr.send 0xAF).continues = true) ∧
    checkCode (.transmit .data) { addressed with peerSclLow := true } = .ok := by decide

theorem witness_HeldClockTimesOutAfterPollBoundReads :
    { State.reset with peerSclLow := true }.upc = none ∧
    { State.reset with peerSclLow := true }.sessOpen = false ∧
    { State.reset with peerSclLow := true }.peer = [] ∧
    { State.reset with peerSclLow := true }.peerSclLow = true := by decide

/-- The first clause of `StretchWithinPollBoundIsTolerated`: no read of 0 at all. -/
theorem witness_no_run_of_failed_reads :
    ∃ t es, exec .start poll4 = .next t ∧ t.trace = es ++ poll4.trace ∧
      ¬ List.replicate (pollBound poll4.cfg) (EventKind.readScl false) <:+: engineKinds es :=
  ⟨_, _, rfl, (List.append_nil _).symm, by decide +kernel⟩

/-- Its clauses for STOP and BITX, with the most failed reads that are tolerated, POLL_BOUND = 4. -/
theorem witness_stretched_stop_and_bitx :
    (addressed.phase ≠ .error ∧ addressed.shreg.msb = true ∧ 3 < pollBound poll4.cfg ∧
      { poll4 with peer := passes 5 ++ [PeerMove.scl false] }.peer = passes (3 + 2) ++ [.scl false]) ∧
    [3].length = pulses .one ∧ [3, 0, 1, 2, 3, 0, 1, 3].length = pulses .eight ∧
    ∀ k ∈ [3, 0, 1, 2, 3, 0, 1, 3], k < pollBound poll4.cfg := by decide

/-- The most failed reads that are tolerated, with POLL_BOUND = 4. -/
theorem witness_StretchWithinPollBoundIsTolerated :
    let s := { poll4 with peerSclLow := true, peer := passes 4 ++ [PeerMove.scl false] }
    s.upc = none ∧ s.sessOpen = false ∧ s.peerSclLow = true ∧ s.peerSdaLow = false ∧
    s.pullsSda = false ∧ 3 < pollBound s.cfg ∧ s.peer = passes (3 + 1) ++ [.scl false] := by decide

theorem witness_StopReleasesTheBus :
    addressed.upc = none ∧ addressed.sessOpen = false ∧ addressed.phase ≠ .error ∧
    addressed.peer = [] ∧ addressed.sclDrv = .low ∧ addressed.peerSclLow = false ∧
    addressed.peerSdaLow = false ∧ addressed.shreg.msb = true := by decide

/-- Each of the four codes of `TransmitChecksInOrder` has a state; the conditions before it pass. -/
theorem witness_TransmitChecksInOrder :
    (State.reset.startDet = false ∧ State.reset.phase ≠ .error) ∧
    (started.startDet = true ∧ started.phase ≠ .error) ∧
    ({ addressed with stopDet := true }.startDet = false ∧
      { addressed with stopDet := true }.stopDet = true) ∧
    ({ addressed with peerSdaLow := true }.startDet = false ∧
      { addressed with peerSdaLow := true }.stopDet = false ∧
      { addressed with peerSdaLow := true }.shreg.msb ≠ { addressed with peerSdaLow := true }.sda) ∧
    ({ started with peerSdaLow := true }.startDet = true ∧
      { started with peerSdaLow := true }.shreg.msb ≠ { started with peerSdaLow := true }.sda) := by
  decide

/-- `TransmitCarriesTheByteToAnAckingPeer` and `TransmitReadsNackFromASilentPeer`, in both phases. -/
theorem witness_transmit_passes_its_checks :
    ({ started with peer := ackTurn }.upc = none ∧ { started with peer := ackTurn }.sessOpen = false ∧
      started.phase ≠ .error ∧ started.peerSclLow = false ∧ started.peerSdaLow = false ∧
      started.sdaForce = false ∧ started.startDet = true ∧ started.shreg.msb = started.sda ∧
      started.peer = []) ∧
    (addressed.phase ≠ .error ∧ addressed.sdaForce = false ∧ addressed.startDet = false ∧
      addressed.stopDet = false ∧ addressed.shreg.msb = addressed.sda) := by decide

theorem witness_StartSendingAddressesTheDevice :
    { State.reset with peer := ackStart }.upc = none ∧
    { State.reset with peer := ackStart }.sessOpen = false ∧
    { State.reset with peer := ackStart }.busFree ∧
    { State.reset with peer := ackStart }.peer = ackStart := ⟨rfl, rfl, ⟨rfl, rfl, rfl⟩, rfl⟩

theorem witness_ReceiveFillsTheBufferInTransferOrder :
    { State.reset with peer := senderTurns [0xA5, 0x3C] }.upc = none ∧
    { State.reset with peer := senderTurns [0xA5, 0x3C] }.sessOpen = false ∧
    { State.reset with peer := senderTurns [0xA5, 0x3C] }.busFree ∧
    [(0xA5 : Byte), 0x3C].length = (2 : Half).toNat := ⟨rfl, rfl, ⟨rfl, rfl, rfl⟩, rfl⟩

/-- With a Peer that is done when START_SENDING ends, as its last clause asks. -/
theorem witness_SOpenPerformsStartSending :
    ∃ t u, u.peer = [] ∧ State.reset.upc = none ∧ State.reset.sessOpen = false ∧
      exec (.sOpen 5) State.reset = .next t ∧ exec .startSending State.reset = .next u :=
  ⟨_, _, by decide +kernel, rfl, rfl, rfl, rfl⟩

/-- The last clause of `SSendForwards`: TRANSMIT data from the same state with the session closed. -/
theorem witness_SSendForwards :
    ∃ u, u.peer = [] ∧ (session .ok 3).phase ≠ .error ∧
      exec (.transmit .data 0xAF) { session .ok 3 with sessOpen := false } = .next u :=
  ⟨_, by decide +kernel, by decide, rfl⟩

/-- The last clauses of `SReceiveEndsTheSession` and `SStopGivesTheStatus`: RECEIVE and STOP from the same
state with the session closed. -/
theorem witness_SReceiveEndsTheSession :
    ∃ u, u.peer = [] ∧ exec (.receive 2) { session .ok 3 with sessOpen := false } = .next u :=
  ⟨_, by decide +kernel, rfl⟩

theorem witness_SStopGivesTheStatus :
    ∃ u, u.peer = [] ∧ (session .ok 3).phase ≠ .error ∧
      exec .stop { session .ok 3 with sessOpen := false } = .next u :=
  ⟨_, by decide +kernel, by decide, rfl⟩

/-- The premises of the statements about an open session: `SSendForwards`,
`SSendRepeatedCountsForwardedSends` (with the largest step), `SValidAnswersTheStickyFault`,
`SReceiveEndsTheSession`, `SStopGivesTheStatus`. -/
theorem witness_session_ok :
    (session .ok 65535).upc = none ∧ (session .ok 65535).sessOpen = true ∧
    (session .ok 65535).sessFault = some .ok ∧ (session .ok 65535).sessStep = some 65535 ∧
    65535 < 2 ^ stepWidth (session .ok 65535).cfg ∧ (session .ok 65535).peer = [] := by decide +kernel

/-- The second clause of `SSendRepeatedCountsForwardedSends`, with the largest count. -/
theorem witness_SSendRepeated_copies :
    (∃ t, exec (.sSend 0) (session .ok 0) = .next t) ∧ (65534 : Half).toNat + 1 ≤ 65535 :=
  ⟨⟨_, rfl⟩, by decide⟩

/-- `FaultedSessionTouchesNoHardware` and `FirstFaultWins`. -/
theorem witness_session_faulted :
    (session .dataNack 3).upc = none ∧ (session .dataNack 3).sessOpen = true ∧
    (session .dataNack 3).sessFault = some .dataNack ∧ FaultCode.dataNack ≠ .ok ∧
    (session .dataNack 3).sessStep = some 3 ∧ (session .dataNack 3).peer = [] := by decide

/-- `SessionCommandsCompleteWithOk`, its three clauses. -/
theorem witness_SessionCommandsCompleteWithOk :
    { State.reset with peer := ackStart }.busFree ∧
    ({ session .ok 1 with peer := ackTurn }.upc = none ∧ (session .ok 1).sessOpen = true ∧
      (session .ok 1).sessFault = some .ok ∧ (session .ok 1).sessStep = some 1 ∧
      (session .ok 1).peerSclLow = false ∧ (session .ok 1).peerSdaLow = false ∧
      (session .ok 1).sdaForce = false ∧ (session .ok 1).startDet = false ∧
      (session .ok 1).stopDet = false ∧ (session .ok 1).shreg.msb = (session .ok 1).sda) ∧
    ((session .ok 1).sclDrv = .low ∧ (session .ok 1).shreg.msb = true ∧ (session .ok 1).peer = []) :=
  ⟨⟨rfl, rfl, rfl⟩, by decide, by decide⟩

/-- `SessionLoopsCompleteWithOk`, its two clauses: no byte, and two. -/
theorem witness_SessionLoopsCompleteWithOk :
    (session .ok 1).peer = (List.replicate (0 : Half).toNat (ackTurn ++ [.pass])).flatten ∧
    { session .ok 1 with peer := (List.replicate (2 : Half).toNat (ackTurn ++ [PeerMove.pass])).flatten }.peer =
      (List.replicate (2 : Half).toNat (ackTurn ++ [.pass])).flatten ∧
    { session .ok 1 with peer := senderTurns [] }.busFree ∧
    ([] : List Byte).length = (0 : Half).toNat ∧
    { session .ok 1 with peer := senderTurns [0x5A, 0xC3] }.busFree ∧
    [(0x5A : Byte), 0xC3].length = (2 : Half).toNat :=
  ⟨rfl, rfl, ⟨rfl, rfl, rfl⟩, rfl, ⟨rfl, rfl, rfl⟩, rfl⟩

end Sys2Proof.Tests
end

section
/-! PROOFS. What issuing a command comes to, said once for all 13 commands: it is blocked, it is refused, or it is
launched and run to its end (`launched`). -/

namespace Sys2Proof.Machine

/-! ## Issuing a command -/

/-- Every command goes through the host's issue. -/
theorem exec_eq_command (i : Instr) (s : State) : ∃ launch, exec i s = command i s launch := by
  cases i with
  | sSend b => rw [exec, execSSend]; exact ⟨_, rfl⟩
  | sSendRepeated count b => rw [exec, execSSendRepeated]; exact ⟨_, rfl⟩
  | sReceive n => rw [exec, execSReceive]; exact ⟨_, rfl⟩
  | sStop => rw [exec, execSStop]; exact ⟨_, rfl⟩
  | _ => exact ⟨_, rfl⟩

theorem exec_blocked {s : State} (h : s.upc ≠ none) (i : Instr) :
    exec i s = .refused .hostBlocked := by
  obtain ⟨launch, e⟩ := exec_eq_command i s
  rw [e, command_blocked h]

theorem exec_refused {i : Instr} {s : State} {r : RefuseReason} (h : s.upc = none)
    (hr : refusal (commandClass i) s = some r) : exec i s = .next (refuse s) := by
  obtain ⟨launch, e⟩ := exec_eq_command i s
  rw [e, command_refused h hr]

/-- The state a command that is neither blocked nor refused starts from: `s` with UPC at its first
micro-step. -/
def launched : Instr → State → State
  | .bitx n, s => proceed (.finish .bitx) (bitTransferProg n .give none) none s
  | .start, s => proceed (.finish .start) (startProg none) none s
  | .stop, s => proceed (.finish .stop) stopProg none s
  | .transmit ph b, s => proceed (.finish (.transmit ph)) (transmitProg ph b none) none s
  | .receive n, s => proceed (.finish .receive) (receiveProg s.cfg n) none s
  | .startSending, s => proceed (.finish .startSending) (startSendingProg s.cfg) none s
  | .send b, s => proceed (.finish .send) (transmitProg .data b none) none s
  | .sOpen step0, s => proceed (.sOpen (openingStep s.cfg step0)) (startSendingProg s.cfg) none s
  | .sSend b, s =>
    if s.sessFault = some .ok then proceed .sSend (transmitProg .data b none) none s
    else { s with upc := some (.sess [] (.finish none .nothing)) }
  | .sSendRepeated count b, s => repeatLoop count.toNat b s
  | .sValid, s => { s with upc := some (.sess [] (.finish none .valid)) }
  | .sReceive n, s =>
    if s.sessFault = some .ok then proceed .sReceive (receiveProg s.cfg n) none s
    else { s with upc := some (.sess [.openTo false] (.finish none .nothing)) }
  | .sStop, s =>
    if s.sessFault = some .ok then proceed .sStop stopProg none s
    else { s with upc := some (.sess [.openTo false] (.finish none .status)) }

/-- A command that runs is its launch, run to the end. -/
theorem exec_launched {i : Instr} {s : State} (h : s.upc = none) (ho : s.sessOpen = i.isMember)
    (hp : ¬ (s.phase = .error ∧ i.continues = true)) : exec i s = .next (run (launched i s)) := by
  cases i with
  | bitx n => exact exec_bitx n h ho fun he => hp ⟨he, rfl⟩
  | start => exact exec_start h ho
  | stop => exact exec_stop h ho fun he => hp ⟨he, rfl⟩
  | transmit ph b => exact exec_transmit ph b h ho fun he => hp ⟨he, rfl⟩
  | receive n => exact exec_receive n h ho
  | startSending => exact exec_startSending h ho
  | send b => exact exec_send b h ho fun he => hp ⟨he, rfl⟩
  | sOpen step0 => exact exec_sOpen step0 h ho
  | sSend b =>
    rw [launched]
    split
    · exact exec_sSend_ok b h ho ‹_›
    · exact exec_sSend_faulted b h ho ‹_›
  | sSendRepeated count b => exact exec_sSendRepeated count b h ho
  | sValid => exact exec_sValid h ho
  | sReceive n =>
    rw [launched]
    split
    · exact exec_sReceive_ok n h ho ‹_›
    · exact exec_sReceive_faulted n h ho ‹_›
  | sStop =>
    rw [launched]
    split
    · exact exec_sStop_ok h ho ‹_›
    · exact exec_sStop_faulted h ho ‹_›

/-- The commands that would continue a faulted conversation are raw ones (rule R312). -/
theorem isMember_of_continues {i : Instr} (h : i.continues = true) : i.isMember = false := by
  cases i with
  | sSend | sSendRepeated | sValid | sReceive | sStop => cases h
  | _ => rfl

/-- All that a command which answers a next state can have done. -/
theorem exec_cases {i : Instr} {s t : State} (h : exec i s = .next t) : s.upc = none ∧
    (t = refuse s ∨ (s.sessOpen = i.isMember ∧ ¬ (s.phase = .error ∧ i.continues = true) ∧
      t = run (launched i s))) := by
  by_cases hu : s.upc = none
  · refine ⟨hu, ?_⟩
    cases hr : refusal (commandClass i) s with
    | some r =>
      rw [exec_refused hu hr, Host.Outcome.next.injEq] at h
      exact .inl h.symm
    | none =>
      have ho : s.sessOpen = i.isMember := by
        rw [refusal_eq] at hr
        cases hs : s.sessOpen <;> cases hm : i.isMember <;> simp [hs, hm] at hr ⊢
      have hp : ¬ (s.phase = .error ∧ i.continues = true) := by
        rintro ⟨he, hc⟩
        rw [refusal_eq, ho, isMember_of_continues hc] at hr
        simp [he, hc] at hr
      rw [exec_launched hu ho hp, Host.Outcome.next.injEq] at h
      exact .inr ⟨ho, hp, h.symm⟩
  · rw [exec_blocked hu] at h
    cases h

/-- The head of S_SEND_REPEATED's loop writes UPC only. -/
theorem repeatLoop_eq (n : Nat) (b : Byte) (s : State) :
    ∃ x, repeatLoop n b s = { s with upc := x } := by
  unfold repeatLoop
  split <;> exact ⟨_, rfl⟩

/-- A launch writes UPC only. -/
theorem launched_eq (i : Instr) (s : State) : ∃ x, launched i s = { s with upc := x } := by
  cases i with
  | sSend b => rw [launched]; split <;> exact ⟨_, rfl⟩
  | sReceive n => rw [launched]; split <;> exact ⟨_, rfl⟩
  | sStop => rw [launched]; split <;> exact ⟨_, rfl⟩
  | sSendRepeated count b => exact repeatLoop_eq count.toNat b s
  | _ => exact ⟨_, rfl⟩

@[simp] theorem launched_cfg (i : Instr) (s : State) : (launched i s).cfg = s.cfg := by
  obtain ⟨x, e⟩ := launched_eq i s
  rw [e]
@[simp] theorem launched_cnt (i : Instr) (s : State) : (launched i s).cnt = s.cnt := by
  obtain ⟨x, e⟩ := launched_eq i s
  rw [e]
@[simp] theorem launched_pollk (i : Instr) (s : State) : (launched i s).pollk = s.pollk := by
  obtain ⟨x, e⟩ := launched_eq i s
  rw [e]
@[simp] theorem launched_rx (i : Instr) (s : State) : (launched i s).rx = s.rx := by
  obtain ⟨x, e⟩ := launched_eq i s
  rw [e]
@[simp] theorem launched_peerSclLow (i : Instr) (s : State) : (launched i s).peerSclLow = s.peerSclLow := by
  obtain ⟨x, e⟩ := launched_eq i s
  rw [e]
@[simp] theorem launched_peerSdaLow (i : Instr) (s : State) : (launched i s).peerSdaLow = s.peerSdaLow := by
  obtain ⟨x, e⟩ := launched_eq i s
  rw [e]
@[simp] theorem launched_refused (i : Instr) (s : State) : (launched i s).refused = s.refused := by
  obtain ⟨x, e⟩ := launched_eq i s
  rw [e]
@[simp] theorem launched_trace (i : Instr) (s : State) : (launched i s).trace = s.trace := by
  obtain ⟨x, e⟩ := launched_eq i s
  rw [e]
@[simp] theorem launched_cmds (i : Instr) (s : State) : (launched i s).cmds = s.cmds := by
  obtain ⟨x, e⟩ := launched_eq i s
  rw [e]
@[simp] theorem launched_peer (i : Instr) (s : State) : (launched i s).peer = s.peer := by
  obtain ⟨x, e⟩ := launched_eq i s
  rw [e]

/-- Settles O15: every command goes through the host's issue, which is blocked while another runs. -/
theorem hostHasNoMoveWhileACommandRuns : Obligations.HostHasNoMoveWhileACommandRuns :=
  fun i _ h => exec_blocked h i

/-! ## What a run leaves when the Peer makes no move -/

/-- Only Peer steps write the Peer's drivers (`10_state.md` rule R47). -/
theorem run_quiet_peer {s : State} (h : s.peer = []) : (run s).peer = [] ∧
    (run s).peerSclLow = s.peerSclLow ∧ (run s).peerSdaLow = s.peerSdaLow := by
  refine run_induct (P := fun t => t.peer = [] ∧ t.peerSclLow = s.peerSclLow ∧
    t.peerSdaLow = s.peerSdaLow) (fun t _ ⟨hp, hc, hd⟩ => ?_) ⟨h, rfl, rfl⟩
  have ht : tick t = engineStep t := by simp [tick, hp]
  simp [ht, hp, hc, hd]

/-- Settles O20: a refusal writes REFUSED only, and every atomic step of a run keeps these fields and adds to
TRACE. -/
theorem commandsKeepConfigAndHistory : Obligations.CommandsKeepConfigAndHistory := by
  intro i s t h
  obtain ⟨-, rfl | ⟨-, -, rfl⟩⟩ := exec_cases h
  · exact ⟨rfl, rfl, fun _ => rfl, ⟨[], rfl⟩, fun hp => ⟨hp, rfl, rfl⟩⟩
  · obtain ⟨es, he⟩ := run_trace (launched i s)
    refine ⟨by simp, by simp, by simp, ⟨es, by simpa using he⟩, fun hp => ?_⟩
    simpa using run_quiet_peer (s := launched i s) (by simpa using hp)

end Sys2Proof.Machine
end

section
/-! PROOFS. Every run keeps CNT and POLLK in their ranges. -/

namespace Sys2Proof.Machine

/-! ## The ranges of CNT and POLLK (`10_state.md` rules R40 and R41) -/

theorem opWrite_cnt_le {s : State} (h : s.cnt ≤ 8) (op : MicroOp) : (op.write s).cnt ≤ 8 := by
  cases op with
  | beginBits n => cases n <;> simp [MicroOp.write, pulses]
  | shift => exact Nat.le_trans (Nat.sub_le ..) h
  | _ => exact h

theorem engineStep_cnt_le {s : State} (h : s.cnt ≤ 8) : (engineStep s).cnt ≤ 8 := by
  unfold engineStep
  split
  · exact h
  · simpa using h
  · split <;> simpa using opWrite_cnt_le h _

/-- Every run keeps CNT in its range. -/
theorem run_cnt_le {s : State} (h : s.cnt ≤ 8) : (run s).cnt ≤ 8 :=
  run_induct_agents (P := fun t => t.cnt ≤ 8) (fun _ _ h => h) (fun _ _ h => engineStep_cnt_le h)
    (fun t m h => by simpa using h) h

/-- A read of the running poll is still to come. -/
def pollPending (u : Option Upc) : Bool :=
  match u with
  | some (.op w rest _) => pollDue (w :: rest)
  | _ => false

/-- POLLK is in its range, and below POLL_BOUND while a read of its poll is to come. -/
def State.pollInRange (s : State) : Prop :=
  s.pollk ≤ pollBound s.cfg ∧ (pollPending s.upc = true → s.pollk < pollBound s.cfg)

theorem returnOp_pollPending (k : Kont) (r : FaultCode) (g : Option Byte) (s : State) :
    pollPending (returnOp k r g s).upc = false := by cases k <;> rfl

theorem proceed_pollPending (k : Kont) (ws : List Work) (g : Option Byte) (s : State) :
    pollPending (proceed k ws g s).upc = pollDue ws := by
  cases ws with
  | nil => exact returnOp_pollPending k .ok g s
  | cons w rest => rfl

theorem repeatLoop_pollPending (n : Nat) (b : Byte) (s : State) :
    pollPending (repeatLoop n b s).upc = false := by
  unfold repeatLoop
  split <;> rfl

theorem sessEnd_pollPending (e : SessEnd) (s : State) : pollPending (sessEnd e s).upc = false := by
  cases e with
  | finish o g => rfl
  | again r left b => exact repeatLoop_pollPending left b _

theorem launched_pollPending (i : Instr) (s : State) : pollPending (launched i s).upc = false := by
  cases i with
  | sSend b => rw [launched]; split <;> rfl
  | sReceive n => rw [launched]; split <;> rfl
  | sStop => rw [launched]; split <;> rfl
  | sSendRepeated count b => exact repeatLoop_pollPending count.toNat b s
  | _ => rfl

/-- POLLK after a micro-step stays in its range. -/
theorem opWrite_pollk_le {w : Work} {rest : List Work} {s : State} (h : s.pollk ≤ pollBound s.cfg)
    (hd : pollDue (w :: rest) = true → s.pollk < pollBound s.cfg) :
    (w.op.write s).pollk ≤ pollBound s.cfg := by
  obtain ⟨op, m⟩ := w
  cases op with
  | sclRel => exact Nat.zero_le _
  | readScl =>
    have := hd rfl
    simp only [MicroOp.write]
    split <;> omega
  | _ => exact h

/-- A micro-step that goes on leaves POLLK below POLL_BOUND for a read that is to come. -/
theorem opWrite_pollk_lt_of_next {w : Work} {rest : List Work} {s : State} {g : Option Byte}
    (hd : pollDue (w :: rest) = true → s.pollk < pollBound s.cfg) (hf : w.op.flow s = .next g)
    (hr : pollDue rest = true) : (w.op.write s).pollk < pollBound s.cfg := by
  obtain ⟨op, m⟩ := w
  cases op with
  | sclRel => exact pollBound_pos s.cfg
  | readScl =>
    cases hl : s.scl with
    | true => simpa [MicroOp.write, hl] using hd rfl
    | false =>
      simp only [MicroOp.flow, hl, Bool.false_eq_true, if_false] at hf
      split at hf <;> cases hf
  | _ => exact hd hr

/-- So does a micro-step that puts more in front: the next read of a poll, a pulse, or a use of a value. -/
theorem opWrite_pollk_lt_of_again {w : Work} {rest more : List Work} {s : State}
    (hd : pollDue (w :: rest) = true → s.pollk < pollBound s.cfg) (hf : w.op.flow s = .again more)
    (hr : pollDue (more ++ rest) = true) : (w.op.write s).pollk < pollBound s.cfg := by
  obtain ⟨op, m⟩ := w
  cases op with
  | readScl =>
    simp only [MicroOp.flow] at hf
    split at hf
    · cases hf
    · rename_i hl
      split at hf
      · cases hf
      · simp only [MicroOp.write, hl]
        exact Nat.lt_of_not_le ‹_›
  | shift =>
    simp only [MicroOp.flow] at hf
    split at hf
    · cases hf
    · cases hf
      cases hr
  | preset use =>
    cases use with
    | toRx i => cases hf; exact hd hr
    | ackSent i n =>
      simp only [MicroOp.flow, PresetUse.flow] at hf
      split at hf
      · cases hf
        rw [pollDue_receiveByteProg] at hr
        cases hr
      · cases hf
    | ack ph => exact absurd hf (Flow.ofCode_ne_again _ _)
    | _ => cases hf
  | check c => exact absurd hf (Flow.ofCode_ne_again _ _)
  | _ => cases hf

theorem engineStep_pollInRange {s : State} (h : s.pollInRange) : (engineStep s).pollInRange := by
  obtain ⟨hle, hlt⟩ := h
  unfold State.pollInRange
  match hu : s.upc with
  | none => simp [engineStep, hu, hle, pollPending]
  | some (.sess as e) => simp [engineStep, hu, hle, sessEnd_pollPending]
  | some (.op w rest k) =>
    rw [hu] at hlt
    have hw := opWrite_pollk_le hle hlt
    rw [engineStep_op hu, afterOp]
    split
    · rename_i g hf
      simpa [proceed_pollPending, hw] using opWrite_pollk_lt_of_next hlt hf
    · rename_i more hf
      simpa [proceed_pollPending, hw] using opWrite_pollk_lt_of_again hlt hf
    · simpa [returnOp_pollPending] using hw

/-- Every run keeps POLLK in its range. -/
theorem run_pollInRange {s : State} (h : s.pollInRange) : (run s).pollInRange :=
  run_induct_agents (P := State.pollInRange) (fun _ _ h => h) (fun _ _ h => engineStep_pollInRange h)
    (fun t m h => by simpa [State.pollInRange] using h) h

end Sys2Proof.Machine
end

section
/-! PROOFS. What every orchestrator operation keeps when it returns to its command: the registers of `State.kept`,
and SDA_FORCE, SHREG or CNT where it does not use them. -/

namespace Sys2Proof.Machine

/-- Run from `s`, the operation `ws` returns `r` in state `t`, whichever command runs it. -/
def Returns (ws : List Work) (s : State) (r : FaultCode) (t : State) : Prop :=
  ∀ k, run (proceed k ws none s) = run (returnOp k r none t)

/-- Run from `s`, the operation `ws` keeps the registers of `State.kept`, and it leaves SDA_FORCE clear when it
returns OK. -/
def Orderly (ws : List Work) (s : State) : Prop :=
  ∃ r t, Returns ws s r t ∧ t.kept = s.kept ∧ (r = .ok → t.sdaForce = false)

/-- A whole operation returns a code in a state of which `Q` holds. -/
theorem Does.returns {ws : List Work} {s : State} {ok : State → Prop} {bad : FaultCode → State → Prop}
    (h : Does ws s ok bad) {Q : FaultCode → State → Prop} (hok : ∀ t, ok t → Q .ok t)
    (hbad : ∀ r t, bad r t → Q r t) : ∃ r t, Returns ws s r t ∧ Q r t := by
  rcases h.whole with ⟨t, ht, e⟩ | ⟨r, t, ht, e⟩
  · exact ⟨.ok, t, e, hok t ht⟩
  · exact ⟨r, t, e, hbad r t ht⟩

/-! CNT and PHASE, off a master part. -/

theorem cnt_of_master {s t x : State} (h : t.master = x) (hx : x.cnt = s.cnt) : t.cnt = s.cnt :=
  (congrArg State.cnt h : t.master.cnt = x.cnt).trans hx

theorem phase_of_master {s t x : State} (h : t.master = x) (hx : x.phase = s.phase) :
    t.phase = s.phase :=
  (congrArg State.phase h : t.master.phase = x.phase).trans hx

/-- `Start()` leaves SHREG and CNT, and SDA_FORCE clear when it returns OK (`42_conditions.md` rules R200
and R201). -/
theorem returns_start (s : State) : ∃ r t, Returns (startProg none) s r t ∧
    t.kept = s.kept ∧ t.shreg = s.shreg ∧ t.cnt = s.cnt ∧ (r = .ok → t.sdaForce = false) := by
  refine (does_start none s).returns ?_ ?_
  · rintro t ⟨-, p, ht⟩
    obtain ⟨-, hf, -, hsh⟩ := drivers_of_master ht
    exact ⟨kept_of_master ht rfl, hsh, cnt_of_master ht rfl, fun _ => hf⟩
  · rintro r t (⟨rfl, p, ht⟩ | ⟨rfl, -, p, ht⟩) <;>
      exact ⟨kept_of_master ht rfl, (drivers_of_master ht).2.2.2, cnt_of_master ht rfl, nofun⟩

/-- So does `Stop()` (rules R205 and R206). -/
theorem returns_stop (s : State) : ∃ r t, Returns stopProg s r t ∧
    t.kept = s.kept ∧ t.shreg = s.shreg ∧ t.cnt = s.cnt ∧ (r = .ok → t.sdaForce = false) := by
  refine (does_stop s).returns ?_ ?_
  · rintro t ⟨-, p, ht⟩
    obtain ⟨-, hf, -, hsh⟩ := drivers_of_master ht
    exact ⟨kept_of_master ht rfl, hsh, cnt_of_master ht rfl, fun _ => hf⟩
  · rintro r t (⟨rfl, p, ht⟩ | ⟨rfl, -, p, ht⟩) <;>
      exact ⟨kept_of_master ht rfl, (drivers_of_master ht).2.2.2, cnt_of_master ht rfl, nofun⟩

/-- `Transmit` leaves SDA_FORCE (`43_byte_engine.md` rules R220 and R222). -/
theorem returns_transmit (ph : TxPhase) (b : Byte) (s : State) :
    ∃ r t, Returns (transmitProg ph b none) s r t ∧ t.kept = s.kept ∧ t.sdaForce = s.sdaForce := by
  refine (does_transmit ph b none s).returns ?_ ?_
  · rintro t ⟨p, ht⟩
    exact ⟨kept_of_master ht rfl, (drivers_of_master ht).2.1⟩
  · rintro r t (⟨-, ht⟩ | ⟨-, p, sh, c, d, -, -, ht⟩ | ⟨-, p, ht⟩)
    · exact ⟨kept_of_master ht rfl, master_sdaForce ht⟩
    · exact ⟨kept_of_master ht rfl, (drivers_of_master ht).2.1⟩
    · exact ⟨kept_of_master ht rfl, (drivers_of_master ht).2.1⟩

theorem orderly_start (s : State) : Orderly (startProg none) s := by
  obtain ⟨r, t, hr, hk, -, -, hf⟩ := returns_start s
  exact ⟨r, t, hr, hk, hf⟩

theorem orderly_stop (s : State) : Orderly stopProg s := by
  obtain ⟨r, t, hr, hk, -, -, hf⟩ := returns_stop s
  exact ⟨r, t, hr, hk, hf⟩

theorem orderly_transmit (ph : TxPhase) (b : Byte) {s : State} (h : s.sdaForce = false) :
    Orderly (transmitProg ph b none) s := by
  obtain ⟨r, t, hr, hk, hf⟩ := returns_transmit ph b s
  exact ⟨r, t, hr, hk, fun _ => hf.trans h⟩

/-- `StartSending()` leaves SDA_FORCE clear when it returns OK (`44_orchestrator.md` rule R255). -/
theorem orderly_startSending (cfg : Config) (s : State) : Orderly (startSendingProg cfg) s := by
  refine Does.returns (Does.append (mid := fun t => t.kept = s.kept ∧ t.sdaForce = false)
    (ok := fun t => t.kept = s.kept ∧ t.sdaForce = false)
    (bad := fun r t => t.kept = s.kept ∧ (r = .ok → t.sdaForce = false))
    ((does_start (some .started) s).imp ?_ ?_) fun u hu => (does_transmit .address _ _ u).imp ?_ ?_)
    (fun t h => ⟨h.1, fun _ => h.2⟩) (fun r t h => h)
  · rintro t ⟨-, p, ht⟩
    exact ⟨kept_of_master ht rfl, (drivers_of_master ht).2.1⟩
  · rintro r t (⟨rfl, p, ht⟩ | ⟨rfl, -, p, ht⟩)
    · exact ⟨kept_of_master ht rfl, nofun⟩
    · exact ⟨kept_of_master ht rfl, nofun⟩
  · obtain ⟨hk, hf⟩ := hu
    rintro t ⟨p, ht⟩
    exact ⟨kept_of_master ht hk, (drivers_of_master ht).2.1.trans hf⟩
  · obtain ⟨hk, hf⟩ := hu
    rintro r t (⟨-, ht⟩ | ⟨-, p, sh, c, d, -, -, ht⟩ | ⟨-, p, ht⟩)
    · exact ⟨kept_of_master ht hk, fun _ => (master_sdaForce ht).trans hf⟩
    · exact ⟨kept_of_master ht hk, fun _ => (drivers_of_master ht).2.1.trans hf⟩
    · exact ⟨kept_of_master ht hk, fun _ => (drivers_of_master ht).2.1.trans hf⟩

/-- So does `Receive(N)` (`43_byte_engine.md` rules R230 to R232). -/
theorem orderly_receive (cfg : Config) (n : Half) (s : State) : Orderly (receiveProg cfg n) s := by
  refine (does_receive cfg n s).returns ?_ ?_
  · rintro t ⟨hk, -, -, hf, -⟩
    exact ⟨hk, fun _ => hf⟩
  · rintro r t ⟨hk, hr⟩
    refine ⟨hk, fun h => ?_⟩
    subst h
    simp [preCheckCodes] at hr

/-- BITX ends with the registers of `State.kept`, SDA_FORCE and PHASE, of which `finish` then writes its own
(`41_bit_transfer.md` rules R174 to R176). -/
theorem run_bitx (n : BitCount) (s : State) : ∃ r g t,
    run (proceed (.finish .bitx) (bitTransferProg n .give none) none s) = finish .bitx r g t ∧
      t.kept = s.kept ∧ t.sdaForce = s.sdaForce ∧ t.phase = s.phase := by
  rw [bitTransferProg_eq]
  rcases does_bits n s with ⟨t, ⟨p, sh, -, ht⟩, e⟩ | ⟨r, t, ⟨-, p, sh, c, -, -, -, ht⟩, e⟩
  · have hu : (takeTurn t.peer t).master = t.master := takeTurn_master _ t
    generalize hv : takeTurn t.peer t = u at hu
    have hm := (preset_master .give u).trans (congrArg
      (fun x : State => { x with shreg := 0xFF, sdaDir := .inward }) (hu.trans ht))
    refine ⟨.ok, some u.shreg, _, ?_, kept_of_master hm rfl, (drivers_of_master hm).2.1,
      phase_of_master hm rfl⟩
    rw [e, run_proceed_step, hv]
    exact run_of_idle rfl
  · exact ⟨r, none, t, (e _ _).trans (run_returnOp_finish ..), kept_of_master ht rfl,
      (drivers_of_master ht).2.1, phase_of_master ht rfl⟩

/-! ## The loop of S_SEND_REPEATED (`45_session.md` rule R276) -/

/-- The state after one iteration of the loop whose `SessSend` returned `r`, from the state `u` of its μSESS. -/
def sendDone (r : FaultCode) (u : State) : State :=
  let t := commit u (writeAll [.stepUp, .foldFault r] u) (.sess [.stepUp, .foldFault r])
  stamp (some (nextPhase .send r t.phase)) t

/-- A μSESS that closes an iteration: the Peer's turn, the assignments, and the loop's head. -/
theorem run_returnOp_sRepeat (r : FaultCode) (left : Nat) (b : Byte) (s : State) :
    ∃ u, u.master = s.master ∧
      run (returnOp (.sRepeat left b) r none s) = run (repeatLoop left b (sendDone r u)) := by
  generalize hw : returnOp (.sRepeat left b) r none s = w
  have hu : w.upc = some (.sess [.stepUp, .foldFault r] (.again r left b)) := by rw [← hw]; rfl
  have hm : w.master = s.master := by rw [← hw]; rfl
  refine ⟨takeTurn w.peer w, by simpa using hm, ?_⟩
  rw [run_turn (by simp [hu])]
  simp only [engineStep, takeTurn_upc, hu]
  rfl

/-- What every forwarded send of S_SEND_REPEATED keeps, and its closing `μSESS()` keeps, the whole command
keeps. -/
theorem run_repeatLoop_induct {P : State → Prop} {b : Byte}
    (hsend : ∀ s, P s → s.sessFault = some .ok → ∃ r t, Returns (transmitProg .data b none) s r t ∧
      ∀ u, u.master = t.master → P (sendDone r u))
    (hend : ∀ s u, P s → u.master = s.master → P (finishS none .nothing (commit u u (.sess []))))
    (n : Nat) {s : State} (h : P s) : P (run (repeatLoop n b s)) := by
  have close : ∀ s, P s → P (run { s with upc := some (.sess [] (.finish none .nothing)) }) := by
    intro s h
    obtain ⟨u, hu, -, e⟩ := run_sess_finish [] none .nothing s
    rw [e]
    exact hend s u h hu
  induction n generalizing s with
  | zero => exact close s h
  | succ n ih =>
    by_cases hf : s.sessFault = some .ok
    · obtain ⟨r, t, hr, hP⟩ := hsend s h hf
      obtain ⟨u, hu, e⟩ := run_returnOp_sRepeat r n b t
      simp only [repeatLoop, hf]
      rw [hr, e]
      exact ih (hP u hu)
    · have e : repeatLoop (n + 1) b s = { s with upc := some (.sess [] (.finish none .nothing)) } := by
        unfold repeatLoop
        split
        · exact absurd ‹_› hf
        · rfl
      rw [e]
      exact close s h

end Sys2Proof.Machine
end

section
/-! PROOFS. The invariant between commands: it holds after reset, and every step keeps it. -/

namespace Sys2Proof.Machine

/-! ## NextPhase (`44_orchestrator.md` rule R250) -/

theorem nextPhase_of_ne_ok {r : FaultCode} (h : r ≠ .ok) (op : OpKind) (p : Phase) :
    nextPhase op r p = .error := by simp [nextPhase, h]

theorem nextPhase_ne_receiving {op : OpKind} {p : Phase} (h : op = .bitx → p ≠ .receiving)
    (r : FaultCode) : nextPhase op r p ≠ .receiving := by
  by_cases hr : r = .ok
  · subst hr
    cases op with
    | bitx => exact h rfl
    | transmit ph => cases ph <;> nofun
    | _ => nofun
  · rw [nextPhase_of_ne_ok hr]
    nofun

/-! ## The invariant's part about PHASE, SDA_FORCE and the session registers -/

/-- What `State.Inv` asks of PHASE, SDA_FORCE and the session registers (`10_state.md` rule R45,
`45_session.md` rule R285, `42_conditions.md` rule R206). -/
structure State.Settled (s : State) : Prop where
  together : s.sessFault.isSome = s.sessStep.isSome
  stepRange : ∀ n, s.sessStep = some n → n < 2 ^ stepWidth s.cfg
  openPhase : s.sessOpen = true →
    (s.sessFault = some .ok ∧ (s.phase = .addressSent ∨ s.phase = .sending)) ∨
    (∃ r, s.sessFault = some r ∧ r ≠ .ok ∧ s.phase = .error)
  notReceiving : s.phase ≠ .receiving
  force : s.sdaForce = true → s.phase = .error

/-- The invariant is the ranges of RX, CNT and POLLK, and the rest of it. -/
theorem inv_iff (s : State) : s.Inv ↔
    s.upc = none ∧ s.rx.wf = true ∧ s.cnt ≤ 8 ∧ s.pollk ≤ pollBound s.cfg ∧ s.Settled := by
  constructor
  · intro h
    refine ⟨h.idle, h.rxWf, h.cntRange, h.pollkRange, h.sessTogether, h.stepRange, fun ho => ?_,
      h.notReceiving, h.forceOnlyInError⟩
    by_cases hf : s.sessFault = some .ok
    · exact .inl ⟨hf, (h.sessOk ho).1 hf⟩
    · obtain ⟨r, hr⟩ := Option.isSome_iff_exists.1 (h.sessHeld ho)
      exact .inr ⟨r, hr, fun e => hf (e ▸ hr), (h.sessFaulted ho).1 hf⟩
  · rintro ⟨hu, hx, hc, hp, h⟩
    refine ⟨hu, hx, hc, hp, h.together, fun ho => ?_, h.stepRange, fun ho => ?_, fun ho => ?_,
      h.notReceiving, h.force⟩ <;>
    rcases h.openPhase ho with ⟨hf, hp | hp⟩ | ⟨r, hf, hr, hp⟩ <;> simp [*]

/-- The fields that `State.Settled` looks at. -/
theorem State.Settled.congr {s t : State} (h : s.Settled) (hc : t.cfg = s.cfg)
    (ho : t.sessOpen = s.sessOpen) (hf : t.sessFault = s.sessFault) (hn : t.sessStep = s.sessStep)
    (hp : t.phase = s.phase) (hd : t.sdaForce = s.sdaForce) : t.Settled := by
  obtain ⟨h1, h2, h3, h4, h5⟩ := h
  constructor <;> simpa only [hc, ho, hf, hn, hp, hd]

theorem settled_of_master {s t : State} (hs : s.Settled) (h : t.master = s.master) : t.Settled :=
  hs.congr (master_cfg h) (master_sessOpen h) (master_sessFault h) (master_sessStep h)
    (master_phase h) (master_sdaForce h)

/-- Outside PHASE Error, SDA_FORCE is clear. -/
theorem State.Settled.force_clear {s : State} (h : s.Settled) (hp : s.phase ≠ .error) :
    s.sdaForce = false :=
  Bool.eq_false_iff.2 fun hf => hp (h.force hf)

/-- A session with no fault leaves SDA_FORCE clear. -/
theorem State.Settled.force_clear_of_ok {s : State} (h : s.Settled) (ho : s.sessOpen = true)
    (hf : s.sessFault = some .ok) : s.sdaForce = false := by
  refine h.force_clear ?_
  rcases h.openPhase ho with ⟨-, hp | hp⟩ | ⟨r, hr, hne, -⟩
  · simp [hp]
  · simp [hp]
  · rw [hf, Option.some.injEq] at hr
    exact absurd hr.symm hne

/-- The registers in `State.kept` that `State.Settled` looks at. -/
theorem registers_of_kept {s t : State} (h : t.kept = s.kept) : t.cfg = s.cfg ∧
    t.sessOpen = s.sessOpen ∧ t.sessFault = s.sessFault ∧ t.sessStep = s.sessStep := by
  have h1 := congrArg State.cfg h
  have h2 := congrArg State.sessOpen h
  have h3 := congrArg State.sessFault h
  have h4 := congrArg State.sessStep h
  exact ⟨h1, h2, h3, h4⟩

/-! ## The ends of the commands -/

section Ends

variable {s t x : State} {r : FaultCode}

/-- A command that ends with NextPhase is not Receiving, and SDA_FORCE is set only in PHASE Error. -/
theorem phase_ended {op : OpKind} {p : Phase} (hx : x.phase = nextPhase op r p)
    (hp : op = .bitx → p ≠ .receiving) (hd : r = .ok → x.sdaForce = false) :
    x.phase ≠ .receiving ∧ (x.sdaForce = true → x.phase = .error) := by
  rw [hx]
  refine ⟨nextPhase_ne_receiving hp r, fun h => nextPhase_of_ne_ok (fun hr => ?_) op p⟩
  rw [hd hr] at h
  cases h

/-- A raw command ends with the session closed. -/
theorem settled_finish {op : OpKind} {g : Option Byte} (hs : s.Settled) (ho : s.sessOpen = false)
    (hk : t.kept = s.kept) (hd : r = .ok → t.sdaForce = false) (hp : op = .bitx → t.phase ≠ .receiving) :
    (finish op r g t).Settled := by
  obtain ⟨kc, ko, kf, kn⟩ := registers_of_kept hk
  obtain ⟨hrec, hforce⟩ := phase_ended (x := finish op r g t) rfl hp hd
  refine ⟨?_, ?_, ?_, hrec, hforce⟩
  · simpa [kf, kn] using hs.together
  · simpa [kc, kn] using hs.stepRange
  · simp [ko, ho]

/-- An open session whose register holds the code that NextPhase was given. -/
theorem openPhase_nextPhase {op : OpKind} {p : Phase} (hop : op = .startSending ∨ op = .send)
    (hf : x.sessFault = some r) (hx : x.phase = nextPhase op r p) :
    (x.sessFault = some .ok ∧ (x.phase = .addressSent ∨ x.phase = .sending)) ∨
    (∃ r, x.sessFault = some r ∧ r ≠ .ok ∧ x.phase = .error) := by
  rw [hx]
  by_cases hr : r = .ok
  · subst hr
    rcases hop with rfl | rfl
    · exact .inl ⟨hf, .inl rfl⟩
    · exact .inl ⟨hf, .inr rfl⟩
  · exact .inr ⟨r, hf, hr, nextPhase_of_ne_ok hr op p⟩

/-- S_OPEN's end: the session is open with its first step and the code of StartSending. -/
theorem settled_opened {n : Nat} {g : SessGive} {e : EventKind} (hn : n < 2 ^ stepWidth t.cfg)
    (hd : r = .ok → t.sdaForce = false) : (finishS (some (.startSending, r)) g
      (commit t (writeAll [.openTo true, .stepTo n, .faultTo r] t) e)).Settled := by
  generalize hx : finishS _ g _ = x
  have hp : x.phase = nextPhase .startSending r t.phase := by subst hx; rfl
  obtain ⟨hrec, hforce⟩ := phase_ended hp nofun (by subst hx; exact hd)
  refine ⟨?_, ?_, fun _ => openPhase_nextPhase (.inl rfl) (by subst hx; rfl) hp, hrec, hforce⟩
  · subst hx
    rfl
  · subst hx
    rintro m ⟨⟩
    exact hn

/-- A forwarded send's end: the step is counted and the code is the sticky fault. -/
theorem settled_sendDone (hs : s.Settled) (hf : s.sessFault = some .ok)
    (hk : t.kept = s.kept) (hd : r = .ok → t.sdaForce = false) : (sendDone r t).Settled := by
  obtain ⟨-, -, kf, kn⟩ := registers_of_kept hk
  have hfault : (sendDone r t).sessFault = some r := by
    show t.sessFault.map _ = _
    rw [kf, hf]
    rfl
  have hstep : (sendDone r t).sessStep = t.sessStep.map fun n => stepMod t.cfg (n + 1) := rfl
  have hp : (sendDone r t).phase = nextPhase .send r t.phase := rfl
  obtain ⟨hrec, hforce⟩ := phase_ended hp nofun hd
  refine ⟨?_, ?_, fun _ => openPhase_nextPhase (.inr rfl) hfault hp, hrec, hforce⟩
  · rw [hfault, hstep, Option.isSome_map, kn, ← hs.together, hf]
    rfl
  · intro m hm
    rw [hstep, Option.map_eq_some_iff] at hm
    obtain ⟨n, -, rfl⟩ := hm
    exact Nat.mod_lt _ (Nat.two_pow_pos _)

/-- A session that is closed keeps its step. -/
theorem settled_closed {op : OpKind} {g : SessGive} {e : EventKind} (hs : s.Settled)
    (hk : t.kept = s.kept) (hd : r = .ok → t.sdaForce = false) (hop : op ≠ .bitx) :
    (finishS (some (op, r)) g (commit t (writeAll [.openTo false, .foldFault r] t) e)).Settled := by
  obtain ⟨kc, -, kf, kn⟩ := registers_of_kept hk
  generalize hx : finishS _ g _ = x
  have hp : x.phase = nextPhase op r t.phase := by subst hx; rfl
  have hstep : x.sessStep = s.sessStep := by subst hx; exact kn
  obtain ⟨hrec, hforce⟩ := phase_ended hp (fun h => absurd h hop) (by subst hx; exact hd)
  refine ⟨?_, ?_, ?_, hrec, hforce⟩
  · rw [hstep, ← hs.together, ← kf]
    subst hx
    exact Option.isSome_map ..
  · have hc : x.cfg = s.cfg := by subst hx; exact kc
    rw [hstep, hc]
    exact hs.stepRange
  · subst hx
    nofun

/-- A μSESS of a faulted session: it may close the session and leaves the rest. -/
theorem settled_sess_closing {g : SessGive} {e : EventKind} (hs : s.Settled) (hm : t.master = s.master) :
    (finishS none g (commit t (writeAll [.openTo false] t) e)).Settled := by
  obtain ⟨h1, h2, -, h4, h5⟩ := settled_of_master hs hm
  exact ⟨h1, h2, nofun, h4, h5⟩

theorem settled_sess_nothing {g : SessGive} {e : EventKind} (hs : s.Settled) (hm : t.master = s.master) :
    (finishS none g (commit t (writeAll [] t) e)).Settled :=
  (settled_of_master hs hm).congr rfl rfl rfl rfl rfl rfl

end Ends

/-! ## Every run that is launched -/

/-- A raw command, by what its operation returns. -/
theorem settled_run_finish {ws : List Work} {op : OpKind} {s : State} (hs : s.Settled)
    (ho : s.sessOpen = false) (h : Orderly ws s) (hop : op ≠ .bitx) :
    (run (proceed (.finish op) ws none s)).Settled := by
  obtain ⟨r, t, hr, hk, hd⟩ := h
  rw [hr, run_returnOp_finish]
  exact settled_finish hs ho hk hd fun h => absurd h hop

/-- BITX. -/
theorem settled_run_bitx (n : BitCount) {s : State} (hs : s.Settled) (ho : s.sessOpen = false)
    (hp : s.phase ≠ .error) :
    (run (proceed (.finish .bitx) (bitTransferProg n .give none) none s)).Settled := by
  obtain ⟨r, g, t, e, hk, hd, ht⟩ := run_bitx n s
  rw [e]
  exact settled_finish hs ho hk (fun _ => hd.trans (hs.force_clear hp)) fun _ =>
    ht ▸ hs.notReceiving

/-- S_OPEN. -/
theorem settled_run_sOpen {ws : List Work} {n : Nat} {s : State} (hn : n < 2 ^ stepWidth s.cfg)
    (h : Orderly ws s) : (run (proceed (.sOpen n) ws none s)).Settled := by
  obtain ⟨r, t, hr, hk, hd⟩ := h
  obtain ⟨u, hu, -, e⟩ := run_sess_finish [.openTo true, .stepTo n, .faultTo r]
    (some (.startSending, r)) .nothing t
  rw [hr, returnOp, e]
  have hc : u.cfg = s.cfg := (master_cfg hu).trans (registers_of_kept hk).1
  exact settled_opened (hc ▸ hn) fun h => (master_sdaForce hu).trans (hd h)

/-- S_SEND with no fault yet. -/
theorem settled_run_sSend (b : Byte) {s : State} (hs : s.Settled) (ho : s.sessOpen = true)
    (hf : s.sessFault = some .ok) :
    (run (proceed .sSend (transmitProg .data b none) none s)).Settled := by
  obtain ⟨r, t, hr, hk, hd⟩ := orderly_transmit .data b (hs.force_clear_of_ok ho hf)
  obtain ⟨u, hu, -, e⟩ := run_sess_finish [.stepUp, .foldFault r] (some (.send, r)) .nothing t
  rw [hr, returnOp, e]
  exact (settled_sendDone hs hf (kept_of_master hu hk) fun h =>
    (master_sdaForce hu).trans (hd h)).congr rfl rfl rfl rfl rfl rfl

/-- S_SEND_REPEATED. -/
theorem settled_run_repeatLoop (n : Nat) (b : Byte) {s : State} (hs : s.Settled)
    (ho : s.sessOpen = true) : (run (repeatLoop n b s)).Settled := by
  refine (run_repeatLoop_induct (P := fun s => s.Settled ∧ s.sessOpen = true) ?_ ?_ n ⟨hs, ho⟩).1
  · rintro s ⟨hs, ho⟩ hf
    obtain ⟨r, t, hr, hk, hd⟩ := orderly_transmit .data b (hs.force_clear_of_ok ho hf)
    refine ⟨r, t, hr, fun u hu => ⟨settled_sendDone hs hf (kept_of_master hu hk) fun h =>
      (master_sdaForce hu).trans (hd h), ?_⟩⟩
    exact (master_sessOpen hu).trans ((registers_of_kept hk).2.1.trans ho)
  · rintro s u ⟨hs, ho⟩ hu
    exact ⟨settled_sess_nothing hs hu, (master_sessOpen hu).trans ho⟩

/-- S_RECEIVE and S_STOP with no fault yet. -/
theorem settled_run_closing {ws : List Work} {k : Kont} {op : OpKind} {g : SessGive} {s : State}
    (hs : s.Settled) (h : Orderly ws s) (hop : op ≠ .bitx)
    (hk : ∀ r t, returnOp k r none t = { t with
      upc := some (.sess [.openTo false, .foldFault r] (.finish (some (op, r)) g)) }) :
    (run (proceed k ws none s)).Settled := by
  obtain ⟨r, t, hr, ht, hd⟩ := h
  obtain ⟨u, hu, -, e⟩ := run_sess_finish [.openTo false, .foldFault r] (some (op, r)) g t
  rw [hr, hk, e]
  exact settled_closed hs (kept_of_master hu ht) (fun h => (master_sdaForce hu).trans (hd h)) hop

/-- A session command that touches no hardware. -/
theorem settled_run_sess {as : List SessAssign} (has : as = [] ∨ as = [.openTo false]) (g : SessGive)
    {s : State} (hs : s.Settled) :
    (run { s with upc := some (.sess as (.finish none g)) }).Settled := by
  obtain ⟨u, hu, -, e⟩ := run_sess_finish as none g s
  rw [e]
  rcases has with rfl | rfl
  · exact settled_sess_nothing hs hu
  · exact settled_sess_closing hs hu

/-- Every command that runs keeps the invariant's part about PHASE, SDA_FORCE and the session registers. -/
theorem settled_run_launched {i : Instr} {s : State} (hs : s.Settled) (ho : s.sessOpen = i.isMember)
    (hp : ¬ (s.phase = .error ∧ i.continues = true)) : (run (launched i s)).Settled := by
  cases i with
  | bitx n => exact settled_run_bitx n hs ho fun h => hp ⟨h, rfl⟩
  | start => exact settled_run_finish hs ho (orderly_start s) nofun
  | stop => exact settled_run_finish hs ho (orderly_stop s) nofun
  | transmit ph b =>
    exact settled_run_finish hs ho (orderly_transmit ph b (hs.force_clear fun h => hp ⟨h, rfl⟩)) nofun
  | receive n => exact settled_run_finish hs ho (orderly_receive s.cfg n s) nofun
  | startSending => exact settled_run_finish hs ho (orderly_startSending s.cfg s) nofun
  | send b =>
    exact settled_run_finish hs ho (orderly_transmit .data b (hs.force_clear fun h => hp ⟨h, rfl⟩)) nofun
  | sOpen step0 =>
    exact settled_run_sOpen (Nat.mod_lt _ (Nat.two_pow_pos _)) (orderly_startSending s.cfg s)
  | sSend b =>
    rw [launched]
    split
    · exact settled_run_sSend b hs ho ‹_›
    · exact settled_run_sess (.inl rfl) .nothing hs
  | sSendRepeated count b => exact settled_run_repeatLoop count.toNat b hs ho
  | sValid => exact settled_run_sess (.inl rfl) .valid hs
  | sReceive n =>
    rw [launched]
    split
    · exact settled_run_closing (op := .receive) hs (orderly_receive s.cfg n s) nofun fun _ _ => rfl
    · exact settled_run_sess (.inr rfl) .nothing hs
  | sStop =>
    rw [launched]
    split
    · exact settled_run_closing (op := .stop) hs (orderly_stop s) nofun fun _ _ => rfl
    · exact settled_run_sess (.inr rfl) .status hs

/-! ## The steps -/

theorem inv_refuse {s : State} (h : s.Inv) : (refuse s).Inv := by
  obtain ⟨hu, hx, hc, hk, hs⟩ := (inv_iff s).1 h
  exact (inv_iff _).2 ⟨hu, hx, hc, hk, hs.congr rfl rfl rfl rfl rfl rfl⟩

/-- Every command keeps the invariant. -/
theorem inv_exec {i : Instr} {s t : State} (h : s.Inv) (he : exec i s = .next t) : t.Inv := by
  obtain ⟨-, rfl | ⟨ho, hp, rfl⟩⟩ := exec_cases he
  · exact inv_refuse h
  obtain ⟨-, hx, hc, hk, hs⟩ := (inv_iff s).1 h
  have hk' : (launched i s).pollInRange :=
    ⟨by simpa using hk, fun h => by rw [launched_pollPending] at h; cases h⟩
  exact (inv_iff _).2 ⟨run_upc _, run_rx_wf (by simpa using hx), run_cnt_le (by simpa using hc),
    (run_pollInRange hk').1, settled_run_launched hs ho hp⟩

/-- A Peer step keeps the invariant, whatever moves are to come. -/
theorem inv_peerStep {s : State} (h : s.Inv) (m : PeerMove) (ms : List PeerMove) :
    (peerStep m { s with peer := ms }).Inv := by
  obtain ⟨hu, hx, hc, hk, hs⟩ := (inv_iff s).1 h
  exact (inv_iff _).2 ⟨by simpa, by simpa, by simpa, by simpa, settled_of_master hs (by simp)⟩

theorem inv_idleStep {s : State} (h : s.Inv) : (idleStep s).Inv := by
  unfold idleStep
  split
  · exact h
  · exact inv_peerStep h _ _

/-- The invariant does not look at the words to come. -/
theorem inv_setCmds {s : State} (h : s.Inv) (ws : List Word) : { s with cmds := ws }.Inv := by
  obtain ⟨hu, hx, hc, hk, hs⟩ := (inv_iff s).1 h
  exact (inv_iff _).2 ⟨hu, hx, hc, hk, hs.congr rfl rfl rfl rfl rfl rfl⟩

/-- With no command running and none to issue, a step is the Peer's next move, if it has one. -/
theorem step_idle {s : State} (hu : s.upc = none) (hw : s.cmds = []) :
    step s = .next (idleStep s) := by
  simp only [step, hu, hw]

/-- With no command running, a step issues the next word. -/
theorem step_issue {s : State} {w : Word} {rest : List Word} (hu : s.upc = none)
    (hw : s.cmds = w :: rest) : step s = issueWord w { s with cmds := rest } := by
  unfold step
  split
  · rename_i h
    rw [hu] at h
    cases h
  · rw [hw]

/-- A step with no command running: the Peer moves, a word is refused, or its command is issued. -/
theorem step_cases {s t : State} (hu : s.upc = none) (h : step s = .next t) :
    t = idleStep s ∨ ∃ w rest, s.cmds = w :: rest ∧ (t = refuse { s with cmds := rest } ∨
      ∃ i, decode w = .ok i ∧ exec i { s with cmds := rest } = .next t) := by
  cases hw : s.cmds with
  | nil =>
    rw [step_idle hu hw, Host.Outcome.next.injEq] at h
    exact .inl h.symm
  | cons w rest =>
    refine .inr ⟨w, rest, rfl, ?_⟩
    rw [step_issue hu hw, issueWord] at h
    split at h
    · rw [Host.Outcome.next.injEq] at h
      exact .inl h.symm
    · exact .inr ⟨_, ‹_›, h⟩

/-- Settles O27: a step with no command running is a Peer move, a refusal or a command, and each keeps the
invariant. -/
theorem stepKeepsInvariant : Obligations.StepKeepsInvariant := by
  intro s t h hst
  rcases step_cases h.idle hst with rfl | ⟨w, rest, -, rfl | ⟨i, -, he⟩⟩
  · exact inv_idleStep h
  · exact inv_refuse (inv_setCmds h rest)
  · exact inv_exec (inv_setCmds h rest) he

/-- Settles O26: at reset the counters are 0, RX lists nothing, no session is open and PHASE is Idle. -/
theorem resetMeetsInvariant : Obligations.ResetMeetsInvariant := fun _ _ _ =>
  (inv_iff _).2 ⟨rfl, rfl, Nat.zero_le _, Nat.zero_le _, rfl, nofun, nofun, nofun, nofun⟩

end Sys2Proof.Machine
end

section
/-! PROOFS. Which commands leave SDA_FORCE, SHREG, CNT and the drivers alone. -/

namespace Sys2Proof.Machine

/-! ## The data path (`10_state.md` rule R34) -/

/-- A μSESS that closes its command leaves the drivers, SHREG and the counters, and PHASE if no operation
ran. -/
theorem run_sess_frame (as : List SessAssign) (o : Option (OpKind × FaultCode)) (g : SessGive)
    (s : State) : ∃ t, run { s with upc := some (.sess as (.finish o g)) } = t ∧
      t.sclDrv = s.sclDrv ∧ t.sdaForce = s.sdaForce ∧ t.sdaDir = s.sdaDir ∧ t.shreg = s.shreg ∧
      t.cnt = s.cnt ∧ t.pollk = s.pollk ∧ (o = none → t.phase = s.phase) := by
  obtain ⟨u, hu, -, e⟩ := run_sess_finish as o g s
  refine ⟨_, e, ?_⟩
  simp only [finishS_sclDrv, finishS_sdaForce, finishS_sdaDir, finishS_shreg, finishS_cnt, finishS_pollk,
    commit_sclDrv, commit_sdaForce, commit_sdaDir, commit_shreg, commit_cnt, commit_pollk,
    writeAll_sclDrv, writeAll_sdaForce, writeAll_sdaDir, writeAll_shreg, writeAll_cnt, writeAll_pollk]
  refine ⟨master_sclDrv hu, master_sdaForce hu, master_sdaDir hu, master_shreg hu, master_cnt hu,
    master_pollk hu, ?_⟩
  rintro rfl
  simpa using master_phase hu

/-- After its operation returns, a command that does not repeat leaves SDA_FORCE, SHREG and CNT. -/
theorem run_returnOp_frame {k : Kont} (hk : ∀ n b, k ≠ .sRepeat n b) (r : FaultCode) (t : State) :
    (run (returnOp k r none t)).sdaForce = t.sdaForce ∧ (run (returnOp k r none t)).shreg = t.shreg ∧
    (run (returnOp k r none t)).cnt = t.cnt := by
  have sess : ∀ as o g, returnOp k r none t = { t with upc := some (.sess as (.finish o g)) } →
      (run (returnOp k r none t)).sdaForce = t.sdaForce ∧ (run (returnOp k r none t)).shreg = t.shreg ∧
      (run (returnOp k r none t)).cnt = t.cnt := by
    intro as o g e
    obtain ⟨u, hu, -, hf, -, hs, hc, -⟩ := run_sess_frame as o g t
    rw [e, hu]
    exact ⟨hf, hs, hc⟩
  cases k with
  | finish op => rw [run_returnOp_finish]; exact ⟨rfl, rfl, rfl⟩
  | sRepeat n b => exact absurd rfl (hk n b)
  | sOpen n => exact sess _ _ _ rfl
  | sSend => exact sess _ _ _ rfl
  | sReceive => exact sess _ _ _ rfl
  | sStop => exact sess _ _ _ rfl

theorem run_transmit_sdaForce {k : Kont} (hk : ∀ n b, k ≠ .sRepeat n b) (ph : TxPhase) (b : Byte)
    (s : State) : (run (proceed k (transmitProg ph b none) none s)).sdaForce = s.sdaForce := by
  obtain ⟨r, t, hr, -, hf⟩ := returns_transmit ph b s
  rw [hr, (run_returnOp_frame hk r t).1, hf]

theorem run_repeatLoop_sdaForce (n : Nat) (b : Byte) (s : State) :
    (run (repeatLoop n b s)).sdaForce = s.sdaForce := by
  refine run_repeatLoop_induct (P := fun t => t.sdaForce = s.sdaForce) ?_ ?_ n rfl
  · intro v hv _
    obtain ⟨r, t, hr, -, hf⟩ := returns_transmit .data b v
    exact ⟨r, t, hr, fun u hu => (master_sdaForce hu).trans (hf.trans hv)⟩
  · intro v u hv hu
    exact (master_sdaForce hu).trans hv

theorem run_start_bytes {k : Kont} (hk : ∀ n b, k ≠ .sRepeat n b) (s : State) :
    (run (proceed k (startProg none) none s)).shreg = s.shreg ∧
    (run (proceed k (startProg none) none s)).cnt = s.cnt := by
  obtain ⟨r, t, hr, -, hs, hc, -⟩ := returns_start s
  rw [hr, ← hs, ← hc]
  exact (run_returnOp_frame hk r t).2

theorem run_stop_bytes {k : Kont} (hk : ∀ n b, k ≠ .sRepeat n b) (s : State) :
    (run (proceed k stopProg none s)).shreg = s.shreg ∧
    (run (proceed k stopProg none s)).cnt = s.cnt := by
  obtain ⟨r, t, hr, -, hs, hc, -⟩ := returns_stop s
  rw [hr, ← hs, ← hc]
  exact (run_returnOp_frame hk r t).2

/-- BITX and the commands that transmit leave SDA_FORCE. -/
theorem run_launched_sdaForce {i : Instr} (hi : (∃ n, i = .bitx n) ∨ (∃ ph b, i = .transmit ph b) ∨
    (∃ b, i = .send b) ∨ (∃ b, i = .sSend b) ∨ (∃ c b, i = .sSendRepeated c b)) (s : State) :
    (run (launched i s)).sdaForce = s.sdaForce := by
  rcases hi with ⟨n, rfl⟩ | ⟨ph, b, rfl⟩ | ⟨b, rfl⟩ | ⟨b, rfl⟩ | ⟨c, b, rfl⟩
  · obtain ⟨r, g, t, e, -, hf, -⟩ := run_bitx n s
    rw [launched, e]
    exact hf
  · exact run_transmit_sdaForce (by simp) ph b s
  · exact run_transmit_sdaForce (by simp) .data b s
  · rw [launched]
    split
    · exact run_transmit_sdaForce (by simp) .data b s
    · obtain ⟨t, e, -, hf, -⟩ := run_sess_frame [] none .nothing s
      rw [e, hf]
  · exact run_repeatLoop_sdaForce c.toNat b s

/-- The commands that touch no byte leave SHREG and CNT. -/
theorem run_launched_bytes {i : Instr} (hi : i = .start ∨ i = .stop ∨ i = .sStop) (s : State) :
    (run (launched i s)).shreg = s.shreg ∧ (run (launched i s)).cnt = s.cnt := by
  rcases hi with rfl | rfl | rfl
  · exact run_start_bytes (by simp) s
  · exact run_stop_bytes (by simp) s
  · rw [launched]
    split
    · exact run_stop_bytes (by simp) s
    · obtain ⟨t, e, -, -, -, hs, hc, -⟩ := run_sess_frame [.openTo false] none .status s
      rw [e]
      exact ⟨hs, hc⟩

/-- Settles O23: a refusal writes REFUSED only, and a command that runs uses what its operation uses. -/
theorem dataPathFrame : Obligations.DataPathFrame := by
  intro i s t h
  obtain ⟨-, rfl | ⟨-, -, rfl⟩⟩ := exec_cases h
  · exact ⟨fun _ => rfl, fun _ => ⟨rfl, rfl⟩, fun _ => ⟨rfl, rfl, rfl, rfl, rfl, rfl, rfl⟩⟩
  · refine ⟨fun hi => run_launched_sdaForce hi s, fun hi => run_launched_bytes hi s, ?_⟩
    rintro rfl
    obtain ⟨t, e, hd, hf, hr, hs, hc, hp, hph⟩ := run_sess_frame [] none .valid s
    rw [launched, e]
    exact ⟨hd, hf, hr, hs, hc, hp, hph rfl⟩

end Sys2Proof.Machine
end

section
/-! PROOFS. What the host reads between commands, and the Peer's moves then. -/

namespace Sys2Proof.Machine

/-! ## Host reads (`10_state.md` rule R51) -/

/-- The word a port's field holds, or no value. -/
def State.held (s : State) : Port → Option PortWord
  | .engstat => some (.engstat s.engstat)
  | .shreg => some (.byte s.shreg)
  | .result => s.result.map .code
  | .value => s.value.map .value
  | .sessFault => s.sessFault.map .code
  | .sessStep => s.sessStep.map .step
  | .rx i => (s.rx.read i.toNat).map .byte

theorem hostRead_blocked {s : State} (h : s.upc ≠ none) (p : Port) :
    hostRead p s = .refused .hostBlocked := by
  unfold hostRead
  rw [if_pos (Option.isSome_iff_ne_none.2 h)]

theorem hostRead_idle {s : State} (hu : s.upc = none) (p : Port) :
    hostRead p s = portWord p (s.held p) := by
  cases p <;> simp [hostRead, hu, State.held, portWord]

theorem hostRead_held {s : State} {p : Port} {v : PortWord} (hu : s.upc = none)
    (h : s.held p = some v) : hostRead p s = .next v := by
  rw [hostRead_idle hu, h, portWord]

theorem hostRead_noValue {s : State} {p : Port} (hu : s.upc = none) (h : s.held p = none) :
    hostRead p s = .fault (.noValue p) := by
  rw [hostRead_idle hu, h, portWord]

/-- Settles O9: a port gives what its field holds. -/
theorem hostReadsHeldValuesOnly : Obligations.HostReadsHeldValuesOnly := by
  refine ⟨fun s hu => ⟨hostRead_held hu rfl, hostRead_held hu rfl, ?_⟩, fun s p hu => hostRead_blocked hu p⟩
  refine ⟨fun r h => hostRead_held hu ?_, fun h => hostRead_noValue hu ?_,
    fun v h => hostRead_held hu ?_, fun h => hostRead_noValue hu ?_,
    fun r h => hostRead_held hu ?_, fun h => hostRead_noValue hu ?_,
    fun n h => hostRead_held hu ?_, fun h => hostRead_noValue hu ?_,
    fun i v h => hostRead_held hu ?_, fun i h => hostRead_noValue hu ?_⟩ <;>
  simp [State.held, h]

/-- Settles O8: the fields are read off `State.resetWith`, and those without a value fault when read. -/
theorem resetValues : Obligations.ResetValues := by
  refine ⟨⟨Config.ofVectors, false, false, rfl⟩, fun cfg scl sda => ⟨_, rfl, rfl, rfl, rfl, rfl, rfl, rfl,
    rfl, rfl, rfl, rfl, rfl, rfl, rfl, rfl, rfl, rfl, ?_, ?_, ?_, fun i => ?_⟩⟩ <;>
  exact hostRead_noValue rfl rfl

/-! ## A Peer step (`41_bit_transfer.md` rules R166 to R168) -/

/-- SDA did not move: no condition on the bus. -/
theorem startEdge_still (a b c : Bool) : startEdge a b c b = false := by
  cases b <;> simp [startEdge]

theorem stopEdge_still (a b c : Bool) : stopEdge a b c b = false := by
  cases b <;> simp [stopEdge]

theorem peerStep_scl (low : Bool) (s : State) : peerStep (.scl low) s = { s with
    peerSclLow := low
    latch := if s.scl = false ∧ s.pullsScl = false ∧ low = false then s.sda else s.latch
    trace := ⟨.peerScl low, !s.pullsScl && !low, s.sda⟩ :: s.trace } := by
  have hscl : { s with peerSclLow := low }.scl = (!s.pullsScl && !low) := rfl
  have hsda : { s with peerSclLow := low }.sda = s.sda := rfl
  simp [peerStep, commit, hscl, hsda, startEdge_still, stopEdge_still]

theorem peerStep_sda (low : Bool) (s : State) : peerStep (.sda low) s = { s with
    peerSdaLow := low
    startDet := s.startDet || (s.scl && s.sda && (s.pullsSda || low))
    stopDet := s.stopDet || (s.scl && !s.sda && (!s.pullsSda && !low))
    trace := ⟨.peerSda low, s.scl, !s.pullsSda && !low⟩ :: s.trace } := by
  have hscl : { s with peerSdaLow := low }.scl = s.scl := rfl
  have hsda : { s with peerSdaLow := low }.sda = (!s.pullsSda && !low) := rfl
  simp [peerStep, commit, hscl, hsda, startEdge, stopEdge]

/-- Settles O14: an idle step is the Peer's next move. -/
theorem idleMachineKeepsItsState : Obligations.IdleMachineKeepsItsState := by
  refine ⟨fun s hu hw => ⟨fun hp => ?_, fun m ms hp => ?_⟩, peerStep_scl, peerStep_sda, fun _ => rfl⟩
  · rw [step_idle hu hw, idleStep, hp]
  · rw [step_idle hu hw, idleStep, hp]

/-! ## ENGSTAT (`10_state.md` rule R50) -/

/-- The bits of a word, from bit 0 up. -/
def HasBits {n : Nat} (x : BitVec n) (bits : List Bool) : Prop :=
  bits.length = n ∧ ∀ k, x.getLsbD k = (bits[k]?).getD false

theorem HasBits.append {m n : Nat} {x : BitVec m} {y : BitVec n} {xs ys : List Bool}
    (hx : HasBits x xs) (hy : HasBits y ys) : HasBits (x ++ y) (ys ++ xs) := by
  obtain ⟨lx, ex⟩ := hx
  obtain ⟨ly, ey⟩ := hy
  refine ⟨by rw [List.length_append]; omega, fun k => ?_⟩
  rw [BitVec.getLsbD_append]
  split
  · rw [ey, List.getElem?_append_left (by omega)]
  · rw [ex, List.getElem?_append_right (by omega), ly]

theorem hasBits_ofBool (b : Bool) : HasBits (BitVec.ofBool b) [b] := by
  refine ⟨rfl, fun k => ?_⟩
  cases k <;> simp

theorem hasBits_zero (n : Nat) : HasBits 0#n (List.replicate n false) := by
  refine ⟨List.length_replicate, fun k => ?_⟩
  rw [BitVec.getLsbD_zero, List.getElem?_replicate]
  split <;> rfl

theorem hasBits_phaseNumber (p : Phase) : HasBits (phaseNumber p)
    [(phaseNumber p).getLsbD 0, (phaseNumber p).getLsbD 1, (phaseNumber p).getLsbD 2] := by
  refine ⟨rfl, fun k => ?_⟩
  match k with
  | 0 | 1 | 2 => rfl
  | k + 3 => exact BitVec.getLsbD_of_ge _ _ (by omega)

/-- ENGSTAT's fields at their places, from PHASE up to the reserved bits. -/
theorem hasBits_engstat (s : State) : HasBits s.engstat
    [(phaseNumber s.phase).getLsbD 0, (phaseNumber s.phase).getLsbD 1, (phaseNumber s.phase).getLsbD 2,
      s.startDet, s.stopDet, s.coll, s.sclDrv == .rel, s.sdaForce, s.sdaDir == .outward, s.sessOpen,
      false, false, false, false, false, false] :=
  (hasBits_zero 6).append ((hasBits_ofBool s.sessOpen).append
    ((hasBits_ofBool (s.sdaDir == .outward)).append ((hasBits_ofBool s.sdaForce).append
      ((hasBits_ofBool (s.sclDrv == .rel)).append ((hasBits_ofBool s.coll).append
        ((hasBits_ofBool s.stopDet).append ((hasBits_ofBool s.startDet).append
          (hasBits_phaseNumber s.phase))))))))

/-- Settles O11: each field is read off ENGSTAT's list of bits at its place. -/
theorem engstatFields : Obligations.EngstatFields := by
  refine ⟨⟨rfl, rfl, rfl, rfl, rfl, rfl, rfl⟩, fun s => ?_⟩
  obtain ⟨-, bit⟩ := hasBits_engstat s
  refine ⟨?_, bit 3, bit 4, ?_, ?_, bit 7, ?_, bit 9, ?_⟩
  · ext k hk
    rw [BitVec.getElem_extractLsb', bit]
    interval_cases k <;> rfl
  · exact (bit 5).trans (congrArg (· != s.sda) (BitVec.msb_eq_getLsbD_last s.shreg))
  · rw [bit]
    exact beq_iff_eq
  · rw [bit]
    exact beq_iff_eq
  · show BitVec.extractLsb' 10 6 s.engstat = 0#6
    ext k hk
    rw [BitVec.getElem_extractLsb', bit, BitVec.getElem_zero]
    interval_cases k <;> rfl

end Sys2Proof.Machine
end

section
/-! PROOFS. Which micro-steps a command can come to: a property of micro-steps that a command's
micro-program has, and that the loops pass on, holds of every micro-step the command makes. From it, which
commands write which bytes of RX, and which Delays are waited. -/

namespace Sys2Proof.Machine

/-! ## The micro-steps still to come -/

/-- The micro-steps at and after the position UPC, without those that a loop puts in front later. -/
def programOf (u : Option Upc) : List Work :=
  match u with
  | some (.op w rest _) => w :: rest
  | _ => []

/-- `p` holds of every micro-step of a list. -/
def allOps (p : MicroOp → Bool) (ws : List Work) : Bool := ws.all fun w => p w.op

theorem allOps_append (p : MicroOp → Bool) (xs ys : List Work) :
    allOps p (xs ++ ys) = (allOps p xs && allOps p ys) := List.all_append

/-- The micro-steps that loop, or use a value as RECEIVE does, and what each puts in front of what follows. -/
theorem flow_again {op : MicroOp} {s : State} {more : List Work} (h : op.flow s = .again more) :
    (op = .readScl ∧ more = [plain .readScl]) ∨ (op = .shift ∧ more = pulseProg) ∨
    (∃ i, op = .preset (.toRx i) ∧ more = [plain (.writeRx i s.shreg)]) ∨
    (∃ i n, op = .preset (.ackSent i n) ∧ i.toNat + 1 < n.toNat ∧
      more = receiveByteProg (i + 1) n none) := by
  cases op with
  | readScl =>
    simp only [MicroOp.flow] at h
    repeat' split at h
    all_goals cases h
    exact .inl ⟨rfl, rfl⟩
  | shift =>
    simp only [MicroOp.flow] at h
    split at h <;> cases h
    exact .inr (.inl ⟨rfl, rfl⟩)
  | preset use =>
    cases use with
    | toRx i => cases h; exact .inr (.inr (.inl ⟨i, rfl, rfl⟩))
    | ackSent i n =>
      simp only [MicroOp.flow, PresetUse.flow] at h
      split at h <;> cases h
      exact .inr (.inr (.inr ⟨i, n, rfl, ‹_›, rfl⟩))
    | ack ph => exact absurd h (Flow.ofCode_ne_again _ _)
    | _ => cases h
  | check c => exact absurd h (Flow.ofCode_ne_again _ _)
  | _ => cases h

/-- `p` holds of every micro-step of a data byte, and of all that a micro-step with `p` puts in front. -/
structure PassedOn (p : MicroOp → Bool) : Prop where
  transmit : ∀ b, allOps p (transmitProg .data b none) = true
  again : ∀ op s more, p op = true → op.flow s = .again more → allOps p more = true

section Passed

variable {p : MicroOp → Bool}

theorem returnOp_allOps (k : Kont) (r : FaultCode) (g : Option Byte) (s : State) :
    allOps p (programOf (returnOp k r g s).upc) = true := by cases k <;> rfl

theorem proceed_allOps {k : Kont} {ws : List Work} (h : allOps p ws = true) (g : Option Byte)
    (s : State) : allOps p (programOf (proceed k ws g s).upc) = true := by
  cases ws with
  | nil => exact returnOp_allOps k .ok g s
  | cons w rest => exact h

theorem repeatLoop_allOps (hp : PassedOn p) (n : Nat) (b : Byte) (s : State) :
    allOps p (programOf (repeatLoop n b s).upc) = true := by
  unfold repeatLoop
  split
  · exact proceed_allOps (hp.transmit b) none s
  · rfl

theorem engineStep_allOps (hp : PassedOn p) {s : State} (h : allOps p (programOf s.upc) = true) :
    allOps p (programOf (engineStep s).upc) = true := by
  match hu : s.upc with
  | none => simp [engineStep, hu, programOf, allOps]
  | some (.sess as (.finish o g)) => simp [engineStep, hu, sessEnd, programOf, allOps]
  | some (.sess as (.again r n b)) =>
    simp only [engineStep, hu, sessEnd]
    exact repeatLoop_allOps hp n b _
  | some (.op w rest k) =>
    rw [hu] at h
    obtain ⟨hw, hr⟩ : p w.op = true ∧ allOps p rest = true := by
      simpa [programOf, allOps] using h
    rw [engineStep_op hu, afterOp]
    split
    · exact proceed_allOps hr _ _
    · rename_i more hf
      exact proceed_allOps (by rw [allOps_append, hp.again _ _ _ hw hf, hr]; rfl) _ _
    · exact returnOp_allOps k _ none _

/-- What a Peer step keeps, and an engine micro-step keeps that has `p`, a run of micro-steps with `p` keeps. -/
theorem run_induct_allOps (hp : PassedOn p) {P : State → Prop}
    (hpeer : ∀ s ms, P s → P { s with peer := ms }) (hmove : ∀ s m, P s → P (peerStep m s))
    (hengine : ∀ s, P s → allOps p (programOf s.upc) = true → P (engineStep s)) {s : State}
    (h : P s) (hs : allOps p (programOf s.upc) = true) : P (run s) := by
  refine (run_induct_agents (P := fun t => P t ∧ allOps p (programOf t.upc) = true)
    (fun t ms ht => ⟨hpeer t ms ht.1, ht.2⟩)
    (fun t _ ht => ⟨hengine t ht.1 ht.2, engineStep_allOps hp ht.2⟩)
    (fun t m ht => ⟨hmove t m ht.1, by simpa using ht.2⟩) ⟨h, hs⟩).1

end Passed

/-! ## The bytes of RX that a command writes (`20_memory.md` rules R80 and R87) -/

/-- A micro-step that writes RX, or leads to one that does, does so below index `n` only. -/
def rxBelow (n : Nat) : MicroOp → Bool
  | .writeRx i _ | .preset (.toRx i) => decide (i.toNat < n)
  | .preset (.ackSent _ k) => decide (k.toNat ≤ n)
  | _ => true

theorem receiveByteProg_rxBelow {n i k : Half} {m : Option Phase} (hi : i.toNat < n.toNat)
    (hk : k.toNat ≤ n.toNat) : allOps (rxBelow n.toNat) (receiveByteProg i k m) = true := by
  simp [allOps, receiveByteProg, bitTransferProg, pulseProg, plain, rxBelow, hi, hk]

theorem passedOn_rxBelow (n : Half) : PassedOn (rxBelow n.toNat) where
  transmit _ := rfl
  again op s more hp hf := by
    obtain ⟨-, rfl⟩ | ⟨-, rfl⟩ | ⟨i, rfl, rfl⟩ | ⟨i, k, rfl, hlt, rfl⟩ := flow_again hf
    · rfl
    · rfl
    · simpa [allOps, plain, rxBelow] using hp
    · have hk : k.toNat ≤ n.toNat := by simpa [rxBelow] using hp
      refine receiveByteProg_rxBelow ?_ hk
      have := k.isLt
      rw [BitVec.toNat_add]
      simp
      omega

/-- A command other than RECEIVE and S_RECEIVE has no micro-step that leads to a write of RX. -/
theorem launched_rxBelow_zero {i : Instr} (hi : ∀ n, i ≠ .receive n ∧ i ≠ .sReceive n) (s : State) :
    allOps (rxBelow (0 : Half).toNat) (programOf (launched i s).upc) = true := by
  cases i with
  | receive n => exact absurd rfl (hi n).1
  | sReceive n => exact absurd rfl (hi n).2
  | sSend b => rw [launched]; split <;> rfl
  | sStop => rw [launched]; split <;> rfl
  | sSendRepeated c b => exact repeatLoop_allOps (passedOn_rxBelow 0) c.toNat b s
  | _ => rfl

theorem receiveProg_rxBelow (cfg : Config) (n : Half) :
    allOps (rxBelow n.toNat) (receiveProg cfg n) = true := by
  rw [receiveProg, allOps_append, allOps_append, allOps_append]
  split
  · rfl
  · rename_i h0
    have hn : n.toNat ≠ 0 := fun h => h0 (BitVec.eq_of_toNat_eq h)
    rw [receiveByteProg_rxBelow (i := 0) (Nat.pos_of_ne_zero hn) (Nat.le_refl _)]
    rfl

/-- A RECEIVE of n bytes leads to writes of RX below index n only. -/
theorem launched_receive_rxBelow {i : Instr} {n : Half} (hi : i = .receive n ∨ i = .sReceive n)
    (s : State) : allOps (rxBelow n.toNat) (programOf (launched i s).upc) = true := by
  rcases hi with rfl | rfl
  · exact proceed_allOps (receiveProg_rxBelow s.cfg n) none s
  · rw [launched]
    split
    · exact proceed_allOps (receiveProg_rxBelow s.cfg n) none s
    · rfl

/-- A run whose micro-steps write RX below index `n` only leaves every other byte. -/
theorem run_rx_above (n : Half) {s : State} (h : allOps (rxBelow n.toNat) (programOf s.upc) = true)
    {a : Nat} (ha : n.toNat ≤ a) : (run s).rx.read a = s.rx.read a := by
  refine run_induct_allOps (passedOn_rxBelow n) (P := fun t => t.rx.read a = s.rx.read a)
    (fun _ _ ht => ht) (fun _ _ ht => by simpa using ht) (fun t ht hp => ?_) rfl h
  rcases engineStep_rx_or t with e | ⟨i, v, m, rest, k, hu, e⟩
  · rw [e, ht]
  · rw [hu] at hp
    have hi : i.toNat < n.toNat := by
      simp only [programOf, allOps, List.all_cons, rxBelow, Bool.and_eq_true, decide_eq_true_eq] at hp
      exact hp.1
    rw [e, Memory.read_write_other (by omega), ht]

/-- A run with no micro-step that leads to a write of RX leaves RX. -/
theorem run_rx_unwritten {s : State} (h : allOps (rxBelow (0 : Half).toNat) (programOf s.upc) = true) :
    (run s).rx = s.rx := by
  refine run_induct_allOps (passedOn_rxBelow 0) (P := fun t => t.rx = s.rx)
    (fun _ _ ht => ht) (fun _ _ ht => by simpa using ht) (fun t ht hp => ?_) rfl h
  rcases engineStep_rx_or t with e | ⟨i, v, m, rest, k, hu, e⟩
  · rw [e, ht]
  · rw [hu] at hp
    simp [programOf, allOps, rxBelow] at hp

/-- Settles O22: a refusal writes REFUSED only; the micro-programs of the other commands lead to no μWRITERX,
and a RECEIVE's lead to those of its own indices. -/
theorem onlyReceiveWritesItsBytesOfRx : Obligations.OnlyReceiveWritesItsBytesOfRx := by
  intro i s t h
  obtain ⟨-, rfl | ⟨-, -, rfl⟩⟩ := exec_cases h
  · exact ⟨fun _ => rfl, fun _ _ _ _ => rfl⟩
  · refine ⟨fun hi => ?_, fun n hi a ha => ?_⟩
    · rw [run_rx_unwritten (launched_rxBelow_zero hi s), launched_rx]
    · rw [run_rx_above n (launched_receive_rxBelow hi s) ha, launched_rx]

/-! ## The waits (`40_timing_profile.md` rules R140 and R359) -/

/-- Not a wait of `postStart`. -/
def notPostStart : MicroOp → Bool
  | .wait .postStart => false
  | _ => true

theorem passedOn_notPostStart : PassedOn notPostStart where
  transmit _ := rfl
  again op s more _ hf := by
    obtain ⟨-, rfl⟩ | ⟨-, rfl⟩ | ⟨i, -, rfl⟩ | ⟨i, n, -, -, rfl⟩ := flow_again hf <;> rfl

theorem receiveProg_notPostStart (cfg : Config) (n : Half) :
    allOps notPostStart (receiveProg cfg n) = true := by
  rw [receiveProg]
  split <;> rfl

/-- No command's micro-program waits `postStart`. -/
theorem launched_notPostStart (i : Instr) (s : State) :
    allOps notPostStart (programOf (launched i s).upc) = true := by
  cases i with
  | receive n => exact proceed_allOps (receiveProg_notPostStart s.cfg n) none s
  | sReceive n =>
    rw [launched]
    split
    · exact proceed_allOps (receiveProg_notPostStart s.cfg n) none s
    · rfl
  | sSend b => rw [launched]; split <;> rfl
  | sStop => rw [launched]; split <;> rfl
  | sSendRepeated c b => exact repeatLoop_allOps passedOn_notPostStart c.toNat b s
  | _ => rfl

/-- Every wait among the events carries its Delay's cycle count, and none is of `postStart`. -/
def WaitsAsConfigured (cfg : Config) (es : List Event) : Prop :=
  ∀ e ∈ es, ∀ d c, e.kind = .wait d c → d ≠ .postStart ∧ c = delayOf cfg.dly d

theorem WaitsAsConfigured.cons {cfg : Config} {es : List Event} {e : Event}
    (h : WaitsAsConfigured cfg es)
    (he : ∀ d c, e.kind = .wait d c → d ≠ .postStart ∧ c = delayOf cfg.dly d) :
    WaitsAsConfigured cfg (e :: es) := by
  intro x hx
  rcases List.mem_cons.1 hx with rfl | hx
  · exact he
  · exact h x hx

/-- An engine micro-step adds at most one event: a μSESS's, or that of its micro-step. -/
theorem engineStep_trace_or (s : State) : (engineStep s).trace = s.trace ∨
    ∃ e, (engineStep s).trace = e :: s.trace ∧ ((∃ as, e.kind = .sess as) ∨
      ∃ w rest k, s.upc = some (.op w rest k) ∧ e.kind = w.op.event s) := by
  match hu : s.upc with
  | none => exact .inl (by simp [engineStep, hu])
  | some (.sess as e) =>
    exact .inr ⟨⟨.sess as, _, _⟩, by simp [engineStep, hu]; exact ⟨rfl, rfl⟩, .inl ⟨as, rfl⟩⟩
  | some (.op w rest k) =>
    refine .inr ⟨⟨w.op.event s, (w.op.write s).scl, (w.op.write s).sda⟩, ?_,
      .inr ⟨w, rest, k, rfl, rfl⟩⟩
    rw [engineStep_op hu, afterOp]
    split <;> simp

theorem event_wait {op : MicroOp} {s : State} {d : DelayName} {c : Nat}
    (h : op.event s = .wait d c) : op = .wait d ∧ c = delayOf s.cfg.dly d := by
  cases op <;> simp [MicroOp.event] at h
  obtain ⟨rfl, rfl⟩ := h
  exact ⟨rfl, rfl⟩

/-- Every wait of a run of micro-steps that wait no `postStart` is as configured. -/
theorem run_waits {s : State} (h : allOps notPostStart (programOf s.upc) = true) :
    ∃ es, (run s).trace = es ++ s.trace ∧ WaitsAsConfigured s.cfg es := by
  refine (run_induct_allOps passedOn_notPostStart (P := fun t => t.cfg = s.cfg ∧
    ∃ es, t.trace = es ++ s.trace ∧ WaitsAsConfigured s.cfg es) (fun _ _ ht => ht) ?_ ?_
    ⟨rfl, [], rfl, nofun⟩ h).2
  · rintro t m ⟨hc, es, ht, hw⟩
    refine ⟨by simpa using hc, ?_⟩
    cases m with
    | pass => exact ⟨es, ht, hw⟩
    | scl b => exact ⟨_ :: es, congrArg _ ht, hw.cons nofun⟩
    | sda b => exact ⟨_ :: es, congrArg _ ht, hw.cons nofun⟩
  · rintro t ⟨hc, es, ht, hw⟩ hp
    refine ⟨by simpa using hc, ?_⟩
    rcases engineStep_trace_or t with e | ⟨ev, e, ⟨as, hk⟩ | ⟨w, rest, k, hu, hk⟩⟩
    · exact ⟨es, e.trans ht, hw⟩
    · exact ⟨ev :: es, by rw [e, ht]; rfl, hw.cons fun d c h => by rw [hk] at h; cases h⟩
    · refine ⟨ev :: es, by rw [e, ht]; rfl, hw.cons fun d c h => ?_⟩
      obtain ⟨ho, rfl⟩ := event_wait (hk.symm.trans h)
      refine ⟨?_, by rw [hc]⟩
      rintro rfl
      rw [hu] at hp
      simp [programOf, allOps, ho, notPostStart] at hp

/-- In every command each wait is as configured (rules R140 and R359). -/
theorem exec_waits {i : Instr} {s t : State} (h : exec i s = .next t) :
    ∃ es, t.trace = es ++ s.trace ∧ WaitsAsConfigured s.cfg es := by
  obtain ⟨-, rfl | ⟨-, -, rfl⟩⟩ := exec_cases h
  · exact ⟨[], rfl, nofun⟩
  · obtain ⟨es, he, hw⟩ := run_waits (launched_notPostStart i s)
    exact ⟨es, by simpa using he, by simpa using hw⟩

end Sys2Proof.Machine
end

section
/-! PROOFS. RECEIVE's outcomes for every Peer, and S_RECEIVE as RECEIVE followed by one μSESS. -/

namespace Sys2Proof.Machine

/-! ## RECEIVE (`43_byte_engine.md` rules R230 and R232) -/

/-- Nothing received. -/
theorem SameRx.in_trace {s t : State} {es : List Event} (h : SameRx s t)
    (he : t.trace = es ++ s.trace) : rxWrites es.reverse = [] := by
  obtain ⟨vs, hl, hw, -⟩ := (h.receives 0).in_trace he
  rw [hw, List.length_eq_zero_iff.1 hl]
  rfl

/-- A `Receive(N)` from `s` that returns `r` in state `t` has received the bytes `vs`: TRACE gets their
μWRITERX events among `es`, RX holds them, and `r` says how many they are and where the drivers are. -/
structure Received (n : Half) (s t : State) (r : FaultCode) (es : List Event) (vs : List Byte) :
    Prop where
  events : rxWrites es.reverse = vs.mapIdx (fun a v => (a, v))
  length : vs.length ≤ n.toNat
  read : ∀ a, t.rx.read a = if a < vs.length then vs[a]? else s.rx.read a
  result : (r = .ok ∧ t.sclDrv = .rel ∧ t.sdaForce = false ∧ t.sdaDir = .outward ∧ t.stopDet = true ∧
      vs.length = n.toNat) ∨
    (r = .clockHighTimeout ∧ t.sclDrv = .rel) ∨
    ((r = .missingStart ∨ r = .dataCollision) ∧ vs = [] ∧ t.rx = s.rx ∧ t.sclDrv = .low) ∨
    (r = .addressNack ∧ vs = [] ∧ t.rx = s.rx ∧ t.sclDrv = .low ∧ t.sdaDir = .inward ∧
      t.shreg = 0xFF) ∨
    (r = .missingStop ∧ t.sclDrv = .rel ∧ vs.length = n.toNat)

/-- Nothing is received before the loop. -/
theorem Received.none {n : Half} {s t : State} {r : FaultCode} {es : List Event} (h : SameRx s t)
    (he : t.trace = es ++ s.trace)
    (hr : ((r = .missingStart ∨ r = .dataCollision) ∧ t.sclDrv = .low) ∨
      (r = .addressNack ∧ t.sclDrv = .low ∧ t.sdaDir = .inward ∧ t.shreg = 0xFF)) :
    Received n s t r es [] := by
  refine ⟨h.in_trace he, Nat.zero_le _, fun a => by simp [h.1], ?_⟩
  rcases hr with ⟨hr, hd⟩ | ⟨hr, hd, hi, hs⟩
  · exact .inr (.inr (.inl ⟨hr, rfl, h.1, hd⟩))
  · exact .inr (.inr (.inr (.inl ⟨hr, rfl, h.1, hd, hi, hs⟩)))

/-- `Receive(N)` returns, whichever command runs it, with the registers of `State.kept` as they were. -/
theorem returns_receive (cfg : Config) (n : Half) (s : State) :
    ∃ r t, Returns (receiveProg cfg n) s r t ∧ t.kept = s.kept ∧
      ∀ es, t.trace = es ++ s.trace → ∃ vs, Received n s t r es vs := by
  refine (does_receive cfg n s).returns (fun t h => ?_) fun r t h => ?_
  · obtain ⟨hk, hstop, hd, hf, hdir, hrx⟩ := h
    refine ⟨hk, fun es he => ?_⟩
    obtain ⟨vs, hl, hw, hread⟩ := hrx.in_trace he
    exact ⟨vs, hw, by omega, hread, .inl ⟨rfl, hd, hf, hdir, hstop, hl⟩⟩
  · obtain ⟨hk, ⟨hr, hd, k, hle, hrx⟩ | ⟨hr, hd, hrx⟩ | ⟨hr, hd, hi, hsh, hrx⟩ | ⟨hr, hd, hrx⟩⟩ := h
    · refine ⟨hk, fun es he => ?_⟩
      obtain ⟨vs, hl, hw, hread⟩ := hrx.in_trace he
      exact ⟨vs, hw, by omega, hread, .inr (.inl ⟨hr, hd⟩)⟩
    · have hr' : r = .missingStart ∨ r = .dataCollision := by simpa [preCheckCodes] using hr
      exact ⟨hk, fun es he => ⟨[], .none hrx he (.inl ⟨hr', hd⟩)⟩⟩
    · exact ⟨hk, fun es he => ⟨[], .none hrx he (.inr ⟨hr, hd, hi, hsh⟩)⟩⟩
    · refine ⟨hk, fun es he => ?_⟩
      obtain ⟨vs, hl, hw, hread⟩ := hrx.in_trace he
      exact ⟨vs, hw, by omega, hread, .inr (.inr (.inr (.inr ⟨hr, hd, hl⟩)))⟩

/-- Settles O48: RECEIVE's operation returns as `returns_receive` says, and `finish` writes RESULT, VALUE and
PHASE. -/
theorem receiveOutcomes : Obligations.ReceiveOutcomes := by
  intro n s hu ho
  obtain ⟨r, t, hr, -, hrx⟩ := returns_receive s.cfg n s
  have e : exec (.receive n) s = .next (finish .receive r none t) := by
    rw [exec_receive n hu ho, hr, run_returnOp_finish]
  obtain ⟨-, -, -, ⟨es, he⟩, -⟩ := commandsKeepConfigAndHistory _ _ _ e
  obtain ⟨vs, hw, hl, hread, hres⟩ := hrx es he
  refine ⟨_, r, es, vs, e, rfl, rfl, rfl, he, hw, hl, hread, ?_⟩
  simp only [finish_phase, finish_sclDrv, finish_sdaForce, finish_sdaDir, finish_stopDet, finish_rx,
    finish_shreg]
  rcases hres with ⟨rfl, hd, hf, hdir, hstop, hl⟩ | ⟨rfl, hd⟩ | ⟨rfl | rfl, hv, hx, hd⟩ |
    ⟨rfl, hv, hx, hd, hi, hs⟩ | ⟨rfl, hd, hl⟩
  · exact .inl ⟨rfl, rfl, hd, hf, hdir, hstop, hl⟩
  · exact .inr ⟨rfl, .inl ⟨rfl, hd⟩⟩
  · exact .inr ⟨rfl, .inr (.inl ⟨rfl, hv, hx, hd⟩)⟩
  · exact .inr ⟨rfl, .inr (.inr (.inl ⟨rfl, hv, hx, hd⟩))⟩
  · exact .inr ⟨rfl, .inr (.inr (.inr (.inl ⟨rfl, hv, hx, hd, hi, hs⟩)))⟩
  · exact .inr ⟨rfl, .inr (.inr (.inr (.inr ⟨rfl, hd, hl⟩)))⟩

/-! ## A raw command does not look at SESS_OPEN -/

/-- `s` with another value in SESS_OPEN. -/
def State.withOpen (s : State) (b : Bool) : State := { s with sessOpen := b }

/-- No command runs, or a raw one. -/
def runsRaw : Option Upc → Bool
  | none => true
  | some (.op _ _ (.finish _)) => true
  | _ => false

theorem proceed_withOpen (op : OpKind) (ws : List Work) (g : Option Byte) (s : State) (b : Bool) :
    proceed (.finish op) ws g (s.withOpen b) = (proceed (.finish op) ws g s).withOpen b := by
  cases ws <;> rfl

theorem proceed_runsRaw (op : OpKind) (ws : List Work) (g : Option Byte) (s : State) :
    runsRaw (proceed (.finish op) ws g s).upc = true := by cases ws <;> rfl

/-- An engine micro-step of a raw command does not look at SESS_OPEN, and leaves a raw command, or none. -/
theorem engineStep_withOpen {s : State} (h : runsRaw s.upc = true) (b : Bool) :
    engineStep (s.withOpen b) = (engineStep s).withOpen b ∧ runsRaw (engineStep s).upc = true := by
  match hu : s.upc with
  | none => simp [engineStep, hu, State.withOpen, runsRaw]
  | some (.sess as e) => rw [hu] at h; cases h
  | some (.op w rest k) =>
    obtain ⟨op, rfl⟩ : ∃ op, k = .finish op := by
      rw [hu] at h
      cases k with
      | finish op => exact ⟨op, rfl⟩
      | _ => cases h
    have hf : w.op.flow (s.withOpen b) = w.op.flow s := by cases w.op <;> rfl
    have hc : commit (s.withOpen b) (w.op.write (s.withOpen b)) (w.op.event (s.withOpen b)) =
        (commit s (w.op.write s) (w.op.event s)).withOpen b := by cases w.op <;> rfl
    have hs : ∀ t : State, stamp w.mark (t.withOpen b) = (stamp w.mark t).withOpen b := fun t => by
      cases w.mark <;> rfl
    rw [engineStep_op hu, engineStep_op (s := s.withOpen b) hu, afterOp, afterOp, hf, hc]
    cases w.op.flow s with
    | next g => exact ⟨by simp only [hs, proceed_withOpen], proceed_runsRaw ..⟩
    | again more => exact ⟨proceed_withOpen .., proceed_runsRaw ..⟩
    | stop r => exact ⟨rfl, rfl⟩

theorem tick_withOpen {s : State} (h : runsRaw s.upc = true) (b : Bool) :
    tick (s.withOpen b) = (tick s).withOpen b ∧ runsRaw (tick s).upc = true := by
  unfold tick
  have hp : (s.withOpen b).peer = s.peer := rfl
  rw [hp]
  match s.peer with
  | [] => exact engineStep_withOpen h b
  | .pass :: rest => exact engineStep_withOpen (s := { s with peer := rest }) h b
  | .scl l :: rest => exact ⟨rfl, h⟩
  | .sda l :: rest => exact ⟨rfl, h⟩

/-- A raw command's run does not look at SESS_OPEN. -/
theorem run_withOpen {s : State} (h : runsRaw s.upc = true) (b : Bool) :
    run (s.withOpen b) = (run s).withOpen b := by
  have hn : (s.withOpen b).peer.length + engineBudget (s.withOpen b) =
    s.peer.length + engineBudget s := rfl
  unfold run
  rw [hn]
  generalize s.peer.length + engineBudget s = n
  induction n generalizing s with
  | zero => rfl
  | succ n ih =>
    obtain ⟨ht, hr⟩ := tick_withOpen h b
    have hu : (s.withOpen b).upc = s.upc := rfl
    unfold runFor
    rw [hu, ht]
    split
    · rfl
    · exact ih hr rfl

/-- What a raw command's operation returns in a state with another SESS_OPEN. -/
theorem Returns.finish_withOpen {ws : List Work} {s t : State} {r : FaultCode}
    (h : Returns ws s r t) (op : OpKind) (b : Bool) :
    run (proceed (.finish op) ws none (s.withOpen b)) = (finish op r none t).withOpen b := by
  rw [proceed_withOpen, run_withOpen (proceed_runsRaw op ws none s), h, run_returnOp_finish]

/-! ## The closing μSESS of a session command -/

/-- A Peer's turn adds only its own events to TRACE. -/
theorem takeTurn_trace (ms : List PeerMove) (s : State) :
    ∃ ps, (takeTurn ms s).trace = ps ++ s.trace ∧ ∀ e ∈ ps, e.kind.byEngine = false := by
  induction ms generalizing s with
  | nil => exact ⟨[], rfl, nofun⟩
  | cons m ms ih =>
    cases m with
    | pass => exact ⟨[], rfl, nofun⟩
    | scl b =>
      obtain ⟨ps, e, h⟩ := ih (peerStep (.scl b) { s with peer := ms })
      exact ⟨ps ++ [_], by rw [List.append_assoc]; exact e, by
        simpa [or_imp, forall_and] using ⟨h, rfl⟩⟩
    | sda b =>
      obtain ⟨ps, e, h⟩ := ih (peerStep (.sda b) { s with peer := ms })
      exact ⟨ps ++ [_], by rw [List.append_assoc]; exact e, by
        simpa [or_imp, forall_and] using ⟨h, rfl⟩⟩

theorem writeAll_setUpc (as : List SessAssign) (s : State) (x : Option Upc) :
    writeAll as { s with upc := x } = { writeAll as s with upc := x } := by
  unfold writeAll
  induction as generalizing s with
  | nil => rfl
  | cons a as ih =>
    rw [List.foldl_cons, List.foldl_cons, ← ih]
    cases a <;> rfl

/-- A μSESS that closes its command is made in the state `u` after the Peer's turn: `u` has the master's part
of `s`, and TRACE has in between the Peer's own events `ps`. With no Peer move left, `u` is `s`. -/
theorem run_sess_after_turn (as : List SessAssign) (o : Option (OpKind × FaultCode)) (g : SessGive)
    (s : State) : ∃ u ps, u.master = s.master ∧ u.trace = ps ++ s.trace ∧
      (∀ e ∈ ps, e.kind.byEngine = false) ∧ (s.peer = [] → u = s ∧ ps = []) ∧
      run { s with upc := some (.sess as (.finish o g)) } =
        finishS o g (commit u (writeAll as u) (.sess as)) := by
  obtain ⟨ps, hps, hpeer⟩ := takeTurn_trace s.peer s
  refine ⟨takeTurn s.peer s, ps, takeTurn_master _ s, hps, hpeer, fun hp => ?_, ?_⟩
  · have e := takeTurn_nil hp
    rw [e] at hps
    exact ⟨e, by simpa using hps⟩
  · have hu : ({ takeTurn s.peer s with upc := some (.sess as (.finish o g)) } : State).upc =
        some (.sess as (.finish o g)) := rfl
    rw [run_turn (by simp), takeTurn_setUpc]
    simp only [engineStep, sessEnd, writeAll_setUpc]
    exact run_of_idle rfl

/-- A step that leaves both lines only adds its event. -/
theorem commit_of_lines {s0 s1 : State} (hc : s1.scl = s0.scl) (hd : s1.sda = s0.sda) (k : EventKind) :
    commit s0 s1 k = { s1 with trace := ⟨k, s0.scl, s0.sda⟩ :: s1.trace } := by
  simp [commit, hc, hd, startEdge_still, stopEdge_still]

/-- A μSESS leaves both lines. -/
theorem commit_writeAll (as : List SessAssign) (s : State) (k : EventKind) :
    commit s (writeAll as s) k = { writeAll as s with trace := ⟨k, s.scl, s.sda⟩ :: s.trace } := by
  rw [commit_of_lines (by simp [State.scl, State.pullsScl]) (by simp [State.sda, State.pullsSda]),
    writeAll_trace]

theorem rxWrites_of_peer {ps : List Event} (h : ∀ e ∈ ps, e.kind.byEngine = false) :
    rxWrites ps = [] := by
  refine List.filterMap_eq_nil_iff.2 fun e he => ?_
  have := h e he
  cases hk : e.kind <;> simp [hk, EventKind.byEngine] at this ⊢

/-- A μSESS and the Peer's events before it receive nothing. -/
theorem rxWrites_sess_after_turn {as : List SessAssign} {a b : Bool} {ps es : List Event}
    (h : ∀ e ∈ ps, e.kind.byEngine = false) :
    rxWrites (⟨.sess as, a, b⟩ :: (ps ++ es)).reverse = rxWrites es.reverse := by
  have hp : rxWrites ps.reverse = [] := rxWrites_of_peer fun e he => h e (List.mem_reverse.1 he)
  simp only [rxWrites, List.reverse_cons, List.reverse_append, List.filterMap_append] at hp ⊢
  simp [hp]

/-- S_RECEIVE in a faulted session touches no hardware (`45_session.md` rule R280). -/
theorem sReceive_faulted (n : Half) {s : State} {f : FaultCode} (hu : s.upc = none)
    (ho : s.sessOpen = true) (hs : s.sessFault = some f) (hf : f ≠ .ok) :
    ∃ t es, exec (.sReceive n) s = .next t ∧ t.upc = none ∧ t.value = none ∧ t.sessOpen = false ∧
      t.sessStep = s.sessStep ∧ t.sessFault = some f ∧ t.result = some f ∧
      t.trace = es ++ s.trace ∧ rxWrites es.reverse = [] ∧ t.phase = s.phase ∧ t.rx = s.rx ∧
      t.sclDrv = s.sclDrv ∧ t.sdaForce = s.sdaForce ∧ t.sdaDir = s.sdaDir ∧ t.shreg = s.shreg := by
  obtain ⟨u, ps, hm, ht, hp, -, e⟩ := run_sess_after_turn [.openTo false] none .nothing s
  rw [commit_writeAll] at e
  have hx := exec_sReceive_faulted n hu ho (by simpa [hs] using hf)
  rw [e] at hx
  have hfu : u.sessFault = some f := (master_sessFault hm).trans hs
  exact ⟨_, ⟨.sess [.openTo false], u.scl, u.sda⟩ :: (ps ++ []), hx, rfl, rfl, rfl,
    (master_sessStep hm :), hfu, hfu, by simp [ht], rxWrites_sess_after_turn hp, (master_phase hm :),
    (master_rx hm :), (master_sclDrv hm :), (master_sdaForce hm :), (master_sdaDir hm :), (master_shreg hm :)⟩

/-- The end of an S_RECEIVE whose operation returned `r`, from the state `u` of its μSESS. -/
def sReceiveDone (r : FaultCode) (u : State) : State :=
  { u with
    sessOpen := false, sessFault := some r, result := some r, value := none, upc := none
    phase := nextPhase .receive r u.phase
    trace := ⟨.sess [.openTo false, .foldFault r], u.scl, u.sda⟩ :: u.trace }

/-- S_RECEIVE with no fault yet: what its operation returns, the Peer's turn, and one μSESS. -/
theorem exec_sReceive_returns {n : Half} {s t : State} {r : FaultCode} (hu : s.upc = none)
    (ho : s.sessOpen = true) (hs : s.sessFault = some .ok) (hk : t.kept = s.kept)
    (h : Returns (receiveProg s.cfg n) s r t) :
    ∃ u ps, u.master = t.master ∧ u.trace = ps ++ t.trace ∧
      (∀ e ∈ ps, e.kind.byEngine = false) ∧ (t.peer = [] → u = t ∧ ps = []) ∧
      exec (.sReceive n) s = .next (sReceiveDone r u) := by
  obtain ⟨u, ps, hm, ht, hp, hq, e⟩ := run_sess_after_turn [.openTo false, .foldFault r]
    (some (.receive, r)) .nothing t
  refine ⟨u, ps, hm, ht, hp, hq, ?_⟩
  have hf : u.sessFault = some .ok :=
    (master_sessFault hm).trans ((registers_of_kept hk).2.2.1.trans hs)
  rw [exec_sReceive_ok n hu ho hs, h]
  refine congrArg _ (e.trans ?_)
  rw [commit_writeAll]
  simp [sReceiveDone, finishS, writeAll, SessAssign.write, SessGive.value, hf]

/-- RECEIVE from the same state with the session closed, by what its operation returns. -/
theorem exec_receive_closed {n : Half} {s t : State} {r : FaultCode} (hu : s.upc = none)
    (h : Returns (receiveProg s.cfg n) s r t) :
    exec (.receive n) { s with sessOpen := false } = .next ((finish .receive r none t).withOpen false) := by
  rw [exec_receive n (s := { s with sessOpen := false }) hu rfl]
  exact congrArg _ (h.finish_withOpen .receive false)

/-- S_RECEIVE with no fault yet: its outcomes and the bytes it receives. -/
theorem sReceive_outcomes (n : Half) {s : State} (hu : s.upc = none) (ho : s.sessOpen = true)
    (hs : s.sessFault = some .ok) :
    ∃ x r es vs, exec (.sReceive n) s = .next x ∧ x.upc = none ∧ x.value = none ∧ x.sessOpen = false ∧
      x.sessStep = s.sessStep ∧ x.sessFault = some r ∧ x.result = some r ∧
      x.trace = es ++ s.trace ∧ rxWrites es.reverse = vs.mapIdx (fun a v => (a, v)) ∧
      vs.length ≤ n.toNat ∧ (∀ a, x.rx.read a = if a < vs.length then vs[a]? else s.rx.read a) ∧
      ((r = .ok ∧ x.phase = .stopped ∧ x.sclDrv = .rel ∧ vs.length = n.toNat) ∨
        (r = .clockHighTimeout ∧ x.phase = .error) ∨
        (r ∈ [FaultCode.missingStart, .dataCollision, .addressNack] ∧ x.phase = .error ∧
          vs = [] ∧ x.rx = s.rx) ∨
        (r = .missingStop ∧ x.phase = .error ∧ vs.length = n.toNat)) := by
  obtain ⟨r, t, hr, hk, hrx⟩ := returns_receive s.cfg n s
  obtain ⟨u, ps, hm, ht, hp, -, hx⟩ := exec_sReceive_returns hu ho hs hk hr
  obtain ⟨-, -, -, ⟨es, he⟩, -⟩ := commandsKeepConfigAndHistory _ _ _ (exec_receive_closed hu hr)
  obtain ⟨vs, hw, hl, hread, hres⟩ := hrx es he
  have hxt : u.rx = t.rx := master_rx hm
  have hd : u.sclDrv = t.sclDrv := master_sclDrv hm
  refine ⟨_, r, ⟨.sess [.openTo false, .foldFault r], u.scl, u.sda⟩ :: (ps ++ es), vs, hx, rfl, rfl, rfl,
    (master_sessStep hm).trans (registers_of_kept hk).2.2.2, rfl, rfl, ?_,
    (rxWrites_sess_after_turn hp).trans hw, hl, fun a => hxt ▸ hread a, ?_⟩
  · have he' : t.trace = es ++ s.trace := he
    simp [sReceiveDone, ht, he']
  · simp only [sReceiveDone, hxt, hd]
    rcases hres with ⟨rfl, hd, -, -, -, hl⟩ | ⟨rfl, -⟩ | ⟨rfl | rfl, hv, hx, -⟩ |
      ⟨rfl, hv, hx, -⟩ | ⟨rfl, -, hl⟩
    · exact .inl ⟨rfl, rfl, hd, hl⟩
    · exact .inr (.inl ⟨rfl, rfl⟩)
    · exact .inr (.inr (.inl ⟨by simp, rfl, hv, hx⟩))
    · exact .inr (.inr (.inl ⟨by simp, rfl, hv, hx⟩))
    · exact .inr (.inr (.inl ⟨by simp, rfl, hv, hx⟩))
    · exact .inr (.inr (.inr ⟨rfl, rfl, hl⟩))

/-- S_RECEIVE with no fault yet is RECEIVE with the session closed, followed by one μSESS. -/
theorem sReceive_as_receive {n : Half} {s x y : State} (hu : s.upc = none) (ho : s.sessOpen = true)
    (hs : s.sessFault = some .ok) (hx : exec (.sReceive n) s = .next x)
    (hy : exec (.receive n) { s with sessOpen := false } = .next y) :
    ∃ r ps, x.result = some r ∧ y.result = some r ∧ x.phase = y.phase ∧ x.sclDrv = y.sclDrv ∧
      x.sdaForce = y.sdaForce ∧ x.sdaDir = y.sdaDir ∧ x.shreg = y.shreg ∧ x.cnt = y.cnt ∧
      x.pollk = y.pollk ∧ x.rx = y.rx ∧ (∀ e ∈ ps, e.kind.byEngine = false) ∧
      x.trace = ⟨.sess [.openTo false, .foldFault r], x.scl, x.sda⟩ :: (ps ++ y.trace) ∧
      (y.peer = [] → x = { y with
        sessOpen := false, sessFault := some r, trace := x.trace } ∧ ps = []) := by
  obtain ⟨r, t, hr, hk, -⟩ := returns_receive s.cfg n s
  obtain ⟨u, ps, hm, ht, hp, hq, hx'⟩ := exec_sReceive_returns hu ho hs hk hr
  rw [hx, Host.Outcome.next.injEq] at hx'
  rw [exec_receive_closed hu hr, Host.Outcome.next.injEq] at hy
  subst hx' hy
  refine ⟨r, ps, rfl, rfl, congrArg (nextPhase .receive r) (master_phase hm :),
    (master_sclDrv hm :), (master_sdaForce hm :),
    (master_sdaDir hm :), (master_shreg hm :), (master_cnt hm :), (master_pollk hm :), (master_rx hm :), hp,
    congrArg _ ht, fun hy => ?_⟩
  obtain ⟨rfl, rfl⟩ := hq hy
  exact ⟨rfl, rfl⟩

/-- Settles O57: with no fault yet S_RECEIVE is RECEIVE and one μSESS; in a faulted session, one μSESS. -/
theorem sReceiveEndsTheSession : Obligations.SReceiveEndsTheSession := by
  intro n s f hu ho hs
  by_cases hf : f = .ok
  · subst hf
    obtain ⟨x, r, es, vs, hx, hupc, hval, hopen, hstep, hfault, hresult, htrace, hevents, hlen, hread, hres⟩ :=
      sReceive_outcomes n hu ho hs
    refine ⟨x, r, es, vs, hx, hupc, hval, hopen, hstep, hfault, hresult, htrace, hevents, hlen, hread, ?_,
      fun _ y hy => ?_⟩
    · rcases hres with h | h | h | h
      · exact .inl ⟨rfl, h⟩
      · exact .inr (.inl ⟨rfl, h⟩)
      · exact .inr (.inr (.inl ⟨rfl, h⟩))
      · exact .inr (.inr (.inr (.inl ⟨rfl, h⟩)))
    · obtain ⟨r', ps, hr', h⟩ := sReceive_as_receive hu ho hs hx hy
      obtain rfl : r = r' := Option.some.inj (hresult.symm.trans hr')
      exact ⟨ps, h⟩
  · obtain ⟨x, es, hx, hupc, hval, hopen, hstep, hfault, hresult, htrace, hevents, hphase, hrx, hdrivers⟩ :=
      sReceive_faulted n hu ho hs hf
    exact ⟨x, f, es, [], hx, hupc, hval, hopen, hstep, hfault, hresult, htrace, hevents, Nat.zero_le _,
      fun a => by simp [hrx],
      .inr (.inr (.inr (.inr ⟨hf, rfl, hphase, rfl, hrx, hdrivers⟩))), fun h => absurd h hf⟩

end Sys2Proof.Machine
end

section
/-! PROOFS. The wire: what a stretch of a micro-program does when the Peer's moves are known, and which bits
the wire carries meanwhile. -/

namespace Sys2Proof.Machine

/-! ## A stretch of micro-program with a known outcome -/

/-- From `s` the micro-steps `ws` go on in state `t`, whichever command runs them and whatever follows. -/
def Goes (ws : List Work) (s t : State) : Prop :=
  ∀ (k : Kont) (rest : List Work), run (proceed k (ws ++ rest) none s) = run (proceed k rest none t)

theorem Goes.nil (s : State) : Goes [] s s := fun _ _ => rfl

theorem Goes.append {xs ys : List Work} {s t u : State} (hx : Goes xs s t) (hy : Goes ys t u) :
    Goes (xs ++ ys) s u := fun k rest => by
  rw [List.append_assoc, hx, hy]

theorem Goes.cons {w : Work} {ws : List Work} {s t u : State} (hw : Goes [w] s t) (hs : Goes ws t u) :
    Goes (w :: ws) s u := Goes.append (xs := [w]) hw hs

/-- A whole operation that goes on to its end returns OK. -/
theorem Goes.returns {ws : List Work} {s t : State} (h : Goes ws s t) : Returns ws s .ok t :=
  fun k => List.append_nil ws ▸ h k []

/-- The Peer, with the moves `ps` to come, lets `n` micro-steps be made and then has `ms` to come: `ps` begins
with so many passes, or it is used up. -/
def Lets (n : Nat) (ps ms : List PeerMove) : Prop := ps = passes n ++ ms ∨ (ps = [] ∧ ms = [])

theorem Lets.silent (n : Nat) : Lets n [] [] := .inr ⟨rfl, rfl⟩

/-- `n` micro-steps, and then `m` more. -/
theorem Lets.split {n m : Nat} {ps ms : List PeerMove} (h : Lets (n + m) ps ms) :
    ∃ qs, Lets n ps qs ∧ Lets m qs ms := by
  rcases h with rfl | ⟨rfl, rfl⟩
  · refine ⟨passes m ++ ms, .inl ?_, .inl rfl⟩
    rw [← List.append_assoc, passes, passes, passes, List.replicate_append_replicate]
  · exact ⟨[], .silent n, .silent m⟩

theorem flow_setPeer (op : MicroOp) (s : State) (ms : List PeerMove) :
    op.flow { s with peer := ms } = op.flow s := by cases op <;> rfl

theorem commit_op_setPeer (op : MicroOp) (s : State) (ms : List PeerMove) :
    commit { s with peer := ms } (op.write { s with peer := ms }) (op.event { s with peer := ms }) =
      { commit s (op.write s) (op.event s) with peer := ms } := by cases op <;> rfl

/-- A micro-step that the Peer lets be made, and that does not loop. -/
theorem run_proceed_lets (k : Kont) (w : Work) (rest : List Work) {s : State} {ms : List PeerMove}
    (h : Lets 1 s.peer ms) :
    run (proceed k (w :: rest) none s) = run (afterOp k w rest { s with peer := ms }) := by
  rcases h with h | ⟨h, rfl⟩
  · exact run_proceed_pass k w rest none h
  · rw [run_proceed_quiet k w rest none h]
    congr 2
    cases s
    simp_all

/-- The state after a micro-step `op` made in `s`, with the moves `ms` of the Peer to come. -/
def made (op : MicroOp) (ms : List PeerMove) (s : State) : State :=
  { commit s (op.write s) (op.event s) with peer := ms }

theorem goes_marked {w : Work} {s : State} {ms : List PeerMove} (h : Lets 1 s.peer ms)
    (hf : w.op.flow s = .next none) : Goes [w] s (stamp w.mark (made w.op ms s)) := fun k rest => by
  rw [List.cons_append, List.nil_append, run_proceed_lets k w rest h, afterOp, flow_setPeer, hf,
    commit_op_setPeer]
  rfl

theorem goes_op {op : MicroOp} {s : State} {ms : List PeerMove} (h : Lets 1 s.peer ms)
    (hf : op.flow s = .next none) : Goes [plain op] s (made op ms s) := goes_marked h hf

/-- A micro-step that puts more in front of what follows. -/
theorem goes_again {op : MicroOp} {more : List Work} {s t : State} {ms : List PeerMove}
    (h : Lets 1 s.peer ms) (hf : op.flow s = .again more) (ht : Goes more (made op ms s) t) :
    Goes [plain op] s t := fun k rest => by
  rw [List.cons_append, List.nil_append, run_proceed_lets k (plain op) rest h, afterOp]
  simp only [plain, flow_setPeer, hf, commit_op_setPeer]
  exact ht k rest

/-- The state after the Peer's move `m` in `s`, with its moves `ms` to come. -/
def moved (m : PeerMove) (ms : List PeerMove) (s : State) : State := peerStep m { s with peer := ms }

@[simp] theorem moved_cnt (m : PeerMove) (ms : List PeerMove) (s : State) :
    (moved m ms s).cnt = s.cnt := by simp [moved]

@[simp] theorem moved_sdaDir (m : PeerMove) (ms : List PeerMove) (s : State) :
    (moved m ms s).sdaDir = s.sdaDir := by simp [moved]

/-- The Peer moves before the next micro-step. -/
theorem goes_move {w : Work} {ws : List Work} {s t : State} {m : PeerMove} {ms : List PeerMove}
    (h : s.peer = m :: ms) (hm : m ≠ .pass) (ht : Goes (w :: ws) (moved m ms s) t) :
    Goes (w :: ws) s t := fun k rest => by
  rw [List.cons_append, run_proceed_move k w _ none h hm]
  exact ht k rest

/-! ## The bits on the wire (`30_encoding.md` rule R113) -/

/-- SCL after events in time order, from the level before them. -/
def sclAfter (scl : Bool) (es : List Event) : Bool :=
  match es with
  | [] => scl
  | e :: rest => sclAfter e.scl rest

theorem riseSamples_append (scl : Bool) (es fs : List Event) :
    riseSamples scl (es ++ fs) = riseSamples scl es ++ riseSamples (sclAfter scl es) fs := by
  induction es generalizing scl with
  | nil => rfl
  | cons e es ih =>
    simp only [List.cons_append, riseSamples, sclAfter, ih]
    split <;> rfl

theorem sclAfter_append (scl : Bool) (es fs : List Event) :
    sclAfter scl (es ++ fs) = sclAfter (sclAfter scl es) fs := by
  induction es generalizing scl with
  | nil => rfl
  | cons e es ih => exact ih e.scl

/-- From `s` to `t` the wire carries `bits`, with SCL at `scl` before: TRACE gets events whose rising edges of
SCL show them, the last one with SCL as it is in `t`. -/
def Carries (scl : Bool) (s t : State) (bits : List Bool) : Prop :=
  ∃ es, t.trace = es ++ s.trace ∧ riseSamples scl es.reverse = bits ∧ sclAfter scl es.reverse = t.scl

theorem Carries.refl (s : State) : Carries s.scl s s [] := ⟨[], rfl, rfl, rfl⟩

theorem Carries.trans {scl : Bool} {s t u : State} {xs ys : List Bool} (h : Carries scl s t xs)
    (h' : Carries t.scl t u ys) : Carries scl s u (xs ++ ys) := by
  obtain ⟨es, he, hb, hl⟩ := h
  obtain ⟨fs, hf, hb', hl'⟩ := h'
  refine ⟨fs ++ es, by rw [hf, he, List.append_assoc], ?_, ?_⟩
  · rw [List.reverse_append, riseSamples_append, hb, hl, hb']
  · rw [List.reverse_append, sclAfter_append, hl, hl']

/-- One event that leaves SCL low, or lets it fall. -/
theorem Carries.low {scl : Bool} {s t : State} {k : EventKind} {b : Bool}
    (h : t.trace = ⟨k, false, b⟩ :: s.trace) (hc : t.scl = false) : Carries scl s t [] :=
  ⟨[⟨k, false, b⟩], h, by simp [riseSamples], hc.symm⟩

/-- The kinds of the events from `s` to `t`, in time order. -/
def Logs (s t : State) (kinds : List EventKind) : Prop :=
  ∃ es, t.trace = es ++ s.trace ∧ es.reverse.map (fun e => e.kind) = kinds

theorem Logs.trans {s t u : State} {xs ys : List EventKind} (h : Logs s t xs) (h' : Logs t u ys) :
    Logs s u (xs ++ ys) := by
  obtain ⟨es, he, hk⟩ := h
  obtain ⟨fs, hf, hk'⟩ := h'
  exact ⟨fs ++ es, by rw [hf, he, List.append_assoc], by
    rw [List.reverse_append, List.map_append, hk, hk']⟩

theorem Logs.one {s t : State} {e : Event} (h : t.trace = e :: s.trace) : Logs s t [e.kind] :=
  ⟨[e], h, rfl⟩

/-- The bits and the kinds are those of the same events. -/
theorem Carries.with_logs {scl : Bool} {s t : State} {bits : List Bool} {kinds : List EventKind}
    (h : Carries scl s t bits) (h' : Logs s t kinds) : ∃ es, t.trace = es ++ s.trace ∧
      riseSamples scl es.reverse = bits ∧ es.reverse.map (fun e => e.kind) = kinds := by
  obtain ⟨es, he, hb, -⟩ := h
  obtain ⟨fs, hf, hk⟩ := h'
  obtain rfl : es = fs := List.append_cancel_right (he.symm.trans hf)
  exact ⟨es, he, hb, hk⟩

/-! ## Micro-steps while the master alone holds SCL low -/

/-- The master holds SCL low, no other device does, and the master does not force SDA. -/
structure State.Clocking (s : State) : Prop where
  low : s.sclDrv = .low
  alone : s.peerSclLow = false
  unforced : s.sdaForce = false

theorem State.Clocking.scl {s : State} (h : s.Clocking) : s.scl = false := by
  simp [State.scl, State.pullsScl, h.low]

/-- With SCL low before and after it, a step adds its event, and no condition is seen and no bit sampled. -/
theorem commit_of_low {s0 s1 : State} (h0 : s0.scl = false) (h1 : s1.scl = false) (k : EventKind) :
    commit s0 s1 k = { s1 with trace := ⟨k, false, s1.sda⟩ :: s1.trace } := by
  simp [commit, h0, h1, startEdge, stopEdge]

/-- A micro-step that does not release SCL, while it is held low. -/
theorem made_of_low {op : MicroOp} {s : State} (h : s.Clocking) (ho : (op.write s).sclDrv = .low)
    (ms : List PeerMove) : made op ms s = { op.write s with
      peer := ms
      trace := ⟨op.event s, false, (op.write s).sda⟩ :: s.trace } := by
  rw [made, commit_of_low h.scl (by simp [State.scl, State.pullsScl, ho]), opWrite_trace]

/-- The Peer's move of SDA while SCL is held low. -/
theorem moved_sda_of_low {s : State} (h : s.Clocking) (b : Bool) (ms : List PeerMove) :
    moved (.sda b) ms s = { s with
      peerSdaLow := b
      peer := ms
      trace := ⟨.peerSda b, false, !s.pullsSda && !b⟩ :: s.trace } := by
  have hscl : { s with peer := ms }.scl = false := h.scl
  rw [moved, peerStep_sda]
  simp only [hscl, Bool.false_and, Bool.or_false]
  rfl

end Sys2Proof.Machine
end

section
/-! PROOFS. Pulses of the clock: the bits that the wire carries when the master drives SDA, and when the Peer
does. -/

namespace Sys2Proof.Machine

/-! ## What a transfer keeps while the master holds SCL low -/

/-- Neither condition has been seen. -/
def State.noCondition (s : State) : Prop := s.startDet = false ∧ s.stopDet = false

/-- A stretch of a transfer from a state `s` in which the master holds SCL low: it ends in such a state, the
wire carries `bits`, no condition is made, and RX and the registers of `State.kept` stay. -/
structure Transfers (s t : State) (bits : List Bool) : Prop where
  clocking : t.Clocking
  wire : Carries false s t bits
  noCondition : s.noCondition → t.noCondition
  kept : t.kept = s.kept
  rx : t.rx = s.rx

theorem Transfers.trans {s t u : State} {xs ys : List Bool} (h : Transfers s t xs)
    (h' : Transfers t u ys) : Transfers s u (xs ++ ys) :=
  ⟨h'.clocking, h.wire.trans (by rw [h.clocking.scl]; exact h'.wire),
    fun hs => h'.noCondition (h.noCondition hs), h'.kept.trans h.kept, h'.rx.trans h.rx⟩

theorem opWrite_kept (op : MicroOp) (s : State) : (op.write s).kept = s.kept := by cases op <;> rfl

theorem opWrite_noCondition {s : State} (h : s.noCondition) (op : MicroOp) :
    (op.write s).noCondition := by
  cases op with
  | beginBits n => exact ⟨rfl, rfl⟩
  | _ => exact h

/-- A micro-step that neither releases SCL nor forces SDA nor writes RX. -/
theorem transfers_made {op : MicroOp} {s : State} (h : s.Clocking) (ms : List PeerMove)
    (hc : (op.write s).sclDrv = .low) (hf : (op.write s).sdaForce = false)
    (hx : (op.write s).rx = s.rx) : Transfers s (made op ms s) [] := by
  have halone : (op.write s).peerSclLow = false := by simpa using h.alone
  have hlow : made op ms s = _ := made_of_low h hc ms
  refine ⟨⟨hc, halone, hf⟩, Carries.low (congrArg State.trace hlow) ?_, fun hn => ?_,
    opWrite_kept op s, hx⟩
  · exact State.Clocking.scl ⟨hc, halone, hf⟩
  · rw [hlow]
    exact opWrite_noCondition hn op

/-- A Peer's move of SDA. -/
theorem transfers_sda {s : State} (h : s.Clocking) (b : Bool) (ms : List PeerMove) :
    Transfers s (moved (.sda b) ms s) [] := by
  have e := moved_sda_of_low h b ms
  refine ⟨⟨h.low, h.alone, h.unforced⟩, Carries.low (congrArg State.trace e) h.scl, fun hn => ?_, rfl, rfl⟩
  rw [e]
  exact hn

/-! ## A pulse (`41_bit_transfer.md` rule R173) -/

/-- A pulse up to its falling edge. -/
def pulseHead : List Work :=
  [plain (.wait .preClockHigh), plain .sclRel, plain .readScl, plain (.wait .postClockHigh),
    plain .sclLow]

/-- The state after `pulseHead` from a state that holds SCL low: LATCH holds SDA, and five events are added. -/
def clocked (ms : List PeerMove) (s : State) : State :=
  { s with
    pollk := 0, latch := s.sda, peer := ms
    trace := ⟨.sclLow, false, s.sda⟩ :: ⟨.wait .postClockHigh s.cfg.dly.postClockHigh, true, s.sda⟩ ::
      ⟨.readScl true, true, s.sda⟩ :: ⟨.sclRel, true, s.sda⟩ ::
      ⟨.wait .preClockHigh s.cfg.dly.preClockHigh, false, s.sda⟩ :: s.trace }

/-- The five micro-steps, one by one. -/
theorem made_pulseHead {s : State} (h : s.Clocking) (p1 p2 p3 p4 ms : List PeerMove) :
    made .sclLow ms (made (.wait .postClockHigh) p4 (made .readScl p3 (made .sclRel p2
      (made (.wait .preClockHigh) p1 s)))) = clocked ms s := by
  have hlow := h.low
  have halone := h.alone
  simp [made, commit, clocked, MicroOp.write, MicroOp.event, State.scl, State.sda, State.pullsScl,
    State.pullsSda, startEdge_still, stopEdge_still, hlow, halone, delayOf]

theorem goes_pulseHead {s : State} {ms : List PeerMove} (h : s.Clocking) (hp : Lets 5 s.peer ms) :
    Goes pulseHead s (clocked ms s) := by
  obtain ⟨p1, l1, hp⟩ := Lets.split (n := 1) (m := 4) hp
  obtain ⟨p2, l2, hp⟩ := Lets.split (n := 1) (m := 3) hp
  obtain ⟨p3, l3, hp⟩ := Lets.split (n := 1) (m := 2) hp
  obtain ⟨p4, l4, l5⟩ := Lets.split (n := 1) (m := 1) hp
  have hhigh : (made .sclRel p2 (made (.wait .preClockHigh) p1 s)).scl = true := by
    simp [made, MicroOp.write, State.scl, State.pullsScl, h.alone]
  rw [← made_pulseHead h p1 p2 p3 p4 ms]
  exact (goes_op l1 rfl).cons ((goes_op l2 rfl).cons ((goes_op l3 (by simp [MicroOp.flow, hhigh])).cons
    ((goes_op l4 rfl).cons (goes_op l5 rfl))))

theorem transfers_pulseHead {s : State} (h : s.Clocking) (ms : List PeerMove) :
    Transfers s (clocked ms s) [s.sda] :=
  ⟨⟨h.low, h.alone, h.unforced⟩, ⟨[_, _, _, _, _], rfl, rfl, h.scl.symm⟩, fun hn => hn, rfl, rfl⟩

/-- SHREG with a bit shifted in. -/
def shiftIn (v : Byte) (b : Bool) : Byte := v.extractLsb' 0 7 ++ BitVec.ofBool b

/-- The state after a whole pulse. -/
def pulsed (ms : List PeerMove) (s : State) : State := made .shift ms (clocked ms s)

@[simp] theorem pulsed_shreg (ms : List PeerMove) (s : State) :
    (pulsed ms s).shreg = shiftIn s.shreg s.sda := rfl
@[simp] theorem pulsed_cnt (ms : List PeerMove) (s : State) : (pulsed ms s).cnt = s.cnt - 1 := rfl
@[simp] theorem pulsed_peer (ms : List PeerMove) (s : State) : (pulsed ms s).peer = ms := rfl
@[simp] theorem pulsed_cfg (ms : List PeerMove) (s : State) : (pulsed ms s).cfg = s.cfg := rfl

theorem transfers_pulse {s : State} (h : s.Clocking) (ms : List PeerMove) :
    Transfers s (pulsed ms s) [s.sda] :=
  (transfers_pulseHead h ms).trans (transfers_made (transfers_pulseHead h ms).clocking ms h.low
    h.unforced rfl)

/-- The last pulse of a transfer. -/
theorem goes_pulse_last {s : State} {ms : List PeerMove} (h : s.Clocking) (hc : s.cnt = 1)
    (hp : Lets 6 s.peer ms) : Goes pulseProg s (pulsed ms s) := by
  obtain ⟨p, lp, l1⟩ := Lets.split (n := 5) (m := 1) hp
  have hf : MicroOp.flow .shift (clocked p s) = .next none := by simp [MicroOp.flow, clocked, hc]
  exact (goes_pulseHead h lp).append (goes_op l1 hf)

/-- A pulse that is followed by more. -/
theorem goes_pulse_again {s t : State} {ms : List PeerMove} (h : s.Clocking) (hc : 2 ≤ s.cnt)
    (hp : Lets 6 s.peer ms) (ht : Goes pulseProg (pulsed ms s) t) : Goes pulseProg s t := by
  obtain ⟨p, lp, l1⟩ := Lets.split (n := 5) (m := 1) hp
  have hf : MicroOp.flow .shift (clocked p s) = .again pulseProg := by
    have hcnt : (clocked p s).cnt = s.cnt := rfl
    simp only [MicroOp.flow, hcnt]
    rw [if_neg (by omega)]
  exact (goes_pulseHead h lp).append (goes_again l1 hf ht)

/-- The events of a pulse whose first read gives 1. -/
def pulseKinds (cfg : Config) : List EventKind :=
  [.wait .preClockHigh cfg.dly.preClockHigh, .sclRel, .readScl true,
    .wait .postClockHigh cfg.dly.postClockHigh, .sclLow, .shift]

theorem logs_pulse (ms : List PeerMove) (s : State) : Logs s (pulsed ms s) (pulseKinds s.cfg) :=
  ⟨[_, _, _, _, _, _], rfl, rfl⟩

/-! ## Pulses while the master drives SDA (`41_bit_transfer.md` rules R170 and R174) -/

/-- SDA while the master's SHREG drives it and no other device does. -/
theorem sda_of_outward {s : State} (h : s.Clocking) (hd : s.sdaDir = .outward)
    (hp : s.peerSdaLow = false) : s.sda = s.shreg.msb := by
  simp [State.sda, State.pullsSda, hd, hp, h.unforced]

/-- SDA while the master does not drive it. -/
theorem sda_of_inward {s : State} (hd : s.sdaDir = .inward) : s.sda = !s.peerSdaLow := by
  simp [State.sda, State.pullsSda, hd]

/-- The bits of SHREG after a shift. -/
theorem shiftIn_getLsbD (v : Byte) (b : Bool) (k : Nat) :
    (shiftIn v b).getLsbD k = if k = 0 then b else decide (k < 8) && v.getLsbD (k - 1) := by
  have h : (shiftIn v b).getLsbD k = _ :=
    BitVec.getLsbD_append (x := v.extractLsb' 0 7) (y := BitVec.ofBool b)
  rw [h, BitVec.getLsbD_extractLsb', BitVec.getLsbD_ofBool]
  rcases k with _ | k
  · simp
  · have hk : k < 7 ↔ k + 1 < 8 := by omega
    simp [hk]

/-- The top bits of SHREG are its top bit and then those of SHREG with that bit shifted in. -/
theorem take_msbFirst {c : Nat} (v : Byte) (hc : c < 8) :
    (msbFirst v).take (c + 1) = v.msb :: (msbFirst (shiftIn v v.msb)).take c := by
  interval_cases c <;> simp only [msbFirst, List.take, shiftIn_getLsbD] <;> rfl

/-- Shifting in a byte's bits, most significant first, gives the byte. -/
theorem foldl_shiftIn (v d : Byte) : (msbFirst d).foldl shiftIn v = d := by
  refine BitVec.eq_of_getLsbD_eq fun k hk => ?_
  simp only [msbFirst, List.foldl_cons, List.foldl_nil, shiftIn_getLsbD]
  interval_cases k <;> rfl

/-- Shifting in a byte's own top bits rotates it. -/
theorem foldl_shiftIn_take (n : BitCount) (v : Byte) :
    ((msbFirst v).take (pulses n)).foldl shiftIn v = v.rotateLeft (pulses n) := by
  refine BitVec.eq_of_getLsbD_eq fun k hk => ?_
  cases n with
  | one =>
    show (shiftIn v (v.getLsbD 7)).getLsbD k = _
    rw [shiftIn_getLsbD, pulses, BitVec.getLsbD_rotateLeft]
    rcases k with _ | k
    · simp
    · simp [hk]
  | eight =>
    rw [show (msbFirst v).take (pulses .eight) = msbFirst v from rfl, foldl_shiftIn, pulses,
      BitVec.getLsbD_rotateLeft]
    simp [hk]

/-- The pulses still to make, CNT of them: the wire carries the top bits of SHREG, and SHREG takes them in. -/
theorem goes_pulses_driven (c : Nat) {s : State} {ms : List PeerMove} (h : s.Clocking)
    (hc : s.cnt = c + 1) (hc8 : c < 8) (hd : s.sdaDir = .outward) (hp : s.peerSdaLow = false)
    (hl : Lets (6 * (c + 1)) s.peer ms) : ∃ t, Goes pulseProg s t ∧
      Transfers s t ((msbFirst s.shreg).take (c + 1)) ∧
      Logs s t (List.replicate (c + 1) (pulseKinds s.cfg)).flatten ∧
      t.shreg = ((msbFirst s.shreg).take (c + 1)).foldl shiftIn s.shreg ∧ t.peerSdaLow = false ∧
      t.peer = ms := by
  have hmsb : s.sda = s.shreg.msb := sda_of_outward h hd hp
  induction c generalizing s with
  | zero =>
    have ht := transfers_pulse h ms
    rw [hmsb] at ht
    rw [take_msbFirst s.shreg hc8, ← hmsb]
    exact ⟨pulsed ms s, goes_pulse_last h hc hl, hmsb ▸ ht, by simpa using logs_pulse ms s, rfl, hp, rfl⟩
  | succ c ih =>
    obtain ⟨ps, l1, l2⟩ := Lets.split (n := 6) (m := 6 * (c + 1)) (by rwa [Nat.add_comm])
    have h1 := transfers_pulse h ps
    have hd1 : (pulsed ps s).sdaDir = .outward := hd
    obtain ⟨t, hg, ht, hk, hs, hpt, hq⟩ := ih h1.clocking (by simp [hc]) (by omega) hd1 hp l2
      (sda_of_outward h1.clocking hd1 hp)
    rw [pulsed_shreg, hmsb] at hs ht
    rw [hmsb] at h1
    rw [take_msbFirst s.shreg hc8]
    exact ⟨t, goes_pulse_again h (by omega) l1 hg, h1.trans ht, (logs_pulse ps s).trans hk, hs, hpt, hq⟩

/-! ## Pulses while the Peer drives SDA -/

/-- The Peer's moves for the bits `bs`, each from right after a shift. -/
def presents (bs : List Bool) : List PeerMove := bs.flatMap fun b => .sda (!b) :: passes 6

/-- The pulses still to make, the first with SDA as it is and the others with the bits the Peer presents: the
wire carries these bits and SHREG takes them in. -/
theorem goes_pulses_received (bs : List Bool) {s : State} {ms : List PeerMove} (h : s.Clocking)
    (hc : s.cnt = bs.length + 1) (hd : s.sdaDir = .inward)
    (hp : s.peer = passes 6 ++ (presents bs ++ ms)) : ∃ t, Goes pulseProg s t ∧
      Transfers s t (s.sda :: bs) ∧ t.shreg = (s.sda :: bs).foldl shiftIn s.shreg ∧
      t.sdaDir = .inward ∧ t.peer = ms := by
  induction bs generalizing s with
  | nil => exact ⟨pulsed ms s, goes_pulse_last h hc (.inl hp), transfers_pulse h ms, rfl, hd, rfl⟩
  | cons b bs ih =>
    have hu := transfers_pulse h (presents (b :: bs) ++ ms)
    have hv := transfers_sda hu.clocking (!b) (passes 6 ++ (presents bs ++ ms))
    have hdir : (moved (.sda (!b)) (passes 6 ++ (presents bs ++ ms))
      (pulsed (presents (b :: bs) ++ ms) s)).sdaDir = .inward := hd
    have hb := (sda_of_inward hdir).trans (Bool.not_not b)
    obtain ⟨t, hg, ht, hs, hdt, hq⟩ := ih hv.clocking (by simp [hc]) hdir rfl
    refine ⟨t, goes_pulse_again h (by simp [hc]) (.inl hp) (goes_move (m := .sda (!b)) ?_ nofun hg), ?_,
      ?_, hdt, hq⟩
    · simp [presents]
    · rw [← hb]
      exact (hu.trans hv).trans ht
    · rw [hs, hb]
      rfl

/-! ## BitTransfer up to its μPRESET -/

theorem transfers_beginBits {s : State} (h : s.Clocking) (n : BitCount) (ps : List PeerMove) :
    Transfers s (made (.beginBits n) ps s) [] := transfers_made h ps h.low h.unforced rfl

theorem transfers_wait {s : State} (h : s.Clocking) (d : DelayName) (ps : List PeerMove) :
    Transfers s (made (.wait d) ps s) [] := transfers_made h ps h.low h.unforced rfl

/-- BitTransfer from its pulses: it clears both flags first and waits at the end. -/
theorem bits_of_pulses {n : BitCount} {s t u : State} {bits : List Bool} {ps : List PeerMove}
    (h : s.Clocking) (hp : Lets 1 s.peer ps) (hg : Goes pulseProg (made (.beginBits n) ps s) t)
    (ht : Transfers (made (.beginBits n) ps s) t bits) (hw : Goes [plain (.wait .postTransfer)] t u)
    (hu : Transfers t u []) : Goes (bitsProg n) s u ∧ Transfers s u bits ∧ u.noCondition := by
  have htu := ht.trans hu
  rw [List.append_nil] at htu
  refine ⟨(goes_op hp rfl).cons (hg.append hw), (transfers_beginBits h n ps).trans htu,
    htu.noCondition ?_⟩
  rw [made_of_low (op := .beginBits n) h h.low]
  exact ⟨rfl, rfl⟩

/-- BitTransfer while the master drives SDA: it samples the bits it presents. -/
theorem goes_bits_driven (n : BitCount) {s : State} {ms : List PeerMove} (h : s.Clocking)
    (hd : s.sdaDir = .outward) (hp : s.peerSdaLow = false) (hl : Lets (6 * pulses n + 2) s.peer ms) :
    ∃ t, Goes (bitsProg n) s t ∧ Transfers s t ((msbFirst s.shreg).take (pulses n)) ∧ t.noCondition ∧
      Logs s t (.beginBits n :: ((List.replicate (pulses n) (pulseKinds s.cfg)).flatten ++
        [.wait .postTransfer s.cfg.dly.postTransfer])) ∧
      t.shreg = ((msbFirst s.shreg).take (pulses n)).foldl shiftIn s.shreg ∧ t.peerSdaLow = false ∧
      t.peer = ms := by
  obtain ⟨p1, l1, hl⟩ := Lets.split (n := 1) (m := 6 * pulses n + 1) (by rwa [Nat.add_comm 1])
  obtain ⟨p2, l2, l3⟩ := Lets.split (n := 6 * pulses n) (m := 1) hl
  obtain ⟨c, hc, hc8⟩ : ∃ c, pulses n = c + 1 ∧ c < 8 := by
    cases n with
    | one => exact ⟨0, rfl, by omega⟩
    | eight => exact ⟨7, rfl, by omega⟩
  obtain ⟨t, hg, ht, hk, hs, hpt, rfl⟩ := goes_pulses_driven c (s := made (.beginBits n) p1 s)
    (transfers_beginBits h n p1).clocking hc hc8 hd hp (hc ▸ l2)
  rw [← hc] at ht hk hs
  obtain ⟨hgo, hbits, hn⟩ := bits_of_pulses h l1 hg ht (goes_op l3 rfl)
    (transfers_wait ht.clocking .postTransfer ms)
  refine ⟨_, hgo, hbits, hn, ?_, hs, hpt, rfl⟩
  have hcfg : t.cfg = s.cfg := (registers_of_kept ht.kept).1
  have hb : Logs s (made (.beginBits n) p1 s) [.beginBits n] := Logs.one (e := ⟨.beginBits n, _, _⟩) rfl
  have hw : Logs t (made (.wait .postTransfer) ms t) [.wait .postTransfer t.cfg.dly.postTransfer] :=
    Logs.one (e := ⟨.wait .postTransfer t.cfg.dly.postTransfer, _, _⟩) rfl
  rw [hcfg] at hw
  exact hb.trans (hk.trans hw)

/-- BitTransfer of a byte while the Peer drives SDA, bit 7 from the start and each next one after a shift:
SHREG takes the byte in. -/
theorem goes_bits_received {d : Byte} {s : State} {ms : List PeerMove} (h : s.Clocking)
    (hd : s.sdaDir = .inward) (hb : s.sda = d.getLsbD 7)
    (hp : s.peer = passes 7 ++ (presents (msbFirst d).tail ++ (.sda false :: .pass :: ms))) :
    ∃ t, Goes (bitsProg .eight) s t ∧ Transfers s t (msbFirst d) ∧ t.noCondition ∧ t.shreg = d ∧
      t.peerSdaLow = false ∧ t.peer = ms := by
  obtain ⟨t, hg, ht, hs, -, hq⟩ := goes_pulses_received (msbFirst d).tail (ms := .sda false :: .pass :: ms)
    (s := made (.beginBits .eight) (passes 6 ++ (presents (msbFirst d).tail ++
      (.sda false :: .pass :: ms))) s)
    (transfers_beginBits h _ _).clocking rfl hd rfl
  have hbits : s.sda :: (msbFirst d).tail = msbFirst d := by rw [hb]; rfl
  have hv := transfers_sda ht.clocking false (.pass :: ms)
  have hw := transfers_wait hv.clocking .postTransfer ms
  obtain ⟨hgo, htr, hn⟩ := bits_of_pulses h (.inl hp) hg (hbits ▸ ht)
    (goes_move hq nofun (goes_op (.inl rfl) rfl)) (hv.trans hw)
  exact ⟨_, hgo, htr, hn, hs.trans ((congrArg _ hbits).trans (foldl_shiftIn _ _)), rfl, rfl⟩

/-- The pulse of the ACK bit: the Peer holds SDA low until SCL has fallen. -/
theorem goes_pulse_acked {s : State} {ms : List PeerMove} (h : s.Clocking) (hc : s.cnt = 1)
    (hb : s.sda = false) (hp : s.peer = passes 5 ++ (.sda false :: .pass :: ms)) :
    ∃ t, Goes pulseProg s t ∧ Transfers s t [false] ∧ t.shreg = shiftIn s.shreg false ∧
      t.peerSdaLow = false ∧ t.peer = ms := by
  have ht := transfers_pulseHead h (.sda false :: .pass :: ms)
  rw [hb] at ht
  have hv := transfers_sda ht.clocking false (.pass :: ms)
  have hx := transfers_made (op := .shift) hv.clocking ms hv.clocking.low hv.clocking.unforced rfl
  have hf : MicroOp.flow .shift (moved (.sda false) (.pass :: ms)
      (clocked (.sda false :: .pass :: ms) s)) = .next none := by
    simp [MicroOp.flow, moved, clocked, hc]
  refine ⟨_, (goes_pulseHead h (.inl hp)).append (goes_move rfl nofun (goes_op (.inl rfl) hf)),
    ht.trans (hv.trans hx), ?_, rfl, rfl⟩
  show shiftIn _ (moved _ _ _).latch = _
  rw [moved_sda_of_low ht.clocking]
  exact congrArg (shiftIn s.shreg) hb

/-- BitTransfer of the ACK bit. -/
theorem goes_bits_acked {s : State} {ms : List PeerMove} (h : s.Clocking) (hb : s.sda = false)
    (hp : s.peer = passes 6 ++ (.sda false :: .pass :: .pass :: ms)) :
    ∃ t, Goes (bitsProg .one) s t ∧ Transfers s t [false] ∧ t.noCondition ∧
      t.shreg.getLsbD 0 = false ∧ t.peerSdaLow = false ∧ t.peer = ms := by
  obtain ⟨t, hg, ht, hs, hpt, hq⟩ := goes_pulse_acked (ms := .pass :: ms)
    (s := made (.beginBits .one) (passes 5 ++ (.sda false :: .pass :: .pass :: ms)) s)
    (transfers_beginBits h _ _).clocking rfl hb rfl
  obtain ⟨hgo, htr, hn⟩ := bits_of_pulses h (.inl hp) hg ht (goes_op (ms := ms) (.inl hq) rfl)
    (transfers_wait ht.clocking .postTransfer ms)
  refine ⟨_, hgo, htr, hn, ?_, hpt, rfl⟩
  show t.shreg.getLsbD 0 = false
  rw [hs, shiftIn_getLsbD]
  rfl

end Sys2Proof.Machine
end

section
/-! PROOFS. BITX on a free bus, and TRANSMIT to a Peer that ACKs. -/

namespace Sys2Proof.Machine

/-! ## BITX (`41_bit_transfer.md` rules R170 and R174) -/

/-- BITX's last micro-step gives the host the byte in SHREG. -/
theorem run_preset_give {s : State} (hp : s.peer = []) :
    run (proceed (.finish .bitx) [{ op := .preset .give }] none s) =
      finish .bitx .ok (some s.shreg) (commit s (MicroOp.write (.preset .give) s) .preset) := by
  rw [run_proceed_quiet _ _ _ _ hp]
  exact run_of_idle rfl

/-- BITX while the master drives a free bus and holds SCL low. -/
theorem bitx_samples_what_it_presents {n : BitCount} {s : State} (hu : s.upc = none)
    (ho : s.sessOpen = false) (hph : s.phase ≠ .error) (hp : s.peer = []) (h : s.Clocking)
    (hd : s.sdaDir = .outward) (hf : s.peerSdaLow = false) :
    ∃ t es, exec (.bitx n) s = .next t ∧ t.result = some .ok ∧
      t.value = some (.byte (s.shreg.rotateLeft (pulses n))) ∧ t.startDet = false ∧ t.stopDet = false ∧
      t.trace = es ++ s.trace ∧ riseSamples s.scl es.reverse = (msbFirst s.shreg).take (pulses n) ∧
      es.reverse.map (fun e => e.kind) = .beginBits n ::
        ((List.replicate (pulses n) (pulseKinds s.cfg)).flatten ++
          [.wait .postTransfer s.cfg.dly.postTransfer, .preset]) := by
  obtain ⟨t, hg, ht, hn, hk, hs, -, hq⟩ := goes_bits_driven n h hd hf (by rw [hp]; exact Lets.silent _)
  have he : exec (.bitx n) s = .next (finish .bitx .ok (some t.shreg)
      (commit t (MicroOp.write (.preset .give) t) .preset)) := by
    rw [exec_bitx n hu ho hph, bitTransferProg_eq, hg, run_preset_give hq]
  have hx : Transfers t (made (.preset .give) [] t) [] :=
    transfers_made ht.clocking [] ht.clocking.low ht.clocking.unforced rfl
  have hlog : Logs t (made (.preset .give) [] t) [.preset] := Logs.one (e := ⟨.preset, _, _⟩) rfl
  have hall := ht.trans hx
  obtain ⟨hn1, hn2⟩ := hx.noCondition hn
  obtain ⟨es, hes, hbits, hkinds⟩ := hall.wire.with_logs (hk.trans hlog)
  refine ⟨_, es, he, rfl,
    congrArg (fun v => some (Value.byte v)) (hs.trans (foldl_shiftIn_take n s.shreg)), hn1, hn2, hes, ?_, ?_⟩
  · rw [h.scl, hbits, List.append_nil]
  · rw [hkinds, List.cons_append, List.append_assoc]
    rfl

/-- Settles O33: the pulses sample the bits that SHREG drives, and every wait of every command is as
configured. -/
theorem bitxSamplesWhatItPresents : Obligations.BitxSamplesWhatItPresents := by
  refine ⟨fun n s hu ho hph hp hlow hd hforce halone hfree => ?_, fun i s t h => exec_waits h⟩
  obtain ⟨t, es, he, hr, hv, hn1, hn2, hes, hbits, hkinds⟩ :=
    bitx_samples_what_it_presents (n := n) hu ho hph hp ⟨hlow, halone, hforce⟩ hd hfree
  refine ⟨t, es, he, hr, hv, ?_, hn1, hn2, hes, hbits, hkinds⟩
  rintro rfl
  rw [hv]
  have hrot : s.shreg.rotateLeft (pulses .eight) = s.shreg := by
    refine BitVec.eq_of_getLsbD_eq fun k hk => ?_
    interval_cases k <;> simp [pulses]
  rw [hrot]

/-! ## TRANSMIT (`43_byte_engine.md` rule R220) -/

theorem Transfers.stamp {s t : State} {bits : List Bool} (h : Transfers s t bits) (m : Option Phase) :
    Transfers s (stamp m t) bits := by
  cases m with
  | none => exact h
  | some p =>
    exact ⟨⟨h.clocking.low, h.clocking.alone, h.clocking.unforced⟩, h.wire, h.noCondition, h.kept, h.rx⟩

/-- A step that leaves SCL as it is. -/
theorem Carries.still {s t : State} {k : EventKind} {b : Bool}
    (h : t.trace = ⟨k, s.scl, b⟩ :: s.trace) (hc : t.scl = s.scl) : Carries s.scl s t [] := by
  refine ⟨[⟨k, s.scl, b⟩], h, ?_, hc.symm⟩
  cases hs : s.scl <;> simp [riseSamples]

/-- A μCHECK only adds its event. -/
theorem made_check (c : Check) (ms : List PeerMove) (s : State) : made (.check c) ms s = { s with
    peer := ms
    trace := ⟨.check c, s.scl, s.sda⟩ :: s.trace } := by
  have e : commit s (MicroOp.write (.check c) s) (MicroOp.event (.check c) s) = _ :=
    commit_of_lines rfl rfl (.check c)
  rw [made, e]

/-- The master's pre-checks pass, SCL falls, and the byte is staged. -/
theorem goes_stage {ph : TxPhase} (b : Byte) {s : State} {ms : List PeerMove}
    (hcode : checkCode (.transmit ph) s = .ok) (halone : s.peerSclLow = false)
    (hforce : s.sdaForce = false) (hl : Lets 3 s.peer ms) :
    ∃ t, Goes [plain (.check (.transmit ph)), plain .sclLow, plain (.stage b)] s t ∧ t.Clocking ∧
      Carries s.scl s t [] ∧ t.kept = s.kept ∧ t.rx = s.rx ∧ t.sdaDir = .outward ∧ t.shreg = b ∧
      t.peerSdaLow = s.peerSdaLow ∧ t.peer = ms := by
  obtain ⟨p1, l1, hl⟩ := Lets.split (n := 1) (m := 2) hl
  obtain ⟨p2, l2, l3⟩ := Lets.split (n := 1) (m := 1) hl
  have hf : MicroOp.flow (.check (.transmit ph)) s = .next none := by
    rw [MicroOp.flow, hcode]; rfl
  have hg := goes_op l1 hf
  rw [made_check] at hg
  generalize hu : { s with
    peer := p1
    trace := ⟨.check (.transmit ph), s.scl, s.sda⟩ :: s.trace : State } = u at hg
  have h1 : Carries s.scl s u [] := by
    subst hu
    exact Carries.still (k := .check (.transmit ph)) (b := s.sda) rfl rfl
  obtain ⟨ualone, uforce, upeer, ukept, urx, ufree⟩ : u.peerSclLow = false ∧ u.sdaForce = false ∧
      u.peer = p1 ∧ u.kept = s.kept ∧ u.rx = s.rx ∧ u.peerSdaLow = s.peerSdaLow := by
    subst hu
    exact ⟨halone, hforce, rfl, rfl, rfl, rfl⟩
  have hlow : (made .sclLow p2 u).Clocking := ⟨rfl, ualone, uforce⟩
  have h2 : Carries u.scl u (made .sclLow p2 u) [] :=
    Carries.low (k := .sclLow) (b := (made .sclLow p2 u).sda) rfl hlow.scl
  have hstage := transfers_made (op := .stage b) hlow ms hlow.low hlow.unforced rfl
  have h3 := hstage.wire
  rw [← hlow.scl] at h3
  exact ⟨_, hg.cons ((goes_op (upeer ▸ l2) rfl).cons (goes_op l3 rfl)), hstage.clocking,
    (h1.trans h2).trans h3, ukept, urx, rfl, rfl, ufree, rfl⟩

/-- Where a byte and its answer bit end: SCL held low, both flags clear, SHREG preset, and no device drives
SDA. -/
structure State.Rested (s : State) : Prop where
  clocking : s.Clocking
  noCondition : s.noCondition
  shreg : s.shreg = 0xFF
  inward : s.sdaDir = .inward
  free : s.peerSdaLow = false

/-- The μPRESET after an answer bit that lets the transfer go on. -/
theorem goes_preset {use : PresetUse} {m : Option Phase} {s : State} {ms : List PeerMove}
    (h : s.Clocking) (hn : s.noCondition) (hfree : s.peerSdaLow = false)
    (hf : use.flow s.shreg = .next none) (hl : Lets 1 s.peer ms) :
    ∃ t, Goes [{ op := .preset use, mark := m }] s t ∧ Transfers s t [] ∧ t.Rested ∧ t.peer = ms := by
  have ht := transfers_made (op := .preset use) h ms h.low h.unforced rfl
  have hm := ht.stamp m
  exact ⟨_, goes_marked hl hf, hm, ⟨hm.clocking, hm.noCondition hn, by rw [stamp_shreg]; rfl,
    by rw [stamp_sdaDir]; rfl, by rw [stamp_peerSdaLow]; exact hfree⟩, by rw [stamp_peer]; rfl⟩

/-- The byte is sent and the master lets SDA go. -/
theorem goes_release {s : State} {ms : List PeerMove} (h : s.Clocking) (hl : Lets 2 s.peer ms) :
    ∃ t, Goes [plain (.preset .drop), plain .sdaIn] s t ∧ Transfers s t [] ∧ t.sdaDir = .inward ∧
      t.peer = ms := by
  obtain ⟨p, l1, l2⟩ := Lets.split (n := 1) (m := 1) hl
  have h1 := transfers_made (op := .preset .drop) h p h.low h.unforced rfl
  have h2 := transfers_made (op := .sdaIn) h1.clocking ms h1.clocking.low h1.clocking.unforced rfl
  exact ⟨_, (goes_op l1 rfl).cons (goes_op l2 rfl), h1.trans h2, rfl, rfl⟩

/-- The ACK bit, from the Peer's taking SDA low on, and the μPRESET that reads it. -/
theorem goes_ack (ph : TxPhase) (m : Option Phase) {s : State} {ms : List PeerMove} (h : s.Clocking)
    (hd : s.sdaDir = .inward)
    (hp : s.peer = .sda true :: (passes 6 ++ (.sda false :: (passes 3 ++ ms)))) :
    ∃ t, Goes (bitsProg .one ++ [{ op := .preset (.ack ph), mark := m }]) s t ∧
      Transfers s t [false] ∧ t.Rested ∧ t.peer = ms := by
  have h1 := transfers_sda h true (passes 6 ++ (.sda false :: (passes 3 ++ ms)))
  have hlow : (moved (.sda true) (passes 6 ++ (.sda false :: (passes 3 ++ ms))) s).sda = false :=
    sda_of_inward (by simpa using hd)
  obtain ⟨t, gt, ht, hn, hb, hf, hq⟩ := goes_bits_acked (ms := .pass :: ms) h1.clocking hlow rfl
  have hflow : (PresetUse.ack ph).flow t.shreg = .next none := by
    rw [PresetUse.flow, hb]; rfl
  obtain ⟨u, gu, hu, ru, qu⟩ := goes_preset (m := m) (ms := ms) ht.clocking hn hf hflow (.inl hq)
  exact ⟨u, goes_move hp nofun (gt.append gu), h1.trans (ht.trans hu), ru, qu⟩

/-- The byte and the ACK bit of a transmission, from the staged byte on. -/
theorem goes_byte_acked (ph : TxPhase) (m : Option Phase) {s : State} {ms : List PeerMove}
    (h : s.Clocking) (hd : s.sdaDir = .outward) (hfree : s.peerSdaLow = false)
    (hp : s.peer = passes 52 ++ (.sda true :: (passes 6 ++ (.sda false :: (passes 3 ++ ms))))) :
    ∃ t, Goes (bitsProg .eight ++ (plain (.preset .drop) :: plain .sdaIn :: (bitsProg .one ++
        [{ op := .preset (.ack ph), mark := m }]))) s t ∧
      Transfers s t (msbFirst s.shreg ++ [false]) ∧ t.Rested ∧ t.peer = ms := by
  obtain ⟨t1, g1, h1, -, -, -, -, q1⟩ := goes_bits_driven .eight h hd hfree (ms := passes 2 ++
    (.sda true :: (passes 6 ++ (.sda false :: (passes 3 ++ ms))))) (.inl hp)
  obtain ⟨t2, g2, h2, d2, q2⟩ := goes_release h1.clocking (.inl q1)
  obtain ⟨t3, g3, h3, r3, q3⟩ := goes_ack ph m h2.clocking d2 q2
  exact ⟨t3, g1.append (Goes.append g2 g3), h1.trans (h2.trans h3), r3, q3⟩

/-- `Transmit(b, isAddr)` to a Peer that ACKs, with its pre-checks passing and the bus free. -/
theorem goes_transmit_acked {ph : TxPhase} (b : Byte) (m : Option Phase) {s : State}
    {ms : List PeerMove} (hcode : checkCode (.transmit ph) s = .ok) (halone : s.peerSclLow = false)
    (hfree : s.peerSdaLow = false) (hforce : s.sdaForce = false) (hp : s.peer = ackTurn ++ ms) :
    ∃ t, Goes (transmitProg ph b m) s t ∧ Carries s.scl s t (msbFirst b ++ [false]) ∧ t.Rested ∧
      t.kept = s.kept ∧ t.rx = s.rx ∧ t.peer = ms := by
  obtain ⟨u, gu, hu, wu, ku, xu, du, bu, fu, qu⟩ := goes_stage b (ms := passes 52 ++
    (.sda true :: (passes 6 ++ (.sda false :: (passes 3 ++ ms))))) hcode halone hforce (.inl hp)
  obtain ⟨t, gt, ht, rt, qt⟩ := goes_byte_acked ph m hu du (fu.trans hfree) qu
  refine ⟨t, gu.append gt, wu.trans ?_, rt, ht.kept.trans ku, ht.rx.trans xu, qt⟩
  rw [hu.scl, ← bu]
  exact ht.wire

/-- TRANSMIT's pre-checks pass when the flags are as its phase asks and there is no collision (rule R221). -/
theorem checkCode_transmit_ok {ph : TxPhase} {s : State} (hb : s.shreg.msb = s.sda)
    (hph : ph = .address ∧ s.startDet = true ∨ ph = .data ∧ s.startDet = false ∧ s.stopDet = false) :
    checkCode (.transmit ph) s = .ok := by
  have hcoll : s.coll = false := by simp [State.coll, hb]
  rcases hph with ⟨rfl, h1⟩ | ⟨rfl, h1, h2⟩
  · simp [checkCode, h1, hcoll]
  · simp [checkCode, h1, h2, hcoll]

/-- Settles O42: the byte's pulses carry its bits, and the ACK's pulse the Peer's 0. -/
theorem transmitCarriesTheByteToAnAckingPeer : Obligations.TransmitCarriesTheByteToAnAckingPeer := by
  intro ph b s hu ho hph halone hfree hforce hchecks hb hp
  obtain ⟨t, hg, ⟨es, he, hbits, -⟩, ht, -, -, hq⟩ := goes_transmit_acked b none
    (checkCode_transmit_ok hb hchecks) halone hfree hforce (ms := []) (by rw [hp, List.append_nil])
  refine ⟨finish (.transmit ph) .ok none t, es, ?_, rfl, ht.noCondition.1, ht.noCondition.2, hq, he, hbits⟩
  rw [exec_transmit ph b hu ho hph, hg.returns, run_returnOp_finish]

end Sys2Proof.Machine
end

section
/-! PROOFS. RECEIVE from a Peer that sends, and the session commands with a loop. -/

namespace Sys2Proof.Machine

/-! ## Start and Stop on a free bus (`42_conditions.md` rules R200 and R205) -/

/-- Seven micro-steps, one by one. -/
theorem Lets.seven {ps ms : List PeerMove} (h : Lets 7 ps ms) : ∃ p1 p2 p3 p4 p5 p6,
    Lets 1 ps p1 ∧ Lets 1 p1 p2 ∧ Lets 1 p2 p3 ∧ Lets 1 p3 p4 ∧ Lets 1 p4 p5 ∧ Lets 1 p5 p6 ∧
      Lets 1 p6 ms := by
  obtain ⟨p1, l1, h⟩ := Lets.split (n := 1) (m := 6) h
  obtain ⟨p2, l2, h⟩ := Lets.split (n := 1) (m := 5) h
  obtain ⟨p3, l3, h⟩ := Lets.split (n := 1) (m := 4) h
  obtain ⟨p4, l4, h⟩ := Lets.split (n := 1) (m := 3) h
  obtain ⟨p5, l5, h⟩ := Lets.split (n := 1) (m := 2) h
  obtain ⟨p6, l6, l7⟩ := Lets.split (n := 1) (m := 1) h
  exact ⟨p1, p2, p3, p4, p5, p6, l1, l2, l3, l4, l5, l6, l7⟩

/-- A poll that finds SCL high. -/
theorem goes_readScl {s : State} {ms : List PeerMove} (h : s.scl = true) (hl : Lets 1 s.peer ms) :
    Goes [plain .readScl] s (made .readScl ms s) :=
  goes_op hl (by simp [MicroOp.flow, h])

/-- The check of a Start that was made. -/
theorem goes_check_startMade {m : Option Phase} {s : State} {ms : List PeerMove}
    (h : (made (.check .startMade) ms s).startDet = true) (hl : Lets 1 s.peer ms) :
    Goes [{ op := .check .startMade, mark := m }] s (stamp m (made (.check .startMade) ms s)) := by
  rw [made_check] at h
  exact goes_marked hl (by simpa [MicroOp.flow, checkCode, Flow.ofCode] using h)

/-- The check of a Stop that was made. -/
theorem goes_check_stopMade {s : State} {ms : List PeerMove}
    (h : (made (.check .stopMade) ms s).stopDet = true) (hl : Lets 1 s.peer ms) :
    Goes [plain (.check .stopMade)] s (made (.check .stopMade) ms s) := by
  rw [made_check] at h
  exact goes_op hl (by simpa [MicroOp.flow, checkCode, Flow.ofCode] using h)

/-- The state after a Start on a free bus. -/
def startMadeFrom (ms : List PeerMove) (s : State) : State :=
  { s with
    sclDrv := .low, sdaForce := false, sdaDir := .outward, startDet := true
    latch := if s.scl then s.latch else true
    pollk := 0, peer := ms
    trace := ⟨.check .startMade, false, s.shreg.msb⟩ :: ⟨.sdaUnforce, false, s.shreg.msb⟩ ::
      ⟨.sclLow, false, false⟩ :: ⟨.wait .preStart s.cfg.dly.preStart, true, false⟩ ::
      ⟨.sdaForce, true, false⟩ :: ⟨.readScl true, true, true⟩ :: ⟨.sclRel, true, true⟩ :: s.trace }

/-- The seven micro-steps of Start, one by one. -/
theorem made_start {s : State} (h : s.busFree) (p1 p2 p3 p4 p5 p6 ms : List PeerMove) :
    made (.check .startMade) ms (made .sdaUnforce p6 (made .sclLow p5 (made (.wait .preStart) p4
      (made .sdaForce p3 (made .readScl p2 (made .sclRel p1 s)))))) = startMadeFrom ms s := by
  obtain ⟨halone, hfree, hpulls⟩ := h
  rw [State.pullsSda] at hpulls
  simp [made, commit, startMadeFrom, MicroOp.write, MicroOp.event, State.scl, State.sda, State.pullsScl,
    State.pullsSda, startEdge, stopEdge, delayOf, halone, hfree, hpulls]

/-- `Start()` on a free bus, with the Peer passing. -/
theorem goes_start (m : Option Phase) {s : State} {ms : List PeerMove} (h : s.busFree)
    (hl : Lets 7 s.peer ms) : Goes (startProg m) s (stamp m (startMadeFrom ms s)) := by
  obtain ⟨p1, p2, p3, p4, p5, p6, l1, l2, l3, l4, l5, l6, l7⟩ := hl.seven
  have hhigh : (made .sclRel p1 s).scl = true := by
    simp [made, MicroOp.write, State.scl, State.pullsScl, h.1]
  have hmade := made_start h p1 p2 p3 p4 p5 p6 ms
  rw [← hmade]
  exact (goes_op l1 rfl).cons ((goes_readScl hhigh l2).cons ((goes_op l3 rfl).cons
    ((goes_op l4 rfl).cons ((goes_op l5 rfl).cons ((goes_op l6 rfl).cons
      (goes_check_startMade (by rw [hmade]; rfl) l7))))))

/-- The state after a Stop from where a byte and its answer bit end. -/
def stopMadeFrom (ms : List PeerMove) (s : State) : State :=
  { s with
    sclDrv := .rel, sdaForce := false, sdaDir := .outward, stopDet := true, latch := false
    pollk := 0, peer := ms
    trace := ⟨.check .stopMade, true, true⟩ :: ⟨.wait .idle s.cfg.dly.idle, true, true⟩ ::
      ⟨.sdaUnforce, true, true⟩ :: ⟨.wait .preStop s.cfg.dly.preStop, true, false⟩ ::
      ⟨.readScl true, true, false⟩ :: ⟨.sclRel, true, false⟩ :: ⟨.sdaForce, false, false⟩ :: s.trace }

/-- The seven micro-steps of Stop, one by one. -/
theorem made_stop {s : State} (h : s.Rested) (p1 p2 p3 p4 p5 p6 ms : List PeerMove) :
    made (.check .stopMade) ms (made (.wait .idle) p6 (made .sdaUnforce p5 (made (.wait .preStop) p4
      (made .readScl p3 (made .sclRel p2 (made .sdaForce p1 s)))))) = stopMadeFrom ms s := by
  obtain ⟨⟨hlow, halone, hforce⟩, -, hshreg, hdir, hfree⟩ := h
  have hmsb : s.shreg.msb = true := by rw [hshreg]; rfl
  simp [made, commit, stopMadeFrom, MicroOp.write, MicroOp.event, State.scl, State.sda, State.pullsScl,
    State.pullsSda, startEdge, stopEdge, delayOf, hlow, halone, hforce, hmsb, hdir, hfree]

/-- `Stop()` after a byte. -/
theorem goes_stop {s : State} {ms : List PeerMove} (h : s.Rested) (hl : Lets 7 s.peer ms) :
    Goes stopProg s (stopMadeFrom ms s) := by
  obtain ⟨p1, p2, p3, p4, p5, p6, l1, l2, l3, l4, l5, l6, l7⟩ := hl.seven
  have hhigh : (made .sclRel p2 (made .sdaForce p1 s)).scl = true := by
    simp [made, MicroOp.write, State.scl, State.pullsScl, h.clocking.alone]
  have hmade := made_stop h p1 p2 p3 p4 p5 p6 ms
  rw [← hmade]
  exact (goes_op l1 rfl).cons ((goes_op l2 rfl).cons ((goes_readScl hhigh l3).cons
    ((goes_op l4 rfl).cons ((goes_op l5 rfl).cons ((goes_op l6 rfl).cons
      (goes_check_stopMade (by rw [hmade]; rfl) l7))))))

/-! ## RECEIVE's byte loop (`43_byte_engine.md` rules R230 and R231) -/

/-- The answer to byte i of n, as it is driven on SDA: 0 for all but the last (`30_encoding.md` rule R111). -/
theorem answerByte_msb (i n : Half) : (answerByte i n).msb = decide (n.toNat ≤ i.toNat + 1) := by
  unfold answerByte
  split
  · rename_i h
    rw [decide_eq_false (by omega)]
    rfl
  · rename_i h
    rw [decide_eq_true (by omega)]
    rfl

/-- SENDER presents a byte in RECEIVE's loop: the μSDA_IN and the eight pulses. -/
theorem goes_read (d : Byte) (m : Option Phase) {s : State} {ms : List PeerMove} (h : s.Clocking)
    (hp : s.peer = sendTurn d ++ ms) :
    ∃ t, Goes ({ op := .sdaIn, mark := m } :: bitsProg .eight) s t ∧ Transfers s t (msbFirst d) ∧
      t.noCondition ∧ t.shreg = d ∧ t.peerSdaLow = false ∧ t.peer = passes 12 ++ ms := by
  generalize hq : passes 7 ++ (presents (msbFirst d).tail ++
    (.sda false :: .pass :: (passes 12 ++ ms))) = qs
  have hturn : s.peer = .pass :: .sda (!d.getLsbD 7) :: qs := by
    rw [hp, ← hq]
    rfl
  have h1 := (transfers_made (op := .sdaIn) h (.sda (!d.getLsbD 7) :: qs) h.low h.unforced rfl).stamp m
  have h2 := transfers_sda h1.clocking (!d.getLsbD 7) qs
  have hdir : (stamp m (made .sdaIn (.sda (!d.getLsbD 7) :: qs) s)).sdaDir = .inward := by
    rw [stamp_sdaDir]; rfl
  have hbit : (moved (.sda (!d.getLsbD 7)) qs (stamp m (made .sdaIn (.sda (!d.getLsbD 7) :: qs) s))).sda =
      d.getLsbD 7 := (sda_of_inward (by simpa using hdir)).trans (Bool.not_not _)
  obtain ⟨t, gt, ht, hn, hs, hf, hpt⟩ := goes_bits_received h2.clocking (by simpa using hdir) hbit hq.symm
  exact ⟨t, (goes_marked (.inl hturn) rfl).cons (goes_move (m := .sda (!d.getLsbD 7))
    (ms := qs) (by rw [stamp_peer]; rfl) nofun gt),
    h1.trans (h2.trans ht), hn, hs, hf, hpt⟩

/-- From `s` to `t` the master received `v` as byte i, and the wire carried it and then `bit`. -/
structure ByteReceived (i : Half) (v : Byte) (bit : Bool) (s t : State) : Prop where
  clocking : t.Clocking
  noCondition : t.noCondition
  free : t.peerSdaLow = false
  wire : Carries false s t (msbFirst v ++ [bit])
  kept : t.kept = s.kept
  rx : t.rx = s.rx.write i.toNat v

/-- The byte read is written to RX. -/
theorem goes_toRx (i : Half) {s : State} {ms : List PeerMove} (h : s.Clocking) (hn : s.noCondition)
    (hl : Lets 2 s.peer ms) : ∃ t, Goes [plain (.preset (.toRx i))] s t ∧ t.Clocking ∧ t.noCondition ∧
      Carries false s t [] ∧ t.kept = s.kept ∧ t.rx = s.rx.write i.toNat s.shreg ∧
      t.peerSdaLow = s.peerSdaLow ∧ t.peer = ms := by
  obtain ⟨p, l1, l2⟩ := Lets.split (n := 1) (m := 1) hl
  have h1 := transfers_made (op := .preset (.toRx i)) h p h.low h.unforced rfl
  have hw := made_of_low (op := .writeRx i s.shreg) h1.clocking h1.clocking.low ms
  refine ⟨_, goes_again l1 rfl (goes_op (op := .writeRx i s.shreg) l2 rfl),
    ⟨h1.clocking.low, h1.clocking.alone, h1.clocking.unforced⟩, ?_,
    h1.wire.trans ?_, rfl, rfl, rfl, rfl⟩
  · rw [hw]
    exact h1.noCondition hn
  · rw [h1.clocking.scl]
    exact Carries.low (congrArg State.trace hw) h1.clocking.scl

/-- One byte of the loop, up to the μPRESET after its answer bit. -/
theorem goes_receiveByte (d : Byte) (i n : Half) (m : Option Phase) {s : State} {ms : List PeerMove}
    (h : s.Clocking) (hp : s.peer = sendTurn d ++ ms) :
    ∃ t, Goes ({ op := .sdaIn, mark := m } :: (bitsProg .eight ++ (plain (.preset (.toRx i)) ::
        plain (.stage (answerByte i n)) :: bitsProg .one))) s t ∧
      ByteReceived i d (decide (n.toNat ≤ i.toNat + 1)) s t ∧ t.peer = .pass :: ms := by
  obtain ⟨t1, g1, h1, n1, s1, f1, q1⟩ := goes_read d m h hp
  obtain ⟨t2, g2, c2, n2, w2, k2, x2, f2, q2⟩ := goes_toRx i h1.clocking n1 (ms := passes 10 ++ ms) (.inl q1)
  have h3 := transfers_made (op := .stage (answerByte i n)) c2 (passes 9 ++ ms) c2.low c2.unforced rfl
  obtain ⟨t4, g4, h4, n4, -, -, f4, q4⟩ := goes_bits_driven .one h3.clocking rfl (f2.trans f1)
    (ms := passes 1 ++ ms) (.inl rfl)
  have h34 := h3.trans h4
  refine ⟨t4, Goes.append g1 (g2.cons ((goes_op (.inl q2) rfl).cons g4)), ⟨h4.clocking, n4, f4, ?_,
    h34.kept.trans (k2.trans h1.kept), ?_⟩, q4⟩
  · have hw := h1.wire.trans (h1.clocking.scl ▸ w2.trans (c2.scl ▸ h34.wire))
    rw [← answerByte_msb]
    exact hw
  · rw [h34.rx, x2, h1.rx, s1]

/-- The bits of a loop over the bytes `ds`: each byte, and its answer, ACK for all but the last. -/
def answered (ds : List Byte) : List Bool :=
  match ds with
  | [] => []
  | d :: rest => msbFirst d ++ rest.isEmpty :: answered rest

theorem answered_eq (ds : List Byte) :
    answered ds = (ds.mapIdx fun k d => msbFirst d ++ [decide (k + 1 = ds.length)]).flatten := by
  induction ds with
  | nil => rfl
  | cons d ds ih => cases ds <;> simp_all [answered, List.mapIdx_cons]

theorem toNat_succ {i n : Half} (h : i.toNat + 1 < n.toNat) : (i + 1).toNat = i.toNat + 1 := by
  have := n.isLt
  rw [BitVec.toNat_add]
  simp
  omega

/-- From `s` to `t` the bytes `ds` are in RX from index `i` on, and every other index reads as before. -/
def FillsRx (i : Nat) (ds : List Byte) (s t : State) : Prop :=
  ∀ a, t.rx.read a = if i ≤ a ∧ a < i + ds.length then ds[a - i]? else s.rx.read a

theorem FillsRx.nil {i : Nat} {s t : State} (h : t.rx = s.rx) : FillsRx i [] s t := by
  intro a
  rw [h, List.length_nil, if_neg (by omega)]

theorem FillsRx.cons {i : Nat} {d : Byte} {ds : List Byte} {s t u : State}
    (h : t.rx = s.rx.write i d) (h' : FillsRx (i + 1) ds t u) : FillsRx i (d :: ds) s u := by
  intro a
  rw [h' a, h, Memory.read_write, List.length_cons]
  by_cases ha : a = i
  · subst ha
    rw [if_neg (by omega), if_pos rfl, if_pos (by omega), Nat.sub_self]
    rfl
  · rw [if_neg ha]
    by_cases hin : i + 1 ≤ a ∧ a < i + 1 + ds.length
    · rw [if_pos hin, if_pos (by omega), show a - i = a - (i + 1) + 1 by omega, List.getElem?_cons_succ]
    · rw [if_neg hin, if_neg (by omega)]

theorem receiveByteProg_split (i n : Half) (m : Option Phase) :
    receiveByteProg i n m = ({ op := .sdaIn, mark := m } :: (bitsProg .eight ++
      (plain (.preset (.toRx i)) :: plain (.stage (answerByte i n)) :: bitsProg .one))) ++
        [plain (.preset (.ackSent i n))] := by
  rw [receiveByteProg_eq]
  simp

/-- The loop from byte i on, from a Peer that sends. -/
theorem goes_receiveBytes (ds : List Byte) (d : Byte) {i n : Half} (m : Option Phase) {s : State}
    {ms : List PeerMove} (hn : n.toNat = i.toNat + (d :: ds).length) (h : s.Clocking)
    (hp : s.peer = (d :: ds).flatMap sendTurn ++ ms) :
    ∃ t, Goes (receiveByteProg i n m) s t ∧ Carries false s t (answered (d :: ds)) ∧ t.Rested ∧
      t.kept = s.kept ∧ FillsRx i.toNat (d :: ds) s t ∧ t.peer = ms := by
  rw [receiveByteProg_split]
  rw [List.flatMap_cons, List.append_assoc] at hp
  rw [List.length_cons] at hn
  induction ds generalizing d i m s with
  | nil =>
    obtain ⟨t, gt, ht, qt⟩ := goes_receiveByte d i n m h hp
    have hlast : n.toNat ≤ i.toNat + 1 := by rw [hn]; rfl
    have hflow : (PresetUse.ackSent i n).flow t.shreg = .next none := by
      rw [PresetUse.flow, if_neg (by omega)]
    obtain ⟨u, gu, hu, ru, qu⟩ := goes_preset (m := none) (ms := ms) ht.clocking ht.noCondition ht.free
      hflow (.inl qt)
    refine ⟨u, gt.append gu, ?_, ru, hu.kept.trans ht.kept, .cons ht.rx (.nil hu.rx), qu⟩
    have hw := ht.wire.trans (ht.clocking.scl ▸ hu.wire)
    rw [decide_eq_true hlast, List.append_nil] at hw
    exact hw
  | cons e es ih =>
    obtain ⟨t, gt, ht, qt⟩ := goes_receiveByte d i n m h hp
    rw [List.length_cons] at hn
    have hlt : i.toNat + 1 < n.toNat := by omega
    have hv := transfers_made (op := .preset (.ackSent i n)) ht.clocking
      ((e :: es).flatMap sendTurn ++ ms) ht.clocking.low ht.clocking.unforced rfl
    obtain ⟨u, gu, wu, ru, ku, fu, qu⟩ := ih e (i := i + 1) none (by rw [toNat_succ hlt]; omega)
      hv.clocking (by rw [← List.append_assoc, ← List.flatMap_cons]; rfl)
    have hflow : MicroOp.flow (.preset (.ackSent i n)) t = .again (receiveByteProg (i + 1) n none) := by
      rw [MicroOp.flow, PresetUse.flow, if_pos hlt]
    rw [← receiveByteProg_split] at gu
    rw [toNat_succ hlt] at fu
    refine ⟨u, gt.append (goes_again (.inl qt) hflow gu), ?_, ru, ku.trans (hv.kept.trans ht.kept),
      .cons (hv.rx.trans ht.rx) fu, qu⟩
    have hw := ht.wire.trans (ht.clocking.scl ▸ hv.wire.trans (hv.clocking.scl ▸ wu))
    rw [decide_eq_false (by omega), List.append_assoc] at hw
    exact hw

/-! ## RECEIVE from a Peer that sends -/

/-- `Start()` and the address byte of a conversation that the Peer ACKs, on a free bus. -/
theorem goes_address_acked (b : Byte) {s : State} {ms : List PeerMove} (h : s.busFree)
    (hp : s.peer = ackStart ++ ms) : ∃ t,
    Goes (startProg (some .started) ++ transmitProg .address b (some .addressSent)) s t ∧
      Carries true s t (msbFirst b ++ [false]) ∧ t.Rested ∧ t.kept = s.kept ∧ t.rx = s.rx ∧
      t.peer = ms := by
  rw [ackStart, List.append_assoc] at hp
  have hg := goes_start (some .started) h (.inl hp)
  have hw : Carries true s (stamp (some .started) (startMadeFrom (ackTurn ++ ms) s)) [] :=
    ⟨[_, _, _, _, _, _, _], rfl, rfl, rfl⟩
  have hc : (stamp (some .started) (startMadeFrom (ackTurn ++ ms) s)).Clocking := ⟨rfl, h.1, rfl⟩
  have hsda := sda_of_outward hc rfl h.2.1
  obtain ⟨t, gt, wt, rt, kt, xt, qt⟩ := goes_transmit_acked b (some .addressSent)
    (checkCode_transmit_ok hsda.symm (.inl ⟨rfl, rfl⟩)) hc.alone h.2.1 hc.unforced (ms := ms) rfl
  exact ⟨t, hg.append gt, hw.trans wt, rt, kt, xt, qt⟩

/-- RECEIVE's loop over n bytes, if it has any. -/
theorem goes_receiveLoop {n : Half} {ds : List Byte} {s : State} (h : s.Rested)
    (hn : ds.length = n.toNat) (hp : s.peer = ds.flatMap sendTurn) :
    ∃ t, Goes (if n = 0 then [] else receiveByteProg 0 n (some .receiving)) s t ∧
      Carries false s t (answered ds) ∧ t.Rested ∧ t.kept = s.kept ∧ FillsRx 0 ds s t ∧ t.peer = [] := by
  cases ds with
  | nil =>
    rw [if_pos (BitVec.eq_of_toNat_eq hn.symm)]
    exact ⟨s, .nil s, h.clocking.scl ▸ Carries.refl s, h, rfl, .nil rfl, hp⟩
  | cons d ds =>
    have h0 : n ≠ 0 := by
      rintro rfl
      cases hn
    rw [if_neg h0]
    exact goes_receiveBytes ds d (i := 0) (some .receiving) (hn.symm.trans (Nat.zero_add _).symm)
      h.clocking (hp.trans (List.append_nil _).symm)

/-- `Receive(N)` on a free bus, from a Peer that ACKs the address and sends the bytes `ds`. -/
theorem goes_receive (cfg : Config) {n : Half} {ds : List Byte} {s : State} (h : s.busFree)
    (hn : ds.length = n.toNat) (hp : s.peer = senderTurns ds) :
    ∃ t, Goes (receiveProg cfg n) s t ∧ t.kept = s.kept ∧ FillsRx 0 ds s t ∧
      Carries true s t (msbFirst (addressPrefix cfg .receive) ++ false :: (answered ds ++ [false])) := by
  obtain ⟨t1, g1, w1, r1, k1, x1, q1⟩ := goes_address_acked (addressPrefix cfg .receive) h hp
  obtain ⟨t2, g2, w2, r2, k2, x2, q2⟩ := goes_receiveLoop r1 hn q1
  have g3 := goes_stop r2 (ms := []) (by rw [q2]; exact .silent 7)
  have w3 : Carries t2.scl t2 (stopMadeFrom [] t2) [false] := by
    rw [r2.clocking.scl]
    exact ⟨[_, _, _, _, _, _, _], rfl, rfl, by
      simp [stopMadeFrom, State.scl, State.pullsScl, r2.clocking.alone, sclAfter]⟩
  refine ⟨stopMadeFrom [] t2, ?_, k2.trans k1, fun a => ?_, ?_⟩
  · rw [receiveProg, ← List.append_assoc]
    exact g1.append (g2.append g3)
  · exact (x2 a).trans (by rw [x1])
  · have hw := (w1.trans (r1.clocking.scl ▸ w2)).trans w3
    simpa using hw

/-- Settles O49: the wire carries the address byte and its ACK, each byte and its answer, and Stop's edge; RX is
filled in the same order. -/
theorem receiveFillsTheBufferInTransferOrder : Obligations.ReceiveFillsTheBufferInTransferOrder := by
  intro n ds s hu ho hb hn hp
  obtain ⟨t, hg, -, hfill, es, he, hbits, -⟩ := goes_receive s.cfg hb hn hp
  refine ⟨finish .receive .ok none t, es, ?_, rfl, rfl, fun a ha => ?_, he, ?_⟩
  · rw [exec_receive n hu ho, hg.returns, run_returnOp_finish]
  · rw [finish_rx, hfill, if_pos (by omega), Nat.sub_zero]
  · rw [hbits, answered_eq]

/-! ## The session commands with a loop (`45_session.md` rules R276 and R280) -/

/-- S_RECEIVE on a free bus, from a Peer that sends. -/
theorem sReceive_fills {n : Half} {ds : List Byte} {s : State} (hu : s.upc = none)
    (ho : s.sessOpen = true) (hs : s.sessFault = some .ok) (h : s.busFree) (hn : ds.length = n.toNat)
    (hp : s.peer = senderTurns ds) :
    ∃ t, exec (.sReceive n) s = .next t ∧ t.result = some .ok ∧ t.sessOpen = false ∧
      t.sessFault = some .ok ∧ t.phase = .stopped ∧ ∀ a, a < n.toNat → t.rx.read a = ds[a]? := by
  obtain ⟨t, hg, hk, hfill, -⟩ := goes_receive s.cfg h hn hp
  obtain ⟨u, ps, hm, -, -, -, hx⟩ := exec_sReceive_returns hu ho hs hk hg.returns
  refine ⟨_, hx, rfl, rfl, rfl, rfl, fun a ha => ?_⟩
  show u.rx.read a = _
  rw [master_rx hm, hfill, if_pos (by omega), Nat.sub_zero]

/-- The loop's head does not look at UPC. -/
theorem repeatLoop_setUpc (n : Nat) (b : Byte) (s : State) (x : Option Upc) :
    repeatLoop n b { s with upc := x } = repeatLoop n b s := rfl

/-- A μSESS that closes an iteration of the loop, when the Peer lets it be made. -/
theorem run_returnOp_sRepeat_pass (r : FaultCode) (n : Nat) (b : Byte) {s : State}
    {ms : List PeerMove} (hp : s.peer = .pass :: ms) :
    run (returnOp (.sRepeat n b) r none s) = run (repeatLoop n b (sendDone r { s with peer := ms })) := by
  have hu : returnOp (.sRepeat n b) r none s =
      { s with upc := some (.sess [.stepUp, .foldFault r] (.again r n b)) } := rfl
  have hturn : takeTurn s.peer s = { s with peer := ms } := by rw [hp, takeTurn]
  have hdone : ∀ x, sendDone r { s with peer := ms, upc := x } =
      { sendDone r { s with peer := ms } with upc := x } := fun _ => rfl
  rw [hu, run_turn (by simp), takeTurn_setUpc, hturn, ← repeatLoop_setUpc n b (sendDone r _), ← hdone]
  rfl

/-- A forwarded send that returned OK leaves the bus as it was and counts the step. -/
theorem sendDone_ok {s : State} (hf : s.sessFault = some .ok) : sendDone .ok s = { s with
    sessStep := s.sessStep.map fun n => stepMod s.cfg (n + 1)
    phase := .sending
    trace := ⟨.sess [.stepUp, .foldFault .ok], s.scl, s.sda⟩ :: s.trace } := by
  unfold sendDone
  rw [commit_writeAll]
  simp [stamp, nextPhase, writeAll, SessAssign.write, hf]

/-- With the sticky fault OK, S_SEND's pre-checks pass on a bus that no other device holds. -/
structure State.ReadyToSend (s : State) : Prop where
  noFault : s.sessFault = some .ok
  alone : s.peerSclLow = false
  free : s.peerSdaLow = false
  unforced : s.sdaForce = false
  noCondition : s.noCondition
  noCollision : s.shreg.msb = s.sda

/-- One iteration of the loop, to a Peer that ACKs. -/
theorem run_repeatLoop_succ (c : Nat) (b : Byte) {s : State} {ms : List PeerMove} (h : s.ReadyToSend)
    (hp : s.peer = ackTurn ++ .pass :: ms) :
    ∃ v, run (repeatLoop (c + 1) b s) = run (repeatLoop c b v) ∧ v.ReadyToSend ∧ v.peer = ms ∧
      v.cfg = s.cfg ∧ v.sessOpen = s.sessOpen ∧
      v.sessStep = s.sessStep.map (fun n => stepMod s.cfg (n + 1)) ∧
      Carries s.scl s v (msbFirst b ++ [false]) := by
  obtain ⟨t, gt, wt, rt, kt, -, qt⟩ := goes_transmit_acked b none
    (checkCode_transmit_ok h.noCollision (.inr ⟨rfl, h.noCondition⟩)) h.alone h.free h.unforced hp
  obtain ⟨kc, ko, kf, kn⟩ := registers_of_kept kt
  have hloop : repeatLoop (c + 1) b s = proceed (.sRepeat c b) (transmitProg .data b none) none s := by
    simp only [repeatLoop, h.noFault]
  have hdone := sendDone_ok (s := { t with peer := ms }) (kf.trans h.noFault)
  have hsda : t.shreg.msb = t.sda := by
    rw [rt.shreg, sda_of_inward rt.inward, rt.free]
    rfl
  refine ⟨_, by rw [hloop, gt.returns, run_returnOp_sRepeat_pass .ok c b qt], ?_⟩
  rw [hdone]
  refine ⟨⟨kf.trans h.noFault, rt.clocking.alone, rt.free, rt.clocking.unforced, rt.noCondition, hsda⟩,
    rfl, kc, ko, ?_, ?_⟩
  · rw [← kn, ← kc]
  · have hw := wt.trans (Carries.still (s := t) (t := { t with
      peer := ms
      sessStep := t.sessStep.map fun n => stepMod t.cfg (n + 1)
      phase := .sending
      trace := ⟨.sess [.stepUp, .foldFault .ok], t.scl, t.sda⟩ :: t.trace }) rfl rfl)
    rw [List.append_nil] at hw
    exact hw

/-- The closing μSESS of the loop, with no Peer move left. -/
theorem run_repeatLoop_zero (b : Byte) {s : State} (hp : s.peer = []) :
    run (repeatLoop 0 b s) = finishS none .nothing { s with
      trace := ⟨.sess [], s.scl, s.sda⟩ :: s.trace } := by
  obtain ⟨u, ps, -, -, -, hq, e⟩ := run_sess_after_turn [] none .nothing s
  obtain ⟨rfl, -⟩ := hq hp
  rw [commit_writeAll] at e
  exact e

/-- The loop to a Peer that ACKs every byte. -/
theorem run_repeatLoop_acked (c : Nat) (b : Byte) {s : State} {n : Nat} (h : s.ReadyToSend)
    (hstep : s.sessStep = some n) (hn : n < 2 ^ stepWidth s.cfg)
    (hp : s.peer = (List.replicate c (ackTurn ++ [.pass])).flatten) :
    (run (repeatLoop c b s)).result = some .ok ∧ (run (repeatLoop c b s)).sessOpen = s.sessOpen ∧
      (run (repeatLoop c b s)).sessStep = some ((n + c) % 2 ^ stepWidth s.cfg) ∧
      Carries s.scl s (run (repeatLoop c b s)) (List.replicate c (msbFirst b ++ [false])).flatten := by
  induction c generalizing s n with
  | zero =>
    rw [run_repeatLoop_zero b hp, Nat.add_zero, Nat.mod_eq_of_lt hn]
    exact ⟨h.noFault, rfl, hstep, Carries.still rfl rfl⟩
  | succ c ih =>
    rw [List.replicate_succ, List.flatten_cons, List.append_assoc] at hp
    obtain ⟨v, e, hv, qv, cv, ov, nv, wv⟩ := run_repeatLoop_succ c b h hp
    rw [hstep, Option.map_some] at nv
    obtain ⟨hr, ho, hs, hw⟩ := ih hv nv (by rw [cv]; exact Nat.mod_lt _ (Nat.two_pow_pos _)) qv
    rw [e]
    refine ⟨hr, ho.trans ov, ?_, ?_⟩
    · rw [hs, cv, stepMod, Nat.mod_add_mod, Nat.add_right_comm, Nat.add_assoc]
    · rw [List.replicate_succ, List.flatten_cons]
      exact wv.trans hw

/-- Settles O60: each iteration of S_SEND_REPEATED is a transmission to a Peer that ACKs; S_RECEIVE is RECEIVE's
operation from a Peer that sends. -/
theorem sessionLoopsCompleteWithOk : Obligations.SessionLoopsCompleteWithOk := by
  refine ⟨?_, fun n ds s hu ho hs hb hn hp => sReceive_fills hu ho hs hb hn hp⟩
  intro count b s n hu ho hs hstep hn halone hfree hforce hstart hstop hmsb hp
  obtain ⟨hr, hso, hss, es, he, hbits, -⟩ := run_repeatLoop_acked count.toNat b
    ⟨hs, halone, hfree, hforce, ⟨hstart, hstop⟩, hmsb⟩ hstep hn hp
  exact ⟨_, es, exec_sSendRepeated count b hu ho, hr, hso.trans ho, hss, he, hbits⟩

end Sys2Proof.Machine
end

section
/-! PROOFS. The command word: decoding and encoding are inverse to each other, and the rows of the opcode map
select just the words that decode; the assembler's lines, the AddressPrefix and the FaultCode numbers. -/

namespace Sys2Proof.Machine

/-! ## Decoding and encoding (`30_encoding.md` rules R101 to R103) -/

/-- A decoder's row answers its command exactly when its must-be-zero fields are zero. -/
theorem legalIf_eq_ok {zeros : Bool} {i j : Instr} : legalIf zeros i = .ok j ↔ zeros = true ∧ i = j := by
  cases zeros <;> simp [legalIf]

/-- Settles O1: the decoder reads each field of the packed word back. -/
theorem decodeInvertsEncode : Obligations.DecodeInvertsEncode := by
  intro i
  cases i with
  | bitx n => cases n <;> simp [encode, decode, legalIf]
  | transmit ph b => cases ph <;> simp [encode, decode, legalIf]
  | _ => simp [encode, decode, legalIf]

/-- A word with RSV = 000 is packed from its fields. -/
theorem packWord_fields {w : Word} (h : w.rsv = 0) :
    packWord (Word.op w) (Word.modifier w) (Word.imm16 w) (Word.byte w) = w := by
  apply BitVec.eq_of_toNat_eq
  have hw := w.isLt
  have hr : (Word.rsv w).toNat = 0 := congrArg BitVec.toNat h
  have ha : (if Word.modifier w then 1 else 0) = w.toNat / 2 ^ 24 % 2 := by
    rw [Word.modifier, BitVec.getLsbD, Nat.testBit_eq_decide_div_mod_eq]
    have := Nat.mod_two_eq_zero_or_one (w.toNat / 2 ^ 24)
    split <;> simp_all
  rw [packWord_toNat, ha]
  simp only [Word.op, Word.rsv, Word.imm16, Word.byte, BitVec.extractLsb'_toNat,
    Nat.shiftRight_eq_div_pow] at hr ⊢
  omega

/-- Settles O2: a word that decodes has RSV = 000, its row's OP, and zero where its row asks for it. -/
theorem encodeInvertsDecode : Obligations.EncodeInvertsDecode := by
  intro w i h
  unfold decode at h
  simp only [ne_eq, ite_not] at h
  split at h
  · rename_i hr
    have hop : Word.op w = BitVec.ofNat 4 (Word.op w).toNat := by simp
    rw [← packWord_fields hr, hop]
    clear hop
    generalize (Word.op w).toNat = op at h ⊢
    generalize Word.modifier w = a at h ⊢
    generalize Word.imm16 w = imm at h ⊢
    generalize Word.byte w = b at h ⊢
    split at h
    case h_14 => cases h
    case h_1 | h_4 =>
      obtain ⟨hz, rfl⟩ := legalIf_eq_ok.1 h
      cases a <;> simp_all [encode]
      rfl
    all_goals
      obtain ⟨hz, rfl⟩ := legalIf_eq_ok.1 h
      simp_all [encode]
  · cases h

/-! ## The opcode map (rules R102 and R105) -/

/-- Every command's word selects the row with its mnemonic. -/
theorem encode_selects (i : Instr) : ∃ r ∈ opcodeTable, r.mnemonic = i.mnemonic ∧
    r.selects (encode i) = true := by
  cases i with
  | bitx n => exact Laws.RowMatch.bitx n
  | start => exact Laws.RowMatch.start
  | stop => exact Laws.RowMatch.stop
  | transmit ph b => exact Laws.RowMatch.transmit ph b
  | receive n => exact Laws.RowMatch.receive n
  | startSending => exact Laws.RowMatch.startSending
  | send b => exact Laws.RowMatch.send b
  | sOpen step0 => exact Laws.RowMatch.sOpen step0
  | sSend b => exact Laws.RowMatch.sSend b
  | sSendRepeated count b => exact Laws.RowMatch.sSendRepeated count b
  | sValid => exact Laws.RowMatch.sValid
  | sReceive n => exact Laws.RowMatch.sReceive n
  | sStop => exact Laws.RowMatch.sStop

/-- A word selects a row field by field: it has the row's OP, RSV = 000, and zero where the row's mask covers
the modifier, IMM16 or BYTE. -/
theorem fields_of_selects {r : OpcodeRow} {w : Word} (hr : r ∈ opcodeTable) (h : r.selects w = true) :
    Word.op w = Word.op r.pattern ∧ Word.rsv w = 0 ∧
    Word.modifier w = (if Word.modifier r.mask = true then false else Word.modifier w) ∧
    Word.imm16 w = (if Word.imm16 r.mask = 0xFFFF then 0 else Word.imm16 w) ∧
    Word.byte w = (if Word.byte r.mask = 0xFF then 0 else Word.byte w) := by
  have ht : ∀ r ∈ opcodeTable, Word.op r.mask = BitVec.allOnes 4 ∧
      Word.rsv r.mask = BitVec.allOnes 3 ∧ Word.rsv r.pattern = 0 ∧ Word.modifier r.pattern = false ∧
      Word.imm16 r.pattern = 0 ∧ Word.byte r.pattern = 0 := by decide
  obtain ⟨mo, mr, pr, pa, pi, pb⟩ := ht r hr
  have e : w &&& r.mask = r.pattern := by simpa [OpcodeRow.selects] using h
  have field : ∀ k n, w.extractLsb' k n &&& r.mask.extractLsb' k n = r.pattern.extractLsb' k n :=
    fun k n => by rw [← BitVec.extractLsb'_and, e]
  refine ⟨?_, ?_, Eq.symm (ite_eq_right_iff.2 fun ha => ?_), Eq.symm (ite_eq_right_iff.2 fun hi => ?_),
    Eq.symm (ite_eq_right_iff.2 fun hb => ?_)⟩
  · rw [Word.op, Word.op, ← field, show r.mask.extractLsb' 28 4 = _ from mo, BitVec.and_allOnes]
  · rw [← pr, Word.rsv, Word.rsv, ← field, show r.mask.extractLsb' 25 3 = _ from mr, BitVec.and_allOnes]
  · have hm : (w &&& r.mask).getLsbD 24 = _ := BitVec.getLsbD_and
    rw [e, show r.pattern.getLsbD 24 = _ from pa, show r.mask.getLsbD 24 = _ from ha, Bool.and_true] at hm
    exact hm
  · rw [← pi, Word.imm16, Word.imm16, ← field, show r.mask.extractLsb' 8 16 = BitVec.allOnes 16 from hi,
      BitVec.and_allOnes]
  · rw [← pb, Word.byte, Word.byte, ← field, show r.mask.extractLsb' 0 8 = BitVec.allOnes 8 from hb,
      BitVec.and_allOnes]

/-- At most one row selects a word: no two rows have the same OP. -/
theorem row_unique {r q : OpcodeRow} {w : Word} (hr : r ∈ opcodeTable) (hq : q ∈ opcodeTable)
    (h : r.selects w = true) (h' : q.selects w = true) : r = q := by
  have hop : ∀ r ∈ opcodeTable, ∀ q ∈ opcodeTable, Word.op r.pattern = Word.op q.pattern → r = q := by
    decide
  exact hop r hr q hq ((fields_of_selects hr h).1.symm.trans (fields_of_selects hq h').1)

/-- A word that selects a row decodes. -/
theorem decode_of_selects {r : OpcodeRow} {w : Word} (hr : r ∈ opcodeTable) (h : r.selects w = true) :
    ∃ i, decode w = .ok i := by
  obtain ⟨ho, hrsv, ha, hi, hb⟩ := fields_of_selects hr h
  unfold decode
  rw [ho, hrsv, ha, hi, hb]
  fin_cases hr <;> exact ⟨_, rfl⟩

/-- Settles O3: a word that decodes is its command's own, whose row is the only one; the others decode to the
verdict. -/
theorem wordIsCommandIffOneRowSelectsIt : Obligations.WordIsCommandIffOneRowSelectsIt := by
  refine ⟨fun w => ⟨?_, fun ⟨r, hr, h⟩ => decode_of_selects hr h⟩,
    fun w r hr q hq h h' => row_unique hr hq h h', ?_, ?_⟩
  · rintro ⟨i, h⟩
    obtain ⟨r, hr, -, hs⟩ := encode_selects i
    exact ⟨r, hr, encodeInvertsDecode w i h ▸ hs⟩
  · intro w i h r hr hs
    obtain ⟨q, hq, hm, hs'⟩ := encode_selects i
    rw [encodeInvertsDecode w i h] at hs'
    rw [row_unique hr hq hs hs', hm]
  · intro s w rest hu hw hn
    rw [step_issue hu hw, issueWord]
    split
    · rfl
    · rename_i i h
      obtain ⟨r, hr, -, hs⟩ := encode_selects i
      rw [encodeInvertsDecode w i h, hn r hr] at hs
      cases hs

/-- Settles O4, by the decoder on each word. -/
theorem writtenOutWordsDecode : Obligations.WrittenOutWordsDecode := by
  unfold Obligations.WrittenOutWordsDecode
  decide

/-! ## The assembler, the AddressPrefix and the FaultCodes (rules R107, R110 and R112) -/

/-- A command's operands are in range. -/
theorem toAsm_problem (i : Instr) : i.toAsm.problem = none := by
  cases i with
  | bitx n => cases n <;> rfl
  | transmit ph b => exact if_pos b.isLt
  | send b => exact if_pos b.isLt
  | sSend b => exact if_pos b.isLt
  | receive n => exact if_pos n.isLt
  | sOpen n => exact if_pos n.isLt
  | sReceive n => exact if_pos n.isLt
  | sSendRepeated c b => exact (if_pos c.isLt).trans (if_pos b.isLt)
  | _ => rfl

/-- Settles O5: the operands are in range, and each is the number it was. -/
theorem assembleInvertsSourceLine : Obligations.AssembleInvertsSourceLine := by
  intro cfg i
  unfold assemble
  rw [toAsm_problem]
  cases i with
  | bitx n => cases n <;> rfl
  | _ => simp [Instr.toAsm]

/-- Settles O6: the direction is appended below the device address. -/
theorem addressPrefixLayout : Obligations.AddressPrefixLayout := by
  refine ⟨fun cfg dir => ?_, fun cfg h => ?_⟩
  · have e : (addressPrefix cfg dir).toNat = _ :=
      BitVec.toNat_append cfg.devAddr (BitVec.ofBool (dir == .receive))
    rw [e, Nat.shiftLeft_eq, Nat.mul_comm, ← Nat.two_pow_add_eq_or_of_lt (by cases dir <;> decide)]
    cases dir <;> simp
  · rw [addressPrefix, addressPrefix, h]
    decide

/-- Settles O7, by the table of the codes. -/
theorem faultCodeNumbers : Obligations.FaultCodeNumbers := by
  refine ⟨rfl, rfl, rfl, rfl, rfl, rfl, rfl, rfl, rfl, fun r => ?_⟩
  cases r <;> decide

end Sys2Proof.Machine
end

section
/-! PROOFS. The host's issue of a command and its end; a stretch of micro-program goes on or returns a fault,
whichever command runs it and whatever PHASE value its last micro-step writes; START_SENDING and SEND by rule
R108. -/

namespace Sys2Proof.Machine

/-! ## The host's issue (`30_encoding.md` rule R100) -/

/-- Settles O13: the step issues the first word, and the command it decodes to runs. -/
theorem stepRunsTheDecodedCommand : Obligations.StepRunsTheDecodedCommand := by
  have issue : ∀ (s : State) (w : Word) (rest : List Word) (i : Instr), s.upc = none →
      s.cmds = w :: rest → decode w = .ok i → step s = exec i { s with cmds := rest } := by
    intro s w rest i hu hw h
    rw [step_issue hu hw, issueWord, h]
  refine ⟨issue, fun s w i hw h => issue (s.withFetchWord 32 w) _ s.cmds i rfl rfl ?_⟩
  rwa [Nat.mod_eq_of_lt hw]

/-- A command that is not refused runs: the rows of rule R315's table. -/
theorem runs_of_not_refused {i : Instr} {s : State} (h : refusal (commandClass i) s = none) :
    s.sessOpen = i.isMember ∧ ¬ (s.phase = .error ∧ i.continues = true) := by
  have ho : s.sessOpen = i.isMember := by
    rw [refusal_eq] at h
    cases hs : s.sessOpen <;> cases hm : i.isMember <;> simp [hs, hm] at h ⊢
  refine ⟨ho, fun ⟨he, hc⟩ => ?_⟩
  rw [refusal_eq, ho, isMember_of_continues hc] at h
  simp [he, hc] at h

/-- Settles O24: a command is refused, or launched and run to its end. -/
theorem everyCommandEnds : Obligations.EveryCommandEnds := by
  intro i s hu
  cases hr : refusal (commandClass i) s with
  | some r => exact ⟨refuse s, exec_refused hu hr, hu⟩
  | none =>
    obtain ⟨ho, hp⟩ := runs_of_not_refused hr
    exact ⟨_, exec_launched hu ho hp, run_upc _⟩

/-- Settles O44: SEND and TRANSMIT data are refused alike, and what their operation returns leaves them in the
same state. -/
theorem sendIsTransmitData : Obligations.SendIsTransmitData := by
  intro b s
  by_cases hu : s.upc = none
  · cases hr : refusal (commandClass (.send b)) s with
    | some r => rw [exec_refused hu hr, exec_refused (i := .transmit .data b) hu hr]
    | none =>
      obtain ⟨ho, hp⟩ := runs_of_not_refused hr
      have hp : s.phase ≠ .error := fun h => hp ⟨h, rfl⟩
      obtain ⟨r, t, ht, -⟩ := returns_transmit .data b s
      rw [exec_send b hu ho hp, exec_transmit .data b hu ho hp, ht, ht, run_returnOp_finish,
        run_returnOp_finish]
      rfl
  · rw [exec_blocked hu, exec_blocked hu]

/-! ## A stretch of micro-program -/

/-- A code that ends an operation is a fault. -/
theorem ofCode_stop {c r : FaultCode} (h : Flow.ofCode c = .stop r) : r ≠ .ok := by
  unfold Flow.ofCode at h
  split at h
  · cases h
  · cases h
    assumption

/-- Only BITX's μPRESET gives the host a byte, and a micro-step that ends its operation returns a fault. -/
theorem flow_ends (op : MicroOp) (s : State) : (∀ b, op.flow s = .next (some b) → op = .preset .give) ∧
    ∀ r, op.flow s = .stop r → r ≠ .ok := by
  cases op with
  | readScl =>
    simp only [MicroOp.flow]
    split
    · exact ⟨nofun, nofun⟩
    · split
      · exact ⟨nofun, fun r h => by cases h; nofun⟩
      · exact ⟨nofun, nofun⟩
  | shift => simp only [MicroOp.flow]; split <;> exact ⟨nofun, nofun⟩
  | check c => exact ⟨fun b h => absurd h (ofCode_ne_given _ _), fun r h => ofCode_stop h⟩
  | preset use =>
    cases use with
    | give => exact ⟨fun _ _ => rfl, nofun⟩
    | ack ph => exact ⟨fun b h => absurd h (ofCode_ne_given _ _), fun r h => ofCode_stop h⟩
    | ackSent i n => simp only [MicroOp.flow, PresetUse.flow]; split <;> exact ⟨nofun, nofun⟩
    | _ => exact ⟨nofun, nofun⟩
  | _ => exact ⟨nofun, nofun⟩

/-- A stretch does what another does with the same runs. -/
theorem Does.of_run {ws ws' : List Work} {s s' : State} {ok : State → Prop}
    {bad : FaultCode → State → Prop} (h : Does ws' s' ok bad) (e : ∀ k tail,
      run (proceed k (ws ++ tail) none s) = run (proceed k (ws' ++ tail) none s')) : Does ws s ok bad := by
  simpa only [Does, e] using h

/-- Every stretch of micro-steps with `p` goes on, or returns a fault, when no micro-step with `p` gives the host
a byte and the loops pass `p` on. What the Peer's turns and the micro-steps with `p` keep, the stretch keeps. -/
theorem does_allOps {p : MicroOp → Bool} {P : State → Prop} (hgive : p (.preset .give) = false)
    (hagain : ∀ op s more, p op = true → op.flow s = .again more → allOps p more = true)
    (hturn : ∀ s, P s → P (takeTurn s.peer s))
    (hop : ∀ op u m, p op = true → P u → P (stamp m (commit u (op.write u) (op.event u))))
    {ws : List Work} {s : State} (hws : allOps p ws = true) (hs : P s) :
    Does ws s P (fun r t => r ≠ .ok ∧ P t) := by
  generalize hb : opBudget (pollBound s.cfg) s.pollk s.cnt ws = n
  induction n using Nat.strongRecOn generalizing ws s with
  | _ n ih =>
    cases ws with
    | nil => exact Does.nil hs
    | cons w rest =>
      obtain ⟨op, m⟩ := w
      obtain ⟨hp, hrest⟩ : p op = true ∧ allOps p rest = true := by simpa [allOps] using hws
      have e := fun k tail => run_proceed_step k ⟨op, m⟩ (rest ++ tail) none s
      have hu : P (takeTurn s.peer s) := hturn s hs
      have hm := takeTurn_master s.peer s
      generalize takeTurn s.peer s = u at e hu hm
      rw [← master_cfg hm, ← master_pollk hm, ← master_cnt hm] at hb
      match hf : op.flow u with
      | .stop r =>
        refine .inr ⟨r, _, ⟨(flow_ends op u).2 r hf, hop op u none hp hu⟩, fun k tail => ?_⟩
        rw [List.cons_append, e, afterOp]
        simp only [hf]
        rfl
      | .next (some b) =>
        rw [(flow_ends op u).1 b hf, hgive] at hp
        cases hp
      | .next none =>
        have hlt := opBudget_next (rest := rest) m hf
        refine Does.of_run (ih _ ?_ hrest (hop op u m hp hu) rfl) fun k tail => ?_
        · simp only [stamp_cfg, stamp_pollk, stamp_cnt, commit_cfg, commit_pollk, commit_cnt, opWrite_cfg]
          omega
        · rw [List.cons_append, e, afterOp]
          simp only [hf]
      | .again more =>
        have hlt := opBudget_again (rest := rest) m hf
        refine Does.of_run (ih _ ?_ (ws := more ++ rest) ?_ (hop op u none hp hu) rfl) fun k tail => ?_
        · simp only [stamp, commit_cfg, commit_pollk, commit_cnt, opWrite_cfg]
          omega
        · rw [allOps_append, hagain op u more hp hf, hrest]
          rfl
        · rw [List.cons_append, e, afterOp, List.append_assoc]
          simp only [hf]
          rfl

/-! ## The last micro-step's PHASE value -/

/-- A micro-step that gives the host no byte. -/
def noGive : MicroOp → Bool
  | .preset .give => false
  | _ => true

theorem noGive_again {op : MicroOp} {s : State} {more : List Work} (h : op.flow s = .again more) :
    allOps noGive more = true := by
  obtain ⟨-, rfl⟩ | ⟨-, rfl⟩ | ⟨i, -, rfl⟩ | ⟨i, k, -, -, rfl⟩ := flow_again h <;> rfl

/-- A micro-step keeps the registers of `State.kept`. -/
theorem op_kept (op : MicroOp) (u : State) (m : Option Phase) :
    (stamp m (commit u (op.write u) (op.event u))).kept = u.kept := by
  rw [← opWrite_kept op u]
  cases m <;> rfl

/-- The micro-programs `prog m` differ only in the PHASE value of their last micro-step, which decides by a code
and neither loops nor gives the host a byte. -/
def EndsMarked (prog : Option Phase → List Work) : Prop :=
  ∃ ws op, allOps noGive ws = true ∧ (∀ u, ∃ c, op.flow u = Flow.ofCode c) ∧
    ∀ m, prog m = ws ++ [{ op := op, mark := m }]

theorem startProg_endsMarked : EndsMarked startProg :=
  ⟨(startProg none).dropLast, .check .startMade, rfl, fun _ => ⟨_, rfl⟩, fun _ => rfl⟩

theorem transmitProg_endsMarked (ph : TxPhase) (b : Byte) : EndsMarked (transmitProg ph b) :=
  ⟨(transmitProg ph b none).dropLast, .preset (.ack ph), rfl, fun _ => ⟨_, rfl⟩, fun _ => rfl⟩

/-- The PHASE value of the last micro-step shows when the operation goes on, and only then. -/
theorem EndsMarked.goes_or_stops {prog : Option Phase → List Work} (h : EndsMarked prog) (s : State) :
    (∃ t, t.kept = s.kept ∧ ∀ m, Goes (prog m) s (stamp m t)) ∨
    (∃ r t, r ≠ .ok ∧
      ∀ m k tail, run (proceed k (prog m ++ tail) none s) = run (returnOp k r none t)) := by
  obtain ⟨ws, op, hws, hop, hprog⟩ := h
  simp only [Goes, hprog, List.append_assoc]
  rcases does_allOps (P := fun t => t.kept = s.kept) (p := noGive) rfl
      (fun _ _ _ _ hf => noGive_again hf)
      (fun t ht => (congrArg State.kept (takeTurn_master t.peer t)).trans ht)
      (fun op u m _ hu => (op_kept op u m).trans hu) hws rfl with ⟨v, hv, e⟩ | ⟨r, t, ⟨hr, -⟩, e⟩
  · have step := fun m k tail => run_proceed_step k { op := op, mark := m } tail none v
    have hk := congrArg State.kept (takeTurn_master v.peer v)
    generalize takeTurn v.peer v = u at step hk
    obtain ⟨c, hc⟩ := hop u
    simp only [afterOp, hc, Flow.ofCode] at step
    by_cases hok : c = .ok
    · simp only [hok, if_true] at step
      exact .inl ⟨_, ((op_kept op u none).trans hk).trans hv, fun m k tail => (e k _).trans (step m k tail)⟩
    · simp only [hok, if_false] at step
      exact .inr ⟨c, _, hok, fun m k tail => (e k _).trans (step m k tail)⟩
  · exact .inr ⟨r, t, hr, fun m k tail => e k _⟩

/-! ## START_SENDING (`30_encoding.md` rule R108) -/

/-- A fault ends every raw command in the same state. -/
theorem finish_fault {r : FaultCode} (h : r ≠ .ok) (op op' : OpKind) (s : State) :
    finish op r none s = finish op' r none s := by
  simp only [finish, nextPhase_of_ne_ok h]

/-- TRANSMIT address ends as the address byte of START_SENDING does. -/
theorem run_address (b : Byte) (s : State) :
    run (proceed (.finish .startSending) (transmitProg .address b (some .addressSent)) none s) =
      run (proceed (.finish (.transmit .address)) (transmitProg .address b none) none s) := by
  rcases (transmitProg_endsMarked .address b).goes_or_stops s with ⟨t, -, g⟩ | ⟨r, t, hr, e⟩
  · rw [(g _).returns, (g _).returns, run_returnOp_finish, run_returnOp_finish]
    rfl
  · have h := fun m k => e m k []
    simp only [List.append_nil] at h
    rw [h, h, run_returnOp_finish, run_returnOp_finish, finish_fault hr]

/-- Settles O45: after Start, START_SENDING goes on as ADDRESS Send does from the state in which START ended, but
for RESULT and VALUE, which its run does not look at; a fault of Start ends both. -/
theorem startSendingIsStartThenAddress : Obligations.StartSendingIsStartThenAddress := by
  intro s t hu ho hst
  rw [exec_start hu ho, Host.Outcome.next.injEq] at hst
  rw [exec_startSending hu ho, startSendingProg]
  rcases startProg_endsMarked.goes_or_stops s with ⟨v, hv, g⟩ | ⟨r, v, hr, e⟩
  · rw [(g none).returns, run_returnOp_finish] at hst
    subst hst
    have hvo : v.sessOpen = false := (registers_of_kept hv).2.1.trans ho
    refine ⟨fun _ => ?_, fun h => absurd rfl h⟩
    rw [exec_transmit .address _ (s := finish .start .ok none (stamp none v)) rfl hvo (by nofun), g,
      run_address]
    have hret := run_returning (s := proceed (.finish (.transmit .address))
      (transmitProg .address (addressPrefix s.cfg .send) none) none (stamp (some .started) v)) nofun
      (some .ok) none
    exact congrArg _ hret.symm
  · have h := e none (.finish .start) []
    rw [List.append_nil] at h
    rw [h, run_returnOp_finish] at hst
    subst hst
    refine ⟨fun h => absurd (Option.some.inj h) hr, fun _ => ?_⟩
    rw [e, run_returnOp_finish, finish_fault hr]

end Sys2Proof.Machine
end

section
/-! PROOFS. The sends of S_SEND_REPEATED: how many TRACE shows begun and what they returned, and each as one
S_SEND. -/

namespace Sys2Proof.Machine

/-! ## The sends that TRACE shows -/

/-- From `s` to `t` TRACE shows `n` data sends begun, and the codes `rs` of those that a μSESS closed. -/
def Sends (n : Nat) (rs : List FaultCode) (s t : State) : Prop :=
  ∃ es, t.trace = es ++ s.trace ∧ sendsBegun es = n ∧ sendResults es.reverse = rs

theorem Sends.trans {n m : Nat} {rs qs : List FaultCode} {s t u : State} (h : Sends n rs s t)
    (h' : Sends m qs t u) : Sends (n + m) (rs ++ qs) s u := by
  obtain ⟨es, ht, rfl, rfl⟩ := h
  obtain ⟨fs, hu, rfl, rfl⟩ := h'
  refine ⟨fs ++ es, by rw [hu, ht, List.append_assoc], ?_, ?_⟩
  · simp only [sendsBegun, List.countP_append, Nat.add_comm]
  · simp only [sendResults, List.reverse_append, List.filterMap_append]

/-- A Peer's turn shows no send. -/
theorem sends_takeTurn (ms : List PeerMove) (s : State) : Sends 0 [] s (takeTurn ms s) := by
  obtain ⟨ps, ht, hp⟩ := takeTurn_trace ms s
  refine ⟨ps, ht, List.countP_eq_zero.2 fun e he hk => ?_, List.filterMap_eq_nil_iff.2 fun e he => ?_⟩
  · have h := hp e he
    rw [beq_iff_eq.1 hk] at h
    cases h
  · have h := hp e (List.mem_reverse.1 he)
    cases hk : e.kind <;> simp [hk, EventKind.byEngine] at h ⊢

/-- A micro-step that neither checks nor gives the host a byte. -/
def noCheck : MicroOp → Bool
  | .check _ | .preset .give => false
  | _ => true

/-- Such a micro-step shows no send. -/
theorem sends_op {op : MicroOp} (h : noCheck op = true) (u : State) (m : Option Phase) :
    Sends 0 [] u (stamp m (commit u (op.write u) (op.event u))) := by
  refine ⟨[⟨op.event u, _, _⟩], by rw [stamp_trace, commit_trace, opWrite_trace]; rfl, ?_, ?_⟩
  · cases op with
    | check c => cases h
    | _ => rfl
  · cases op <;> rfl

/-- TRANSMIT's data-phase μCHECK begins a send. -/
theorem does_check_sends (s : State) : Does [plain (.check (.transmit .data))] s (Sends 1 [] s)
    (fun _ t => Sends 1 [] s t) := by
  have step := fun k tail => run_proceed_step k (plain (.check (.transmit .data))) tail none s
  have hu := sends_takeTurn s.peer s
  generalize takeTurn s.peer s = u at step hu
  have hs : Sends 1 [] s (commit u u (.check (.transmit .data))) :=
    hu.trans (m := 1) (qs := []) ⟨[_], rfl, rfl, rfl⟩
  by_cases hc : checkCode (.transmit .data) u = .ok
  · simp only [afterOp, plain, MicroOp.flow, Flow.ofCode, hc, if_true] at step
    exact .inl ⟨_, hs, step⟩
  · simp only [afterOp, plain, MicroOp.flow, Flow.ofCode, hc, if_false] at step
    exact .inr ⟨_, _, hs, step⟩

/-- A send begins once, whatever it returns. -/
theorem does_transmit_sends (b : Byte) (s : State) : Does (transmitProg .data b none) s (Sends 1 [] s)
    (fun _ t => Sends 1 [] s t) := by
  refine Does.cons (does_check_sends s) fun t ht => (does_allOps (p := noCheck) rfl ?_
    (fun u hu => hu.trans (sends_takeTurn u.peer u)) (fun op u m hp hu => hu.trans (sends_op hp u m))
    rfl ht).imp (fun _ h => h) fun _ _ h => h.2
  intro op u more _ hf
  obtain ⟨-, rfl⟩ | ⟨-, rfl⟩ | ⟨i, -, rfl⟩ | ⟨i, k, -, -, rfl⟩ := flow_again hf <;> rfl

/-- The faults of a data send (`60_exceptions.md` rule R302). -/
def sendFaults : List FaultCode :=
  [.unexpectedStart, .unexpectedStop, .dataCollision, .clockHighTimeout, .dataNack]

/-- A data send: what it returns and keeps, and that TRACE shows it begun. -/
theorem returns_send (b : Byte) (s : State) : ∃ r t, Returns (transmitProg .data b none) s r t ∧
    t.kept = s.kept ∧ (r = .ok ∨ r ∈ sendFaults) ∧ Sends 1 [] s t := by
  obtain ⟨r, t, h, hk, hr⟩ := (does_transmit .data b none s).returns
    (Q := fun r t => t.kept = s.kept ∧ (r = .ok ∨ r ∈ sendFaults))
    (fun t ⟨p, ht⟩ => ⟨kept_of_master ht rfl, .inl rfl⟩) (by
      rintro r t (⟨hr, ht⟩ | ⟨rfl, p, sh, c, d, -, -, ht⟩ | ⟨rfl, p, ht⟩)
      · exact ⟨kept_of_master ht rfl,
          .inr (List.mem_append_left [FaultCode.clockHighTimeout, .dataNack] hr)⟩
      · exact ⟨kept_of_master ht rfl, .inr (by decide)⟩
      · exact ⟨kept_of_master ht rfl, .inr (by decide)⟩)
  obtain ⟨r', t', h', es, ht', hn, hs⟩ := (does_transmit_sends b s).returns
    (Q := fun _ t => Sends 1 [] s t) (fun _ h => h) (fun _ _ h => h)
  have e := h (.finish .send)
  rw [h', run_returnOp_finish, run_returnOp_finish] at e
  have htr := congrArg State.trace e
  rw [finish_trace, finish_trace] at htr
  exact ⟨r, t, h, hk, hr, es, htr ▸ ht', hn, hs⟩

/-! ## The μSESS that closes a send (`45_session.md` rules R274 and R276) -/

/-- A μSESS is made after the Peer's turn. -/
theorem run_sess (as : List SessAssign) (e : SessEnd) (s : State) :
    run { s with upc := some (.sess as e) } = run (sessEnd e (commit (takeTurn s.peer s)
      (writeAll as (takeTurn s.peer s)) (.sess as))) := by
  rw [run_turn (by simp), takeTurn_setUpc]
  simp only [engineStep, writeAll_setUpc]
  cases e <;> rfl

/-- A send closed with the sticky fault OK: its code is the new sticky fault, and the step goes up. -/
theorem sendDone_eq {r : FaultCode} {u : State} (hf : u.sessFault = some .ok) : sendDone r u = { u with
    sessFault := some r
    sessStep := u.sessStep.map fun n => stepMod u.cfg (n + 1)
    phase := nextPhase .send r u.phase
    trace := ⟨.sess [.stepUp, .foldFault r], u.scl, u.sda⟩ :: u.trace } := by
  unfold sendDone
  rw [commit_writeAll]
  simp [stamp, writeAll, SessAssign.write, hf]

/-- Where an S_SEND ends, the loop goes on as after an iteration of its own. -/
theorem run_repeatLoop_after_sSend (r : FaultCode) (s : State) (n : Nat) (b : Byte) :
    run (repeatLoop n b (run (returnOp .sSend r none s))) =
      run (repeatLoop n b (sendDone r (takeTurn s.peer s))) := by
  have e : run (returnOp .sSend r none s) = { (sendDone r (takeTurn s.peer s)).returning
      (sendDone r (takeTurn s.peer s)).sessFault none with upc := none } :=
    (run_sess _ _ s).trans (run_of_idle rfl)
  obtain ⟨e', hne⟩ := repeatLoop_returning n b (sendDone r (takeTurn s.peer s))
    (sendDone r (takeTurn s.peer s)).sessFault none
  rw [e, repeatLoop_setUpc, e', run_returning hne]

/-- S_SEND leaves SESS_OPEN. -/
theorem run_returnOp_sSend_sessOpen (r : FaultCode) (s : State) :
    (run (returnOp .sSend r none s)).sessOpen = s.sessOpen := by
  rw [show run (returnOp .sSend r none s) = _ from (run_sess _ _ s).trans (run_of_idle rfl)]
  simp [sessEnd, writeAll, SessAssign.write, master_sessOpen (takeTurn_master s.peer s)]

/-- The loop's next send, with the sticky fault OK. -/
theorem run_repeatLoop_next {b : Byte} {s v : State} {r : FaultCode} (hf : s.sessFault = some .ok)
    (h : Returns (transmitProg .data b none) s r v) (n : Nat) :
    run (repeatLoop (n + 1) b s) = run (repeatLoop n b (sendDone r (takeTurn v.peer v))) := by
  have e : repeatLoop (n + 1) b s = proceed (.sRepeat n b) (transmitProg .data b none) none s := by
    simp only [repeatLoop, hf]
  rw [e, h]
  exact run_sess _ _ v

/-- S_SEND_REPEATED c + 1 is S_SEND, then S_SEND_REPEATED c (`30_encoding.md` rule R108). -/
theorem sSendRepeated_succ {c : Half} {b : Byte} {s t : State} (hu : s.upc = none)
    (ho : s.sessOpen = true) (hf : s.sessFault = some .ok) (hc : c.toNat + 1 ≤ 65535)
    (ht : exec (.sSend b) s = .next t) :
    exec (.sSendRepeated (c + 1) b) s = exec (.sSendRepeated c b) t := by
  have hn : (c + 1).toNat = c.toNat + 1 := by rw [BitVec.toNat_add]; simp; omega
  obtain ⟨r, v, hr, hk, -⟩ := returns_transmit .data b s
  rw [exec_sSend_ok b hu ho hf, hr, Host.Outcome.next.injEq] at ht
  have hto : t.sessOpen = true := by
    rw [← ht, run_returnOp_sSend_sessOpen, (registers_of_kept hk).2.1, ho]
  have htu : t.upc = none := by rw [← ht, run_upc]
  rw [exec_sSendRepeated _ b hu ho, hn, run_repeatLoop_next hf hr, exec_sSendRepeated c b htu hto, ← ht,
    run_repeatLoop_after_sSend]

/-- The loop's end, when no send is left or the sticky fault is not OK. -/
theorem run_repeatLoop_closes {n : Nat} (b : Byte) {s : State} {f : FaultCode}
    (hf : s.sessFault = some f) (h : n = 0 ∨ f ≠ .ok) : ∃ t, run (repeatLoop n b s) = t ∧
      Sends 0 [] s t ∧ t.result = some f ∧ t.value = none ∧ t.phase = s.phase ∧
      t.sessOpen = s.sessOpen ∧ t.sessFault = some f ∧ t.sessStep = s.sessStep := by
  have e : repeatLoop n b s = { s with upc := some (.sess [] (.finish none .nothing)) } := by
    unfold repeatLoop
    rw [hf]
    split
    · simp_all
    · rfl
  have hm := takeTurn_master s.peer s
  have hs := sends_takeTurn s.peer s
  rw [e, run_sess, run_of_idle rfl]
  generalize takeTurn s.peer s = u at hm hs
  have hfu : u.sessFault = some f := (master_sessFault hm).trans hf
  exact ⟨_, rfl, hs.trans (m := 0) (qs := []) ⟨[_], rfl, rfl, rfl⟩, hfu, rfl, (master_phase hm :),
    (master_sessOpen hm :), hfu, (master_sessStep hm :)⟩

/-- One send of the loop, with the sticky fault OK. -/
theorem run_repeatLoop_send (c : Nat) (b : Byte) {s : State} {n : Nat} (hf : s.sessFault = some .ok)
    (hn : s.sessStep = some n) : ∃ r d, run (repeatLoop (c + 1) b s) = run (repeatLoop c b d) ∧
      (r = .ok ∨ r ∈ sendFaults) ∧ Sends 1 [r] s d ∧ d.cfg = s.cfg ∧ d.sessOpen = s.sessOpen ∧
      d.sessFault = some r ∧ d.sessStep = some ((n + 1) % 2 ^ stepWidth s.cfg) ∧
      d.phase = nextPhase .send r s.phase := by
  obtain ⟨r, v, hret, hk, hr, hsv⟩ := returns_send b s
  obtain ⟨kc, ko, kf, kn⟩ := registers_of_kept hk
  have hm := takeTurn_master v.peer v
  have hsu := hsv.trans (sends_takeTurn v.peer v)
  refine ⟨r, _, run_repeatLoop_next hf hret c, hr, ?_⟩
  generalize takeTurn v.peer v = u at hm hsu
  rw [sendDone_eq ((master_sessFault hm).trans (kf.trans hf))]
  refine ⟨hsu.trans (m := 0) (qs := [r]) ⟨[_], rfl, rfl, rfl⟩, (master_cfg hm).trans kc,
    (master_sessOpen hm).trans ko, rfl, ?_, ?_⟩
  · show u.sessStep.map _ = _
    rw [master_sessStep hm, kn, hn, master_cfg hm, kc]
    rfl
  · rfl

/-- The loop over `c` sends with the sticky fault OK: it makes them all, or ends at the first that returns a
fault. -/
theorem run_repeatLoop_sends (c : Nat) (b : Byte) {s : State} {n : Nat} (hf : s.sessFault = some .ok)
    (hn : s.sessStep = some n) (hlt : n < 2 ^ stepWidth s.cfg) :
    ∃ t r f rs, run (repeatLoop c b s) = t ∧ Sends f rs s t ∧ f ≤ c ∧ t.value = none ∧
      t.sessOpen = s.sessOpen ∧ t.sessStep = some ((n + f) % 2 ^ stepWidth s.cfg) ∧
      t.sessFault = some r ∧ t.result = some r ∧
      ((r = .ok ∧ f = c ∧ rs = List.replicate f .ok ∧ t.phase = if c = 0 then s.phase else .sending) ∨
        (r ∈ sendFaults ∧ 1 ≤ f ∧ rs = List.replicate (f - 1) .ok ++ [r] ∧ t.phase = .error)) := by
  induction c generalizing s n with
  | zero =>
    obtain ⟨t, e, hs, hr, hv, hp, ho, hft, hst⟩ := run_repeatLoop_closes b hf (.inl rfl)
    refine ⟨t, .ok, 0, [], e, hs, Nat.le_refl 0, hv, ho, ?_, hft, hr, .inl ⟨rfl, rfl, rfl, hp⟩⟩
    rw [hst, hn, Nat.add_zero, Nat.mod_eq_of_lt hlt]
  | succ c ih =>
    obtain ⟨q, d, e, hq, hsd, hc, ho, hfd, hnd, hpd⟩ := run_repeatLoop_send c b hf hn
    rw [e]
    rcases hq with rfl | hq
    · obtain ⟨t, r, f, rs, e, hs, hle, hv, hot, hst, hft, hr, hend⟩ :=
        ih hfd hnd (by rw [hc]; exact Nat.mod_lt _ (Nat.two_pow_pos _))
      refine ⟨t, r, 1 + f, .ok :: rs, e, hsd.trans hs, by omega, hv, hot.trans ho, ?_, hft, hr, ?_⟩
      · rw [hst, hc, Nat.mod_add_mod, Nat.add_assoc]
      · rcases hend with ⟨rfl, rfl, rfl, hp⟩ | ⟨hr, h1, rfl, hp⟩
        · refine .inl ⟨rfl, Nat.add_comm 1 f, by rw [Nat.add_comm, List.replicate_succ], ?_⟩
          rw [hp, hpd]
          exact ite_self _
        · obtain ⟨f, rfl⟩ : ∃ f', f = f' + 1 := ⟨f - 1, by omega⟩
          refine .inr ⟨hr, by omega, ?_, hp⟩
          rw [Nat.add_sub_cancel_left, Nat.add_sub_cancel, List.replicate_succ, List.cons_append]
    · have hne : q ≠ .ok := by rintro rfl; simp [sendFaults] at hq
      obtain ⟨t, e, hs, hr, hv, hp, hot, hft, hst⟩ := run_repeatLoop_closes b hfd (.inr hne)
      refine ⟨t, q, 1, [q], e, hsd.trans hs, by omega, hv, hot.trans ho, hst.trans hnd, hft, hr,
        .inr ⟨hq, Nat.le_refl 1, rfl, ?_⟩⟩
      rw [hp, hpd, nextPhase_of_ne_ok hne]

/-- Settles O55: each send counts once, and the first fault ends the loop; an S_SEND ends where the loop's next
send begins. -/
theorem sSendRepeatedCountsForwardedSends : Obligations.SSendRepeatedCountsForwardedSends := by
  refine ⟨fun count b s n hu ho hf hn hlt => ?_, fun c b s t hu ho hf hc => sSendRepeated_succ hu ho hf hc⟩
  obtain ⟨t, r, f, rs, e, ⟨es, htr, rfl, rfl⟩, hle, hv, hot, hst, hft, hr, hend⟩ :=
    run_repeatLoop_sends count.toNat b hf hn hlt
  have hcount : count = 0 ↔ count.toNat = 0 := BitVec.toNat_inj.symm
  refine ⟨t, r, es, _, (exec_sSendRepeated count b hu ho).trans (congrArg _ e), by rw [← e, run_upc], hv,
    htr, rfl, hle, hot.trans ho, hst, hft, hr, ?_⟩
  rcases hend with h | h
  · exact .inl (by simpa only [hcount] using h)
  · exact .inr h

end Sys2Proof.Machine
end

section
/-! PROOFS. The Delay derivation is the ceiling on the natural numbers, which clamps at zero by itself; its laws
are that ceiling's. -/

namespace Sys2Proof.Machine

/-! ## The Delay derivation (`40_timing_profile.md` rules R141 and R142) -/

/-- The core library's ceiling, which the model computes with, is Mathlib's: both lie below the same naturals. -/
theorem toNat_ratCeil (q : Rat) : q.ceil.toNat = ⌈q⌉₊ :=
  eq_of_forall_ge_iff fun n => by rw [Int.toNat_le, Rat.ceil_le_iff, Nat.ceil_le, Int.cast_natCast]

/-- Rule R141 without its case split: for `us ≤ 0` the quotient is not positive, and its ceiling in the naturals
is the clamped 0. -/
theorem delayCycles_eq_natCeil (us : Rat) (f : Nat) : delayCycles us f = ⌈us * f / 1000000⌉₊ := by
  unfold delayCycles
  split
  case isTrue h =>
    have hq : us * f / 1000000 ≤ 0 :=
      div_nonpos_of_nonpos_of_nonneg (mul_nonpos_of_nonpos_of_nonneg h f.cast_nonneg) (by decide)
    exact (Nat.ceil_eq_zero.mpr hq).symm
  case isFalse => exact toNat_ratCeil _

/-- Settles O12: the derivation is a ceiling in the naturals, which is within 1 above the quotient, positive for a
positive quotient, and monotone. -/
theorem delayDerivationLaws : Obligations.DelayDerivationLaws := by
  refine ⟨fun us f h => if_pos h, fun us f h => ?_, fun us f h hf => ?_, fun us vs f h => ?_⟩
  · rw [delayCycles_eq_natCeil]
    exact ⟨Nat.le_ceil _, Nat.ceil_lt_add_one (by positivity)⟩
  · rw [delayCycles_eq_natCeil, Nat.one_le_ceil_iff]
    positivity
  · rw [delayCycles_eq_natCeil, delayCycles_eq_natCeil]
    exact Nat.ceil_mono (by gcongr)

end Sys2Proof.Machine
end

section
/-! PROOFS. One atomic step and the two lines: at most one of them moves, the detector sees every condition and
the latch samples at every rising edge of SCL, whichever agent makes the step. -/

namespace Sys2Proof.Machine

/-! ## The lines (`41_bit_transfer.md` rules R161 to R164) -/

/-- Settles O10: each line is high exactly when neither the master nor the Peer pulls it low. -/
theorem lineLevelsAreWiredAnd : Obligations.LineLevelsAreWiredAnd := by
  intro s
  have hmsb : s.shreg.msb = s.shreg.getLsbD 7 := BitVec.msb_eq_getLsbD_last s.shreg
  constructor
  · simp [State.scl, State.pullsScl]
  · simp [State.sda, State.pullsSda, hmsb, imp_iff_not_or]

/-- A micro-step writes SCL_DRV, or what SDA depends on, never both. -/
theorem opWrite_one_driver (op : MicroOp) (s : State) : (op.write s).sclDrv = s.sclDrv ∨
    ((op.write s).sdaDir = s.sdaDir ∧ (op.write s).sdaForce = s.sdaForce ∧
      (op.write s).shreg = s.shreg) := by
  cases op with
  | sclRel | sclLow => exact .inr ⟨rfl, rfl, rfl⟩
  | _ => exact .inl rfl

/-- SCL depends on SCL_DRV and the Peer only. -/
theorem scl_congr {s t : State} (hd : t.sclDrv = s.sclDrv) (hp : t.peerSclLow = s.peerSclLow) :
    t.scl = s.scl := by
  simp only [State.scl, State.pullsScl, hd, hp]

/-- SDA depends on SDA_DIR, SDA_FORCE, SHREG and the Peer only. -/
theorem sda_congr {s t : State} (hd : t.sdaDir = s.sdaDir) (hf : t.sdaForce = s.sdaForce)
    (hs : t.shreg = s.shreg) (hp : t.peerSdaLow = s.peerSdaLow) : t.sda = s.sda := by
  simp only [State.sda, State.pullsSda, hd, hf, hs, hp]

theorem opWrite_one_line (op : MicroOp) (s : State) :
    (op.write s).scl = s.scl ∨ (op.write s).sda = s.sda := by
  rcases opWrite_one_driver op s with h | ⟨hd, hf, hs⟩
  · exact .inl (scl_congr h (opWrite_peerSclLow op s))
  · exact .inr (sda_congr hd hf hs (opWrite_peerSdaLow op s))

/-! ## What one atomic step shows on the wire (rules R167 and R168) -/

/-- From `s` to `t` at most one line moves, and the latch takes SDA exactly when SCL rises. -/
structure WireStep (s t : State) : Prop where
  oneLine : t.scl = s.scl ∨ t.sda = s.sda
  latch : t.latch = if s.scl = false ∧ t.scl = true then t.sda else s.latch

/-- From `s` to `t` the detector's flags are set by the conditions that the lines show, and not cleared. -/
structure Detects (s t : State) : Prop where
  start : t.startDet = (s.startDet || startEdge s.scl s.sda t.scl t.sda)
  stop : t.stopDet = (s.stopDet || stopEdge s.scl s.sda t.scl t.sda)

theorem WireStep.refl (s : State) : WireStep s s := ⟨.inl rfl, by cases s.scl <;> rfl⟩

theorem Detects.refl (s : State) : Detects s s := ⟨by simp [startEdge_still], by simp [stopEdge_still]⟩

/-- A step's writes that move at most one line and leave LATCH. -/
theorem wireStep_commit {s w : State} (h : w.scl = s.scl ∨ w.sda = s.sda) (hl : w.latch = s.latch)
    (k : EventKind) : WireStep s (commit s w k) :=
  ⟨h, by
    show (if (!s.scl && w.scl) = true then w.sda else w.latch) =
      if s.scl = false ∧ w.scl = true then w.sda else s.latch
    simp [hl]⟩

/-- A step's writes that leave the detector's flags. -/
theorem detects_commit {s w : State} (h1 : w.startDet = s.startDet) (h2 : w.stopDet = s.stopDet)
    (k : EventKind) : Detects s (commit s w k) := by
  refine ⟨?_, ?_⟩
  · rw [commit_startDet, h1]; rfl
  · rw [commit_stopDet, h2]; rfl

/-- The fields that show on the wire, equal in two states. -/
structure SameWire (t u : State) : Prop where
  scl : u.scl = t.scl
  sda : u.sda = t.sda
  latch : u.latch = t.latch
  startDet : u.startDet = t.startDet
  stopDet : u.stopDet = t.stopDet

theorem WireStep.congr {s t u : State} (h : WireStep s t) (hu : SameWire t u) : WireStep s u :=
  ⟨by rw [hu.scl, hu.sda]; exact h.oneLine, by rw [hu.latch, hu.scl, hu.sda]; exact h.latch⟩

theorem Detects.congr {s t u : State} (h : Detects s t) (hu : SameWire t u) : Detects s u :=
  ⟨by rw [hu.startDet, hu.scl, hu.sda]; exact h.start, by rw [hu.stopDet, hu.scl, hu.sda]; exact h.stop⟩

/-! The control after a micro-step does not show on the wire. -/

theorem sameWire_sessEnd (e : SessEnd) (t : State) : SameWire t (sessEnd e t) := by
  constructor <;> simp [State.scl, State.pullsScl, State.sda, State.pullsSda]

/-- What follows a micro-step made in `u` does not show on the wire. -/
theorem sameWire_afterOp (k : Kont) (w : Work) (rest : List Work) (u : State) :
    SameWire (commit u (w.op.write u) (w.op.event u)) (afterOp k w rest u) := by
  unfold afterOp
  split <;> constructor <;> simp [State.scl, State.pullsScl, State.sda, State.pullsSda]

/-- The writes of a μSESS show nothing on the wire. -/
theorem sameWire_writeAll (as : List SessAssign) (s : State) : SameWire s (writeAll as s) := by
  constructor <;> simp [State.scl, State.pullsScl, State.sda, State.pullsSda]

theorem wireStep_engineStep (s : State) : WireStep s (engineStep s) := by
  match hu : s.upc with
  | none =>
    rw [show engineStep s = s by simp [engineStep, hu]]
    exact .refl s
  | some (.sess as e) =>
    simp only [engineStep, hu]
    exact (wireStep_commit (.inl (sameWire_writeAll as s).scl) (writeAll_latch as s) _).congr
      (sameWire_sessEnd e _)
  | some (.op w rest k) =>
    rw [engineStep_op hu]
    exact (wireStep_commit (opWrite_one_line w.op s) (opWrite_latch w.op s) _).congr
      (sameWire_afterOp k w rest s)

/-- Only μBEGIN writes the detector's flags (rule R169). -/
theorem opWrite_flags {op : MicroOp} (h : ∀ n, op ≠ .beginBits n) (s : State) :
    (op.write s).startDet = s.startDet ∧ (op.write s).stopDet = s.stopDet := by
  cases op with
  | beginBits n => exact absurd rfl (h n)
  | _ => exact ⟨rfl, rfl⟩

theorem detects_engineStep {s : State} (h : ∀ n m rest k, s.upc ≠ some (.op ⟨.beginBits n, m⟩ rest k)) :
    Detects s (engineStep s) := by
  match hu : s.upc with
  | none =>
    rw [show engineStep s = s by simp [engineStep, hu]]
    exact .refl s
  | some (.sess as e) =>
    simp only [engineStep, hu]
    exact (detects_commit (writeAll_startDet as s) (writeAll_stopDet as s) _).congr (sameWire_sessEnd e _)
  | some (.op w rest k) =>
    obtain ⟨op, m⟩ := w
    have hop : ∀ n, op ≠ .beginBits n := by
      rintro n rfl
      exact h n m rest k hu
    rw [engineStep_op hu]
    exact (detects_commit (opWrite_flags hop s).1 (opWrite_flags hop s).2 _).congr
      (sameWire_afterOp k ⟨op, m⟩ rest s)

/-- A Peer step moves its own line only. -/
theorem wireStep_peerStep (m : PeerMove) (s : State) : WireStep s (peerStep m s) := by
  cases m with
  | scl b => exact wireStep_commit (s := s) (w := { s with peerSclLow := b }) (.inr rfl) rfl _
  | sda b => exact wireStep_commit (s := s) (w := { s with peerSdaLow := b }) (.inl rfl) rfl _
  | pass => exact .refl s

theorem detects_peerStep (m : PeerMove) (s : State) : Detects s (peerStep m s) := by
  cases m with
  | scl b => exact detects_commit (s := s) (w := { s with peerSclLow := b }) rfl rfl _
  | sda b => exact detects_commit (s := s) (w := { s with peerSdaLow := b }) rfl rfl _
  | pass => exact .refl s

/-- `WireStep` does not look at the Peer's moves to come. -/
theorem WireStep.of_setPeer {s t : State} {ms : List PeerMove} (h : WireStep { s with peer := ms } t) :
    WireStep s t := ⟨h.oneLine, h.latch⟩

theorem Detects.of_setPeer {s t : State} {ms : List PeerMove} (h : Detects { s with peer := ms } t) :
    Detects s t := ⟨h.start, h.stop⟩

theorem wireStep_tick (s : State) : WireStep s (tick s) := by
  rcases tick_cases s with ⟨ms, -, ht⟩ | ⟨m, ms, -, -, ht⟩ <;> rw [ht]
  · exact (wireStep_engineStep _).of_setPeer
  · exact (wireStep_peerStep m _).of_setPeer

theorem wireStep_idleStep (s : State) : WireStep s (idleStep s) := by
  unfold idleStep
  split
  · exact .refl s
  · exact (wireStep_peerStep _ _).of_setPeer

theorem detects_tick {s : State} (h : ∀ n m rest k, s.upc ≠ some (.op ⟨.beginBits n, m⟩ rest k)) :
    Detects s (tick s) := by
  rcases tick_cases s with ⟨ms, -, ht⟩ | ⟨m, ms, -, -, ht⟩ <;> rw [ht]
  · exact (detects_engineStep (s := { s with peer := ms }) h).of_setPeer
  · exact (detects_peerStep m _).of_setPeer

/-- Settles O17: a micro-step writes one driver at most, a μSESS none, and a Peer step its own. -/
theorem noStepMovesBothLines : Obligations.NoStepMovesBothLines := by
  refine ⟨fun s => (wireStep_tick s).oneLine, fun s => (wireStep_idleStep s).oneLine, opWrite_one_driver,
    fun op s h => ?_, fun as s => by simp⟩
  rcases h with ⟨n, rfl⟩ | rfl | ⟨d, rfl⟩ | ⟨c, rfl⟩ | ⟨i, v, rfl⟩ <;> exact ⟨rfl, rfl, rfl, rfl⟩

/-- Settles O19: the latch samples at every rising edge that a step shows. -/
theorem latchSamplesAtTheRisingEdge : Obligations.LatchSamplesAtTheRisingEdge :=
  ⟨fun s => (wireStep_tick s).latch, fun s => (wireStep_idleStep s).latch⟩

/-- μBEGIN clears both flags, and moves no line. -/
theorem engineStep_beginBits {s : State} {n : BitCount} {m : Option Phase} {rest : List Work} {k : Kont}
    (hu : s.upc = some (.op ⟨.beginBits n, m⟩ rest k)) :
    (engineStep s).startDet = false ∧ (engineStep s).stopDet = false := by
  have hw := sameWire_afterOp k ⟨.beginBits n, m⟩ rest s
  rw [engineStep_op hu, hw.startDet, hw.stopDet]
  exact ⟨startEdge_still s.scl s.sda s.scl, stopEdge_still s.scl s.sda s.scl⟩

/-- Settles O18: every step but μBEGIN keeps a flag that is set, and sets it on its condition. -/
theorem detectorSeesEveryCondition : Obligations.DetectorSeesEveryCondition :=
  ⟨fun _ h => ⟨(detects_tick h).start, (detects_tick h).stop⟩,
    fun _ _ _ _ _ hu => engineStep_beginBits hu,
    fun s mv => ⟨(detects_peerStep mv s).start, (detects_peerStep mv s).stop⟩⟩

end Sys2Proof.Machine
end

section
/-! PROOFS. TRANSMIT and SEND for every Peer. -/

namespace Sys2Proof.Machine

/-! ## TRANSMIT's outcomes (`43_byte_engine.md` rules R220 and R222) -/

/-- Where the driver registers and CNT of a transmission that began in `s` stand when it returns `r` in `t`. -/
def TransmitEnds (ph : TxPhase) (s : State) (r : FaultCode) (t : State) : Prop :=
  ((r = .ok ∨ r = nackCode ph) ∧ t.sclDrv = .low ∧ t.shreg = 0xFF ∧ t.sdaDir = .inward ∧ t.cnt = 0) ∨
  (r = .clockHighTimeout ∧ t.sclDrv = .rel ∧ 1 ≤ t.cnt ∧ t.cnt ≤ 8) ∨
  (r ∈ preCheckCodes ph ∧ t.sclDrv = s.sclDrv ∧ t.sdaDir = s.sdaDir ∧ t.shreg = s.shreg ∧ t.cnt = s.cnt)

/-- CNT, off a master part. -/
theorem cnt_eq_of_master {t x : State} (h : t.master = x) : t.cnt = x.cnt := cnt_of_master h rfl

theorem returns_transmit_ends (ph : TxPhase) (b : Byte) (s : State) :
    ∃ r t, Returns (transmitProg ph b none) s r t ∧ t.sdaForce = s.sdaForce ∧ TransmitEnds ph s r t := by
  refine (does_transmit ph b none s).returns ?_ ?_
  · rintro t ⟨p, ht⟩
    obtain ⟨hd, hf, hi, hs⟩ := drivers_of_master ht
    exact ⟨hf, .inl ⟨.inl rfl, hd, hs, hi, cnt_eq_of_master ht⟩⟩
  · rintro r t (⟨hr, ht⟩ | ⟨hr, p, sh, c, d, h1, h8, ht⟩ | ⟨hr, p, ht⟩)
    · exact ⟨master_sdaForce ht, .inr (.inr ⟨hr, master_sclDrv ht, master_sdaDir ht, master_shreg ht,
        master_cnt ht⟩)⟩
    · obtain ⟨hd, hf, -, -⟩ := drivers_of_master ht
      have hc : t.cnt = c := cnt_eq_of_master ht
      exact ⟨hf, .inr (.inl ⟨hr, hd, by omega, by omega⟩)⟩
    · obtain ⟨hd, hf, hi, hs⟩ := drivers_of_master ht
      exact ⟨hf, .inl ⟨.inr hr, hd, hs, hi, cnt_eq_of_master ht⟩⟩

/-- TRANSMIT and SEND run `Transmit` and end with the PHASE value of TRANSMIT in its phase. -/
theorem exec_transmits {i : Instr} {ph : TxPhase} {b : Byte} {s t : State} {r : FaultCode}
    (hu : s.upc = none) (ho : s.sessOpen = false) (hp : s.phase ≠ .error)
    (hi : i = .transmit ph b ∨ (i = .send b ∧ ph = .data)) (h : Returns (transmitProg ph b none) s r t) :
    exec i s = .next (finish (.transmit ph) r none t) := by
  rcases hi with rfl | ⟨rfl, rfl⟩
  · rw [exec_transmit ph b hu ho hp, h, run_returnOp_finish]
  · rw [sendIsTransmitData b s, exec_transmit .data b hu ho hp, h, run_returnOp_finish]

/-- Settles O41: what `Transmit` returns and leaves, with `finish`'s RESULT, VALUE and PHASE. -/
theorem transmitOutcomes : Obligations.TransmitOutcomes := by
  intro i ph b s hu ho hp hi
  obtain ⟨r, t, hr, hf, h⟩ := returns_transmit_ends ph b s
  refine ⟨_, r, exec_transmits hu ho hp hi hr, rfl, rfl, rfl, hf, ?_⟩
  simp only [finish_phase, finish_sclDrv, finish_shreg, finish_sdaDir, finish_cnt]
  rcases h with ⟨rfl | rfl, h⟩ | ⟨rfl, h⟩ | ⟨hr, h⟩
  · exact .inl ⟨rfl, by cases ph <;> rfl, h⟩
  · exact .inr (.inl ⟨by cases ph <;> rfl, by cases ph <;> rfl, h⟩)
  · exact .inr (.inr (.inl ⟨rfl, rfl, h⟩))
  · have hne : r ≠ .ok := by
      rintro rfl
      cases ph <;> simp [preCheckCodes] at hr
    exact .inr (.inr (.inr ⟨by cases ph <;> exact hr, nextPhase_of_ne_ok hne _ _, h⟩))

end Sys2Proof.Machine
end

section
/-! PROOFS. The engine's micro-steps as TRACE shows them: how many a command makes at most, and that a poll which
times out ends with POLL_BOUND reads of 0. Both are kept along a micro-program by one induction over its
micro-steps (`does_makes`). -/

namespace Sys2Proof.Machine

/-! ## The engine's events -/

/-- From `s` to `t` the engine makes micro-steps of the kinds `ks`, the newest first. -/
def Makes (ks : List EventKind) (s t : State) : Prop :=
  ∃ es, t.trace = es ++ s.trace ∧ engineKinds es = ks

theorem Makes.trans {ks ls : List EventKind} {s t u : State} (h : Makes ks s t) (h' : Makes ls t u) :
    Makes (ls ++ ks) s u := by
  obtain ⟨es, ht, rfl⟩ := h
  obtain ⟨fs, hu, rfl⟩ := h'
  exact ⟨fs ++ es, by rw [hu, ht, List.append_assoc], by simp [engineKinds]⟩

theorem Makes.refl (s : State) : Makes [] s s := ⟨[], rfl, rfl⟩

/-- The events that TRACE gets are those of `Makes`. -/
theorem Makes.kinds {ks : List EventKind} {s t : State} {es : List Event} (h : Makes ks s t)
    (ht : t.trace = es ++ s.trace) : engineKinds es = ks := by
  obtain ⟨fs, hf, rfl⟩ := h
  rw [List.append_cancel_right (ht.symm.trans hf)]

theorem Makes.microSteps {ks : List EventKind} {s t : State} (h : Makes ks s t) :
    t.microSteps = s.microSteps + ks.length := by
  obtain ⟨es, ht, rfl⟩ := h
  rw [State.microSteps, ht, List.countP_append, Nat.add_comm, engineKinds, List.length_map,
    ← List.countP_eq_length_filter]
  rfl

/-- A kind of micro-step that no event of TRACE shows. -/
theorem Makes.not_mem {ks : List EventKind} {s t : State} {es : List Event} {k : EventKind}
    (h : Makes ks s t) (ht : t.trace = es ++ s.trace) (hk : ∀ e ∈ es, e.kind ≠ k) : k ∉ ks := by
  rw [← h.kinds ht]
  intro hm
  obtain ⟨e, he, rfl⟩ := List.mem_map.1 hm
  exact hk e (List.mem_filter.1 he).1 rfl

theorem makes_takeTurn (ms : List PeerMove) (s : State) : Makes [] s (takeTurn ms s) := by
  obtain ⟨ps, ht, hp⟩ := takeTurn_trace ms s
  refine ⟨ps, ht, ?_⟩
  rw [engineKinds, List.filter_eq_nil_iff.2 fun e he => by rw [hp e he]; nofun, List.map_nil]

/-- A micro-step is the engine's. -/
theorem event_byEngine (op : MicroOp) (u : State) : (op.event u).byEngine = true := by cases op <;> rfl

theorem makes_op (op : MicroOp) (m : Option Phase) (u : State) :
    Makes [op.event u] u (stamp m (commit u (op.write u) (op.event u))) :=
  ⟨[⟨op.event u, _, _⟩], by rw [stamp_trace, commit_trace, opWrite_trace]; rfl, by
    simp [engineKinds, event_byEngine]⟩

/-! ## The worst case (`70_reset_and_hazards.md` rule R366) -/

theorem engineStep_microSteps (s : State) : (engineStep s).microSteps ≤ s.microSteps + 1 := by
  unfold State.microSteps
  rcases engineStep_trace_or s with e | ⟨ev, e, -⟩ <;> rw [e]
  · exact Nat.le_succ _
  · rw [List.countP_cons]
    split <;> omega

theorem peerStep_microSteps (m : PeerMove) (s : State) : (peerStep m s).microSteps = s.microSteps := by
  cases m <;> simp [State.microSteps, peerStep, EventKind.byEngine]

/-- A run makes at most as many micro-steps as its bound says. -/
theorem run_microSteps_le (s : State) : (run s).microSteps ≤ s.microSteps + engineBudget s := by
  have h := run_induct_agents (P := fun t => t.microSteps + engineBudget t ≤ s.microSteps + engineBudget s)
    (fun _ _ h => h)
    (fun t hu h => by
      have := engineStep_microSteps t
      have := engineBudget_engineStep hu
      omega)
    (fun t m h => by rwa [peerStep_microSteps, engineBudget_peerStep]) (Nat.le_refl _)
  omega

/-- At a micro-program that begins its own polls and pulses, the bound is the sum of its micro-steps. -/
theorem engineBudget_begun {ws : List Work} (hp : pollDue ws = false) (hs : shiftDue ws = false)
    (k : Kont) (g : Option Byte) (s : State) : engineBudget (proceed k ws g s) =
      workCost (pollBound s.cfg) ws + k.cost (pollBound s.cfg) := by
  simp [engineBudget_proceed, opBudget, hp, hs]

theorem workCost_startProg (p : Nat) (m : Option Phase) : workCost p (startProg m) = p + 6 := by
  simp only [startProg, plain, workCost, MicroOp.cost]

theorem workCost_stopProg (p : Nat) : workCost p stopProg = p + 6 := by
  simp only [stopProg, plain, workCost, MicroOp.cost]
  omega

theorem workCost_bitx (p : Nat) (n : BitCount) :
    workCost p (bitTransferProg n .give none) = worstCase p (.bitx n) := by
  cases n <;> simp [bitTransferProg, pulseProg, plain, workCost, MicroOp.cost, pulseCost, pulses,
    worstCase] <;> omega

theorem workCost_transmitProg (p : Nat) (ph : TxPhase) (b : Byte) (m : Option Phase) :
    workCost p (transmitProg ph b m) = 9 * p + 55 := by
  have h := opBudget_transmitProg p 0 0 ph b m
  simpa [opBudget, transmitProg, plain, pollDue, shiftDue, bitTransferProg, pulseProg] using h

theorem workCost_startSendingProg (p : Nat) (cfg : Config) :
    workCost p (startSendingProg cfg) = 10 * p + 61 := by
  rw [startSendingProg, workCost_append, workCost_startProg, workCost_transmitProg]
  omega

theorem workCost_receiveProg (p : Nat) (cfg : Config) (n : Half) :
    workCost p (receiveProg cfg n) = 11 * p + 67 + n.toNat * (9 * p + 54) := by
  rw [receiveProg, workCost_append, workCost_append, workCost_append, workCost_startProg,
    workCost_transmitProg, workCost_stopProg]
  split
  · rename_i h0
    subst h0
    simp [workCost]
    omega
  · rename_i h0
    obtain ⟨k, hk⟩ : ∃ k, n.toNat = k + 1 :=
      ⟨n.toNat - 1, by have : n.toNat ≠ 0 := fun h => h0 (BitVec.eq_of_toNat_eq h); omega⟩
    rw [workCost_receiveByteProg, hk]
    simp [receiveByteCost, Nat.succ_mul]
    omega

/-- The bound at a command's first micro-step is the worst case of rule R366. -/
theorem engineBudget_launched_le (i : Instr) (s : State) :
    engineBudget (launched i s) ≤ worstCase (pollBound s.cfg) i := by
  cases i with
  | bitx n => rw [launched, engineBudget_begun rfl rfl, workCost_bitx]; exact Nat.le_refl _
  | start => rw [launched, engineBudget_begun rfl rfl, workCost_startProg]; exact Nat.le_refl _
  | stop => rw [launched, engineBudget_begun rfl rfl, workCost_stopProg]; exact Nat.le_refl _
  | transmit ph b => rw [launched, engineBudget_begun rfl rfl, workCost_transmitProg]; exact Nat.le_refl _
  | send b => rw [launched, engineBudget_begun rfl rfl, workCost_transmitProg]; exact Nat.le_refl _
  | receive n => rw [launched, engineBudget_begun rfl rfl, workCost_receiveProg]; exact Nat.le_refl _
  | startSending =>
    rw [launched, engineBudget_begun rfl rfl, workCost_startSendingProg]; exact Nat.le_refl _
  | sOpen n => rw [launched, engineBudget_begun rfl rfl, workCost_startSendingProg]; exact Nat.le_refl _
  | sSend b =>
    rw [launched]
    split
    · rw [engineBudget_begun rfl rfl, workCost_transmitProg]; exact Nat.le_refl _
    · exact Nat.le_add_left 1 _
  | sSendRepeated c b => exact engineBudget_repeatLoop c.toNat b s
  | sValid => exact Nat.le_refl _
  | sReceive n =>
    rw [launched]
    split
    · rw [engineBudget_begun rfl rfl, workCost_receiveProg]
      simp only [Kont.cost, worstCase]
      omega
    · simp only [engineBudget, worstCase]
      omega
  | sStop =>
    rw [launched]
    split
    · rw [engineBudget_begun rfl rfl, workCost_stopProg]; exact Nat.le_refl _
    · exact Nat.le_add_left 1 _

end Sys2Proof.Machine
end

section
/-! PROOFS. How many micro-steps a command makes when no read gives 0, and what a time-out leaves in TRACE: both are
kept along every micro-program by one induction over its micro-steps, and ended by the command's μSESS. -/

namespace Sys2Proof.Machine

/-! ## An induction over the micro-steps of a micro-program -/

/-- What the Peer's turns leave, and every micro-step passes on to what follows it: `R` holds of the micro-steps
to come, of the kinds of those made since `a`, and of the state. -/
structure Follows (R : List Work → List EventKind → State → Prop)
    (bad : FaultCode → List EventKind → State → Prop) : Prop where
  turn : ∀ ws ks u t, u.master = t.master → R ws ks t → R ws ks u
  next : ∀ op m rest ks u, R (⟨op, m⟩ :: rest) ks u → op.flow u = .next none →
    R rest (op.event u :: ks) (stamp m (commit u (op.write u) (op.event u)))
  again : ∀ op m rest ks u more, R (⟨op, m⟩ :: rest) ks u → op.flow u = .again more →
    R (more ++ rest) (op.event u :: ks) (commit u (op.write u) (op.event u))
  stop : ∀ op m rest ks u r, R (⟨op, m⟩ :: rest) ks u → op.flow u = .stop r →
    bad r (op.event u :: ks) (commit u (op.write u) (op.event u))

theorem does_follows {R : List Work → List EventKind → State → Prop}
    {bad : FaultCode → List EventKind → State → Prop} (hR : Follows R bad) {a : State} {ws : List Work}
    {ks : List EventKind} {s : State} (hws : allOps noGive ws = true) (hm : Makes ks a s)
    (hk : s.kept = a.kept) (h : R ws ks s) :
    Does ws s (fun t => ∃ ks, Makes ks a t ∧ t.kept = a.kept ∧ R [] ks t)
      (fun r t => ∃ ks, Makes ks a t ∧ t.kept = a.kept ∧ r ≠ .ok ∧ bad r ks t) := by
  generalize hb : opBudget (pollBound s.cfg) s.pollk s.cnt ws = n
  induction n using Nat.strongRecOn generalizing ws ks s with
  | _ n ih =>
    cases ws with
    | nil => exact Does.nil ⟨ks, hm, hk, h⟩
    | cons w rest =>
      obtain ⟨op, m⟩ := w
      obtain ⟨hp, hrest⟩ : noGive op = true ∧ allOps noGive rest = true := by simpa [allOps] using hws
      have e := fun k tail => run_proceed_step k ⟨op, m⟩ (rest ++ tail) none s
      have hu := takeTurn_master s.peer s
      have hmu := hm.trans (makes_takeTurn s.peer s)
      generalize takeTurn s.peer s = u at e hu hmu
      rw [← master_cfg hu, ← master_pollk hu, ← master_cnt hu] at hb
      have hr := hR.turn _ _ _ _ hu h
      have hku : u.kept = a.kept := (congrArg State.kept hu).trans hk
      match hf : op.flow u with
      | .stop r =>
        refine .inr ⟨r, _, ⟨_, hmu.trans (makes_op op none u), (op_kept op u none).trans hku,
          (flow_ends op u).2 r hf, hR.stop op m rest ks u r hr hf⟩, fun k tail => ?_⟩
        rw [List.cons_append, e, afterOp]
        simp only [hf]
        rfl
      | .next (some b) =>
        rw [(flow_ends op u).1 b hf] at hp
        cases hp
      | .next none =>
        have hlt := opBudget_next (rest := rest) m hf
        refine Does.of_run (ih _ ?_ hrest (hmu.trans (makes_op op m u)) ((op_kept op u m).trans hku)
          (hR.next op m rest ks u hr hf) rfl) fun k tail => ?_
        · simp only [stamp_cfg, stamp_pollk, stamp_cnt, commit_cfg, commit_pollk, commit_cnt, opWrite_cfg]
          omega
        · rw [List.cons_append, e, afterOp]
          simp only [hf]
      | .again more =>
        have hlt := opBudget_again (rest := rest) m hf
        refine Does.of_run (ih _ ?_ (ws := more ++ rest) ?_ (hmu.trans (makes_op op none u))
          ((op_kept op u none).trans hku) (hR.again op m rest ks u more hr hf) rfl) fun k tail => ?_
        · simp only [stamp, commit_cfg, commit_pollk, commit_cnt, opWrite_cfg]
          omega
        · rw [allOps_append, noGive_again hf, hrest]
          rfl
        · rw [List.cons_append, e, afterOp, List.append_assoc]
          simp only [hf]
          rfl

/-! ## The exact count of micro-steps when no read gives 0 (`70_reset_and_hazards.md` rule R366) -/

/-- The micro-steps that a list makes from CNT = `c` when it ends with OK and every poll is high at the first
read: a μSHIFT stands for the pulses after it, a μPRESET for its value's use. -/
def exactCost (c : Nat) (ws : List Work) : Nat :=
  match ws with
  | [] => 0
  | w :: rest => match w.op with
    | .beginBits n => 1 + exactCost (pulses n) rest
    | .shift => 1 + (c - 1) * 6 + exactCost 0 rest
    | .preset (.toRx _) => 2 + exactCost c rest
    | .preset (.ackSent i n) =>
      if i.toNat + 1 < n.toNat then 1 + (n.toNat - (i.toNat + 1)) * 63 + exactCost 0 rest
      else 1 + exactCost c rest
    | _ => 1 + exactCost c rest

theorem exactCost_next {op : MicroOp} {u : State} (m : Option Phase) (rest : List Work)
    (h : op.flow u = .next none) :
    1 + exactCost (op.write u).cnt rest = exactCost u.cnt (⟨op, m⟩ :: rest) := by
  cases op with
  | beginBits n => rfl
  | shift =>
    have hc : u.cnt - 1 = 0 := by
      simp only [MicroOp.flow] at h
      split at h
      · assumption
      · cases h
    simp [exactCost, MicroOp.write, hc]
  | preset use =>
    cases use with
    | toRx i => cases h
    | ackSent i n =>
      simp only [MicroOp.flow, PresetUse.flow] at h
      split at h
      · cases h
      · rename_i hn
        simp only [exactCost, if_neg hn]
        rfl
    | _ => rfl
  | _ => rfl

theorem exactCost_pulse (c : Nat) (rest : List Work) :
    exactCost c (pulseProg ++ rest) = 6 + (c - 1) * 6 + exactCost 0 rest := by
  simp only [pulseProg, plain, List.cons_append, List.nil_append, exactCost]
  omega

theorem exactCost_bits (c : Nat) (n : BitCount) (rest : List Work) :
    exactCost c (bitsProg n ++ rest) = 2 + 6 * pulses n + exactCost 0 rest := by
  have hn : 1 ≤ pulses n := by cases n <;> decide
  rw [bitsProg, List.cons_append, List.append_assoc]
  simp only [plain, exactCost]
  rw [← plain, exactCost_pulse, List.cons_append, List.nil_append]
  simp only [plain, exactCost]
  omega

theorem exactCost_receiveByteProg (c : Nat) {i n : Half} (m : Option Phase) (rest : List Work)
    (h : i.toNat < n.toNat) : exactCost c (receiveByteProg i n m ++ rest) =
      (n.toNat - i.toNat) * 63 + exactCost 0 rest := by
  obtain ⟨d, hd⟩ : ∃ d, n.toNat = i.toNat + 1 + d := ⟨n.toNat - (i.toNat + 1), by omega⟩
  have e : receiveByteProg i n m ++ rest = { op := .sdaIn, mark := m } :: (bitsProg .eight ++
      (plain (.preset (.toRx i)) :: plain (.stage (answerByte i n)) :: (bitsProg .one ++
        (plain (.preset (.ackSent i n)) :: rest)))) := rfl
  rw [e]
  simp only [exactCost, plain, exactCost_bits, pulses]
  split <;> omega

theorem exactCost_again {op : MicroOp} {u : State} {more : List Work} (m : Option Phase)
    (rest : List Work) (h : op.flow u = .again more) (hr : op.event u ≠ .readScl false) :
    1 + exactCost (op.write u).cnt (more ++ rest) = exactCost u.cnt (⟨op, m⟩ :: rest) := by
  obtain ⟨rfl, rfl⟩ | ⟨rfl, rfl⟩ | ⟨i, rfl, rfl⟩ | ⟨i, n, rfl, hlt, rfl⟩ := flow_again h
  · have hl : u.scl = true := by simpa [MicroOp.event] using hr
    simp [MicroOp.flow, hl] at h
  · have hc : u.cnt - 1 ≠ 0 := by
      intro h0
      simp [MicroOp.flow, h0] at h
    rw [exactCost_pulse]
    simp only [exactCost, MicroOp.write]
    omega
  · simp only [exactCost, plain, List.cons_append, List.nil_append, MicroOp.write]
    omega
  · have hi := toNat_succ hlt
    rw [exactCost_receiveByteProg _ none rest (by omega), hi]
    simp only [exactCost, if_pos hlt]
    omega

/-! ## The last events of a poll that times out (`41_bit_transfer.md` rule R172) -/

/-- Each read of SCL comes right after a μSCL_REL, or first of all when its poll has begun. -/
def pollsFrom (begun : Bool) (ws : List Work) : Bool :=
  match ws with
  | [] => true
  | w :: rest => match w.op with
    | .readScl => begun && pollsFrom false rest
    | .sclRel => pollsFrom true rest
    | _ => pollsFrom false rest

/-- A poll has begun: SCL is released, and the last events are its μSCL_REL and POLLK reads of 0. -/
def Polling (ks : List EventKind) (t : State) : Prop :=
  t.sclDrv = .rel ∧
    ∃ before, ks = List.replicate t.pollk (.readScl false) ++ .sclRel :: before

theorem pollsFrom_again {op : MicroOp} {u : State} {more : List Work} (rest : List Work)
    (h : op.flow u = .again more) : pollsFrom (decide (op = .readScl)) (more ++ rest) =
      pollsFrom false rest := by
  obtain ⟨rfl, rfl⟩ | ⟨rfl, rfl⟩ | ⟨i, rfl, rfl⟩ | ⟨i, n, rfl, -, rfl⟩ := flow_again h <;> rfl

/-- A read of 0 goes on with the poll. -/
theorem polling_read {ks : List EventKind} {u : State} (h : Polling ks u) (hl : u.scl = false) :
    Polling (MicroOp.event .readScl u :: ks)
      (commit u (MicroOp.write .readScl u) (MicroOp.event .readScl u)) := by
  obtain ⟨hd, before, rfl⟩ := h
  exact ⟨hd, before, by simp [MicroOp.event, MicroOp.write, hl, List.replicate_succ]⟩

/-- The only time-out is a poll's last read. -/
theorem flow_timeout {op : MicroOp} {u : State} (h : op.flow u = .stop .clockHighTimeout) :
    op = .readScl ∧ u.scl = false ∧ pollBound u.cfg ≤ u.pollk + 1 := by
  cases op with
  | readScl =>
    cases hl : u.scl with
    | true => simp [MicroOp.flow, hl] at h
    | false =>
      refine ⟨rfl, rfl, ?_⟩
      by_contra hb
      simp [MicroOp.flow, hl, hb] at h
  | shift => simp only [MicroOp.flow] at h; split at h <;> cases h
  | check c =>
    have hc : checkCode c u ≠ .clockHighTimeout := by
      rcases c with _ | _ | ph
      · simp only [checkCode]; split <;> nofun
      · simp only [checkCode]; split <;> nofun
      · rcases checkCode_transmit ph u with h | h
        · rw [h]; nofun
        · intro hr
          rw [hr] at h
          cases ph <;> simp [preCheckCodes] at h
    simp only [MicroOp.flow, Flow.ofCode] at h
    split at h
    · cases h
    · exact absurd (Flow.stop.inj h) hc
  | preset use =>
    cases use with
    | ack ph =>
      have := ackFlow_stop h
      cases ph <;> cases this
    | ackSent i n => simp only [MicroOp.flow, PresetUse.flow] at h; split at h <;> cases h
    | _ => cases h
  | _ => cases h

end Sys2Proof.Machine
end

section
/-! PROOFS. Every command's account of its micro-steps: how many they are when no read gives 0, and which are the
last when its clock times out. -/

namespace Sys2Proof.Machine

/-! ## The account of a micro-program -/

/-- At the micro-steps `ws` of a micro-program that makes `n` in all, with the kinds `ks` behind it. -/
structure AccountAt (n p : Nat) (ws : List Work) (ks : List EventKind) (t : State) : Prop where
  bound : pollBound t.cfg = p
  exact : .readScl false ∉ ks → ks.length + exactCost t.cnt ws = n
  polls : ∃ begun, pollsFrom begun ws = true ∧ (begun = true → t.pollk < p ∧ Polling ks t)

theorem pollsFrom_tail {begun : Bool} {op : MicroOp} {m : Option Phase} {rest : List Work}
    (h : pollsFrom begun (⟨op, m⟩ :: rest) = true) :
    pollsFrom (decide (op = .sclRel)) rest = true ∧ (op = .readScl → begun = true) := by
  cases op with
  | readScl =>
    obtain ⟨hb, hr⟩ := (Bool.and_eq_true_iff (x := begun) (y := pollsFrom false rest)).1 h
    exact ⟨hr, fun _ => hb⟩
  | _ => exact ⟨h, nofun⟩

/-- The account is passed on by every micro-step, and a time-out ends it at a poll's last read. -/
theorem follows_accountAt (n p : Nat) : Follows (AccountAt n p)
    (fun r ks t => r = .clockHighTimeout → t.pollk = p ∧ Polling ks t) where
  turn ws ks u t hu h := by
    refine ⟨by rw [master_cfg hu]; exact h.bound, by rw [master_cnt hu]; exact h.exact, ?_⟩
    simp only [Polling, master_pollk hu, master_sclDrv hu]
    exact h.polls
  next op m rest ks u h hf := by
    obtain ⟨begun, hp, -⟩ := h.polls
    refine ⟨by simpa using h.bound, fun hk => ?_, _, (pollsFrom_tail hp).1, fun ho => ?_⟩
    · have := h.exact fun hm => hk (List.mem_cons_of_mem _ hm)
      rw [← exactCost_next m rest hf] at this
      simp only [List.length_cons, stamp_cnt, commit_cnt]
      omega
    · obtain rfl := of_decide_eq_true ho
      simp only [Polling, stamp_pollk, commit_pollk, stamp_sclDrv, commit_sclDrv]
      exact ⟨h.bound ▸ pollBound_pos u.cfg, rfl, ks, rfl⟩
  again op m rest ks u more h hf := by
    obtain ⟨begun, hp, hb⟩ := h.polls
    obtain ⟨hrest, hread⟩ := pollsFrom_tail hp
    have hne : op ≠ .sclRel := by
      rintro rfl
      cases hf
    rw [decide_eq_false hne] at hrest
    refine ⟨by simpa using h.bound, fun hk => ?_, _, (pollsFrom_again rest hf).trans hrest, fun ho => ?_⟩
    · have := h.exact fun hm => hk (List.mem_cons_of_mem _ hm)
      rw [← exactCost_again m rest hf fun he => hk (he ▸ List.mem_cons_self ..)] at this
      simp only [List.length_cons, commit_cnt]
      omega
    · obtain rfl := of_decide_eq_true ho
      obtain ⟨-, hpoll⟩ := hb (hread rfl)
      simp only [MicroOp.flow] at hf
      split at hf
      · cases hf
      · rename_i hl
        split at hf
        · cases hf
        · refine ⟨?_, polling_read hpoll (by simpa using hl)⟩
          have := h.bound
          simp [MicroOp.write, hl]
          omega
  stop op m rest ks u r h hf := by
    rintro rfl
    obtain ⟨rfl, hl, hle⟩ := flow_timeout hf
    obtain ⟨begun, hp, hb⟩ := h.polls
    obtain ⟨hlt, hpoll⟩ := hb ((pollsFrom_tail hp).2 rfl)
    refine ⟨?_, polling_read hpoll hl⟩
    have := h.bound
    simp [MicroOp.write, hl]
    omega

/-! ## The account of an operation and of a command -/

/-- From `s` to `t`, with the code `r`, the engine makes micro-steps of the kinds `ks`: when `r` is OK and no read
gives 0 they are `n`; when the clock timed out the last are the poll's, and then one μSESS for each of `sess`. -/
structure Account (n p : Nat) (sess : List (List SessAssign)) (ks : List EventKind) (r : FaultCode)
    (s t : State) : Prop where
  makes : Makes ks s t
  exact : r = .ok → .readScl false ∉ ks → ks.length = n
  timedOut : r = .clockHighTimeout → t.pollk = p ∧ t.sclDrv = .rel ∧
    ∃ before, ks = sess.map EventKind.sess ++ (List.replicate p (.readScl false) ++ .sclRel :: before)

/-- A micro-program's stretch that gives no byte and begins its polls itself. -/
theorem does_account {ws : List Work} (s : State) (hws : allOps noGive ws = true)
    (hp : pollsFrom false ws = true) : Does ws s
      (fun t => t.kept = s.kept ∧ ∃ ks, Account (exactCost s.cnt ws) (pollBound s.cfg) [] ks .ok s t)
      (fun r t => t.kept = s.kept ∧ r ≠ .ok ∧
        ∃ ks, Account (exactCost s.cnt ws) (pollBound s.cfg) [] ks r s t) := by
  have h0 : AccountAt (exactCost s.cnt ws) (pollBound s.cfg) ws [] s :=
    ⟨rfl, fun _ => Nat.zero_add _, false, hp, nofun⟩
  refine (does_follows (follows_accountAt _ _) hws (Makes.refl s) rfl h0).imp ?_ ?_
  · rintro t ⟨ks, hm, hk, h⟩
    exact ⟨hk, ks, hm, fun _ => h.exact, nofun⟩
  · rintro r t ⟨ks, hm, hk, hr, h⟩
    refine ⟨hk, hr, ks, hm, fun h => absurd h hr, fun ht => ?_⟩
    obtain ⟨hpk, hd, before, hks⟩ := h ht
    exact ⟨hpk, hd, before, hpk ▸ hks⟩

theorem returns_account {ws : List Work} (s : State) (hws : allOps noGive ws = true)
    (hp : pollsFrom false ws = true) : ∃ r t, Returns ws s r t ∧ t.kept = s.kept ∧
      ∃ ks, Account (exactCost s.cnt ws) (pollBound s.cfg) [] ks r s t :=
  (does_account s hws hp).returns (fun _ h => h) fun _ _ ⟨hk, _, h⟩ => ⟨hk, h⟩

/-- What a μSESS writes to SESS_FAULT depends on SESS_FAULT only. -/
theorem writeAll_sessFault_congr (as : List SessAssign) {u s : State} (h : u.sessFault = s.sessFault) :
    (writeAll as u).sessFault = (writeAll as s).sessFault := by
  unfold writeAll
  induction as generalizing u s with
  | nil => exact h
  | cons a as ih =>
    refine ih ?_
    cases a <;> simp [SessAssign.write, h]

theorem makes_sess (as : List SessAssign) (u : State) :
    Makes [.sess as] u (commit u (writeAll as u) (.sess as)) :=
  ⟨[⟨.sess as, _, _⟩], by rw [commit_trace, writeAll_trace]; rfl, rfl⟩

/-- A μSESS that closes its command is one micro-step, and RESULT is the sticky fault that it leaves. -/
theorem run_sess_account (as : List SessAssign) (o : Option (OpKind × FaultCode)) (g : SessGive)
    (s : State) : ∃ t, run { s with upc := some (.sess as (.finish o g)) } = t ∧ Makes [.sess as] s t ∧
      t.result = (writeAll as s).sessFault ∧ t.pollk = s.pollk ∧ t.sclDrv = s.sclDrv := by
  have e : run { s with upc := some (.sess as (.finish o g)) } = finishS o g _ :=
    (run_sess as (.finish o g) s).trans (run_of_idle rfl)
  have hm := takeTurn_master s.peer s
  have hmk := makes_takeTurn s.peer s
  generalize takeTurn s.peer s = u at e hm hmk
  refine ⟨_, e, hmk.trans (makes_sess as u), writeAll_sessFault_congr as (master_sessFault hm), ?_, ?_⟩
  · simpa using master_pollk hm
  · simpa using master_sclDrv hm

/-- An operation's account goes on with one μSESS. -/
theorem Account.sess {n p : Nat} {sess : List (List SessAssign)} {ks : List EventKind} {r : FaultCode}
    {s t u : State} {as : List SessAssign} (h : Account n p sess ks r s t) (hm : Makes [.sess as] t u)
    (hp : u.pollk = t.pollk) (hd : u.sclDrv = t.sclDrv) :
    Account (n + 1) p (as :: sess) (.sess as :: ks) r s u where
  makes := h.makes.trans hm
  exact hr hk := by
    rw [List.length_cons, h.exact hr fun hm => hk (List.mem_cons_of_mem _ hm)]
  timedOut hr := by
    obtain ⟨hpk, hsd, before, rfl⟩ := h.timedOut hr
    exact ⟨hp.trans hpk, hd.trans hsd, before, rfl⟩

/-- An account that follows a stretch which returned OK. -/
theorem Account.after {n m p : Nat} {sess sess' : List (List SessAssign)} {ks ls : List EventKind}
    {r : FaultCode} {s t u : State} (h : Account n p sess' ks .ok s t) (h' : Account m p sess ls r t u) :
    Account (n + m) p sess (ls ++ ks) r s u where
  makes := h.makes.trans h'.makes
  exact hr hk := by
    rw [List.mem_append, not_or] at hk
    rw [List.length_append, h'.exact hr hk.1, h.exact rfl hk.2, Nat.add_comm]
  timedOut hr := by
    obtain ⟨hpk, hsd, before, rfl⟩ := h'.timedOut hr
    exact ⟨hpk, hsd, before ++ ks, by simp⟩

/-! ## The commands -/

/-- A command that ends in `t` with an account that began in `s`, with μSESS steps only if it is no raw one. -/
def Accounted (n : Nat) (raw : Bool) (s t : State) : Prop :=
  ∃ r sess ks, t.result = some r ∧ (raw = true → sess = []) ∧ Account n (pollBound s.cfg) sess ks r s t

/-- A raw command ends where its operation returns. -/
theorem accounted_finish {ws : List Work} {n : Nat} (op : OpKind) (s : State)
    (hws : allOps noGive ws = true) (hp : pollsFrom false ws = true) (hn : exactCost s.cnt ws = n) :
    Accounted n true s (run (proceed (.finish op) ws none s)) := by
  obtain ⟨r, t, hr, -, ks, h⟩ := returns_account s hws hp
  rw [hn] at h
  rw [hr, run_returnOp_finish]
  exact ⟨r, [], ks, rfl, fun _ => rfl, h.makes, h.exact, h.timedOut⟩

/-- A session command with an operation closes with one μSESS, which leaves the operation's code as the sticky
fault. -/
theorem accounted_sess {ws : List Work} {n : Nat} {k : Kont} (s : State)
    (hws : allOps noGive ws = true) (hp : pollsFrom false ws = true) (hn : exactCost s.cnt ws = n)
    (hk : ∀ r t, t.sessFault = s.sessFault → ∃ as o g,
      returnOp k r none t = { t with upc := some (.sess as (.finish o g)) } ∧
      (writeAll as t).sessFault = some r) :
    Accounted (n + 1) false s (run (proceed k ws none s)) := by
  obtain ⟨r, t, hr, hkept, ks, h⟩ := returns_account s hws hp
  obtain ⟨as, o, g, e, hf⟩ := hk r t (registers_of_kept hkept).2.2.1
  obtain ⟨u, hu, hm, hres, hpk, hd⟩ := run_sess_account as o g t
  rw [hn] at h
  rw [hr, e, hu]
  exact ⟨r, [as], _, hres.trans hf, nofun, h.sess hm hpk hd⟩

/-- BITX's last micro-step, after the Peer's turn, gives the host the byte in SHREG. -/
theorem run_preset_give_turn (s : State) :
    run (proceed (.finish .bitx) [{ op := .preset .give }] none s) = finish .bitx .ok (some s.shreg)
      (commit (takeTurn s.peer s) (MicroOp.write (.preset .give) (takeTurn s.peer s)) .preset) := by
  rw [run_proceed_step, ← master_shreg (takeTurn_master s.peer s)]
  exact run_of_idle rfl

/-- BITX's transfer and its μPRESET. -/
theorem accounted_bitx (n : BitCount) (s : State) : Accounted (bestCase (.bitx n)) true s
    (run (proceed (.finish .bitx) (bitTransferProg n .give none) none s)) := by
  have hbest : exactCost s.cnt (bitsProg n) + 1 = bestCase (.bitx n) := by
    rw [← List.append_nil (bitsProg n), exactCost_bits]
    cases n <;> rfl
  rw [bitTransferProg_eq]
  rcases does_account (ws := bitsProg n) s rfl rfl with ⟨t, ⟨-, ks, h⟩, e⟩ | ⟨r, t, ⟨-, hr, ks, h⟩, e⟩
  · rw [e, run_preset_give_turn]
    have hm := h.makes.trans ((makes_takeTurn t.peer t).trans (makes_op (.preset .give) none _))
    refine ⟨.ok, [], .preset :: ks, rfl, fun _ => rfl, hm, fun _ hk => ?_, nofun⟩
    rw [List.length_cons, h.exact rfl fun hm => hk (List.mem_cons_of_mem _ hm), hbest]
  · rw [e, run_returnOp_finish]
    exact ⟨r, [], ks, rfl, fun _ => rfl, h.makes, fun h => absurd h hr, h.timedOut⟩

end Sys2Proof.Machine
end

section
/-! PROOFS. The account of every command, and from it the micro-step counts and the events of a time-out. -/

namespace Sys2Proof.Machine

/-! ## The micro-programs' exact counts (`70_reset_and_hazards.md` rule R366) -/

theorem exactCost_start (c : Nat) (m : Option Phase) (rest : List Work) :
    exactCost c (startProg m ++ rest) = 7 + exactCost c rest := by
  simp only [startProg, plain, List.cons_append, List.nil_append, exactCost]
  omega

theorem exactCost_stop (c : Nat) : exactCost c stopProg = 7 := rfl

theorem exactCost_transmit (c : Nat) (ph : TxPhase) (b : Byte) (m : Option Phase) (rest : List Work) :
    exactCost c (transmitProg ph b m ++ rest) = 64 + exactCost 0 rest := by
  have e : transmitProg ph b m ++ rest = plain (.check (.transmit ph)) :: plain .sclLow ::
      plain (.stage b) :: (bitsProg .eight ++ (plain (.preset .drop) :: plain .sdaIn ::
        (bitsProg .one ++ ({ op := .preset (.ack ph), mark := m } :: rest)))) := rfl
  rw [e]
  simp only [exactCost, plain, exactCost_bits, pulses]
  omega

theorem exactCost_transmitProg (c : Nat) (ph : TxPhase) (b : Byte) (m : Option Phase) :
    exactCost c (transmitProg ph b m) = 64 := by
  rw [← List.append_nil (transmitProg ph b m), exactCost_transmit]
  rfl

theorem exactCost_startSendingProg (c : Nat) (cfg : Config) : exactCost c (startSendingProg cfg) = 71 := by
  rw [startSendingProg, exactCost_start, exactCost_transmitProg]

theorem exactCost_receiveProg (c : Nat) (cfg : Config) (n : Half) :
    exactCost c (receiveProg cfg n) = 78 + 63 * n.toNat := by
  rw [receiveProg, exactCost_start, exactCost_transmit]
  split
  · rename_i h0
    subst h0
    rfl
  · rename_i h0
    have hn : n.toNat ≠ 0 := fun h => h0 (BitVec.eq_of_toNat_eq h)
    rw [exactCost_receiveByteProg 0 _ _ (i := 0) (Nat.pos_of_ne_zero hn), exactCost_stop]
    simp
    omega

theorem receiveProg_noGive (cfg : Config) (n : Half) : allOps noGive (receiveProg cfg n) = true := by
  rw [receiveProg]
  split <;> rfl

theorem receiveProg_polls (cfg : Config) (n : Half) : pollsFrom false (receiveProg cfg n) = true := by
  rw [receiveProg]
  split <;> rfl

/-! ## The loop of S_SEND_REPEATED (`45_session.md` rule R276) -/

/-- The loop's closing μSESS, when no send is left or the session has faulted. -/
theorem repeatLoop_closing {n : Nat} (b : Byte) {s : State} (h : n = 0 ∨ s.sessFault ≠ some .ok) :
    repeatLoop n b s = { s with upc := some (.sess [] (.finish none .nothing)) } := by
  unfold repeatLoop
  split
  · rename_i hf
    exact absurd hf (h.resolve_left (Nat.succ_ne_zero _))
  · rfl

/-- A faulted operation makes no exact count. -/
theorem Account.of_fault {n m p : Nat} {sess : List (List SessAssign)} {ks : List EventKind}
    {r : FaultCode} {s t : State} (h : Account n p sess ks r s t) (hr : r ≠ .ok) :
    Account m p sess ks r s t := ⟨h.makes, fun h => absurd h hr, h.timedOut⟩

/-- One send of the loop: 64 micro-steps and the μSESS that closes it. -/
theorem account_send (b : Byte) {s : State} (hf : s.sessFault = some .ok) :
    ∃ r d as ks, (∀ n, run (repeatLoop (n + 1) b s) = run (repeatLoop n b d)) ∧
      d.sessFault = some r ∧ d.cfg = s.cfg ∧ Account 65 (pollBound s.cfg) [as] ks r s d := by
  obtain ⟨r, t, hr, hk, ks, h⟩ := returns_account (ws := transmitProg .data b none) s rfl rfl
  obtain ⟨kc, -, kf, -⟩ := registers_of_kept hk
  rw [exactCost_transmitProg] at h
  have hm := takeTurn_master t.peer t
  have hmk := makes_takeTurn t.peer t
  have hrun := run_repeatLoop_next hf hr
  generalize takeTurn t.peer t = u at hm hmk hrun
  have hfu : u.sessFault = some .ok := (master_sessFault hm).trans (kf.trans hf)
  obtain ⟨hmd, hfd, hcd, hpd, hdd⟩ : Makes [.sess [.stepUp, .foldFault r]] u (sendDone r u) ∧
      (sendDone r u).sessFault = some r ∧ (sendDone r u).cfg = s.cfg ∧
      (sendDone r u).pollk = t.pollk ∧ (sendDone r u).sclDrv = t.sclDrv := by
    rw [sendDone_eq hfu]
    exact ⟨⟨[_], rfl, rfl⟩, rfl, (master_cfg hm).trans kc, (master_pollk hm :), (master_sclDrv hm :)⟩
  exact ⟨r, sendDone r u, _, _, hrun, hfd, hcd, h.sess (hmk.trans hmd) hpd hdd⟩

theorem accounted_repeatLoop (c : Nat) (b : Byte) {s : State} (hf : s.sessFault = some .ok) :
    Accounted (1 + 65 * c) false s (run (repeatLoop c b s)) := by
  induction c generalizing s with
  | zero =>
    obtain ⟨t, ht, hm, hr, -, -⟩ := run_sess_account [] none .nothing s
    rw [repeatLoop_closing b (.inl rfl), ht]
    exact ⟨.ok, [], _, hr.trans hf, nofun, hm, fun _ _ => rfl, nofun⟩
  | succ c ih =>
    obtain ⟨r, d, as, ks, hrun, hfd, hc, h⟩ := account_send b hf
    rw [hrun]
    by_cases hr : r = .ok
    · subst hr
      obtain ⟨q, sess, ls, hq, -, h'⟩ := ih hfd
      rw [hc] at h'
      have hall := h.after h'
      rw [show 65 + (1 + 65 * c) = 1 + 65 * (c + 1) by omega] at hall
      exact ⟨q, sess, _, hq, nofun, hall⟩
    · obtain ⟨t, ht, hm, hres, hpk, hd⟩ := run_sess_account [] none .nothing d
      rw [repeatLoop_closing b (.inr (by simpa [hfd] using hr)), ht]
      exact ⟨r, [[], as], _, hres.trans hfd, nofun, (h.sess hm hpk hd).of_fault hr⟩

/-! ## Every command that runs -/

/-- Every command that runs, in no faulted session, gives an account with the best case of rule R366. -/
theorem accounted_launched (i : Instr) {s : State} (hf : i.isMember = true → s.sessFault = some .ok) :
    Accounted (bestCase i) i.isRaw s (run (launched i s)) := by
  cases i with
  | bitx n => exact accounted_bitx n s
  | start => exact accounted_finish .start s rfl rfl rfl
  | stop => exact accounted_finish .stop s rfl rfl rfl
  | transmit ph b => exact accounted_finish _ s rfl rfl (exactCost_transmitProg ..)
  | send b => exact accounted_finish _ s rfl rfl (exactCost_transmitProg ..)
  | receive n =>
    exact accounted_finish _ s (receiveProg_noGive _ n) (receiveProg_polls _ n) (exactCost_receiveProg ..)
  | startSending => exact accounted_finish _ s rfl rfl (exactCost_startSendingProg ..)
  | sOpen n =>
    exact accounted_sess s rfl rfl (exactCost_startSendingProg ..) fun r t _ => ⟨_, _, _, rfl, rfl⟩
  | sSend b =>
    rw [launched, if_pos (hf rfl)]
    exact accounted_sess s rfl rfl (exactCost_transmitProg ..) fun r t ht =>
      ⟨_, _, _, rfl, by simp [writeAll, SessAssign.write, ht, hf rfl]⟩
  | sSendRepeated c b => exact accounted_repeatLoop c.toNat b (hf rfl)
  | sValid =>
    obtain ⟨t, ht, hm, hr, -, -⟩ := run_sess_account [] none .valid s
    rw [launched, ht]
    exact ⟨.ok, [], _, hr.trans (hf rfl), nofun, hm, fun _ _ => rfl, nofun⟩
  | sReceive n =>
    rw [launched, if_pos (hf rfl)]
    have h := accounted_sess (k := .sReceive) s (receiveProg_noGive s.cfg n) (receiveProg_polls s.cfg n)
      (exactCost_receiveProg ..) fun r t ht =>
        ⟨_, _, _, rfl, by simp [writeAll, SessAssign.write, ht, hf rfl]⟩
    rwa [Nat.add_right_comm] at h
  | sStop =>
    rw [launched, if_pos (hf rfl)]
    exact accounted_sess s rfl rfl rfl fun r t ht =>
      ⟨_, _, _, rfl, by simp [writeAll, SessAssign.write, ht, hf rfl]⟩

/-- A command in a faulted session makes one μSESS, and RESULT repeats the sticky fault. -/
theorem run_launched_faulted {i : Instr} {s : State} (hi : i.isMember = true)
    (hf : s.sessFault ≠ some .ok) : ∃ as, Makes [.sess as] s (run (launched i s)) ∧
      (run (launched i s)).result = s.sessFault := by
  have close : ∀ as g, (writeAll as s).sessFault = s.sessFault →
      launched i s = { s with upc := some (.sess as (.finish none g)) } →
      ∃ as, Makes [.sess as] s (run (launched i s)) ∧ (run (launched i s)).result = s.sessFault := by
    intro as g has e
    obtain ⟨t, ht, hm, hr, -, -⟩ := run_sess_account as none g s
    rw [e, ht]
    exact ⟨as, hm, hr.trans has⟩
  cases i with
  | sSend b => exact close [] .nothing rfl (by rw [launched, if_neg hf])
  | sSendRepeated c b => exact close [] .nothing rfl (repeatLoop_closing b (.inr hf))
  | sValid => exact close [] .valid rfl rfl
  | sReceive n => exact close [.openTo false] .nothing rfl (by rw [launched, if_neg hf])
  | sStop => exact close [.openTo false] .status rfl (by rw [launched, if_neg hf])
  | _ => cases hi

/-- Settles O25: the worst case is the bound at a command's launch; the best case is its account; a faulted
session's command makes one μSESS. -/
theorem microStepCounts : Obligations.MicroStepCounts := by
  refine ⟨fun i s t h => ?_, fun i s t hu ho hp h hr hes => ?_, fun i s t hu ho hi hf h => ?_⟩
  · obtain ⟨-, rfl | ⟨-, -, rfl⟩⟩ := exec_cases h
    · exact Nat.le_add_right ..
    · have hrun := run_microSteps_le (launched i s)
      have hle := engineBudget_launched_le i s
      have hs : (launched i s).microSteps = s.microSteps := by simp [State.microSteps]
      omega
  · rw [exec_launched hu ho hp, Host.Outcome.next.injEq] at h
    subst h
    have hf : i.isMember = true → s.sessFault = some .ok := fun hi => by
      by_contra hf
      obtain ⟨as, -, hres⟩ := run_launched_faulted hi hf
      exact hf (hres.symm.trans hr)
    obtain ⟨r, sess, ks, hr', -, hacc⟩ := accounted_launched i hf
    obtain rfl : r = .ok := Option.some.inj (hr'.symm.trans hr)
    obtain ⟨es, ht, hk⟩ := hes
    rw [hacc.makes.microSteps, hacc.exact rfl (hacc.makes.not_mem ht hk)]
  · rw [exec_launched hu (ho.trans hi.symm) (fun h => by
      rw [isMember_of_continues h.2] at hi; cases hi), Host.Outcome.next.injEq] at h
    subst h
    obtain ⟨as, hm, -⟩ := run_launched_faulted hi hf
    exact hm.microSteps

/-! ## Time-outs (`41_bit_transfer.md` rule R172) -/

/-- A command that times out: POLLK, SCL_DRV, and the engine's last events. -/
theorem timedOut_events {i : Instr} {s t : State} (hu : s.upc = none) (ho : s.sessOpen = i.isMember)
    (hp : ¬ (s.phase = .error ∧ i.continues = true)) (hf : i.isMember = true → s.sessFault = some .ok)
    (h : exec i s = .next t) (hr : t.result = some .clockHighTimeout) :
    t.pollk = pollBound s.cfg ∧ t.sclDrv = .rel ∧
    ∃ es sess before, t.trace = es ++ s.trace ∧ (i.isRaw = true → sess = []) ∧
      engineKinds es = sess.map EventKind.sess ++
        (List.replicate (pollBound s.cfg) (.readScl false) ++ .sclRel :: before) := by
  rw [exec_launched hu ho hp, Host.Outcome.next.injEq] at h
  subst h
  obtain ⟨r, sess, ks, hr', hraw, hacc⟩ := accounted_launched i hf
  obtain rfl : r = .clockHighTimeout := Option.some.inj (hr'.symm.trans hr)
  obtain ⟨hpk, hd, before, hks⟩ := hacc.timedOut rfl
  obtain ⟨es, ht, hes⟩ := hacc.makes
  exact ⟨hpk, hd, es, sess, before, ht, hraw, hes.trans hks⟩

/-- With no POLL_BOUND reads of 0 in a row no command times out. -/
theorem no_timeout_of_tolerated {i : Instr} {s t : State} {es : List Event} (hu : s.upc = none)
    (ho : s.sessOpen = i.isMember) (hp : ¬ (s.phase = .error ∧ i.continues = true))
    (hf : i.isMember = true → s.sessFault = some .ok) (h : exec i s = .next t)
    (ht : t.trace = es ++ s.trace)
    (hno : ¬ List.replicate (pollBound s.cfg) (EventKind.readScl false) <:+: engineKinds es) :
    t.result ≠ some .clockHighTimeout := by
  intro hr
  obtain ⟨-, -, fs, sess, before, hfs, -, hk⟩ := timedOut_events hu ho hp hf h hr
  obtain rfl : fs = es := List.append_cancel_right (hfs.symm.trans ht)
  exact hno ⟨sess.map EventKind.sess, .sclRel :: before, by rw [hk, List.append_assoc]⟩

end Sys2Proof.Machine
end

section
/-! PROOFS. Stretched and held clocks: a poll whose reads give 0 while another device holds SCL low, and what
START, STOP, BITX and the other raw commands make of it. -/

namespace Sys2Proof.Machine

/-! ## A poll while SCL is held low (`41_bit_transfer.md` rule R172) -/

/-- The state after `k` reads of 0, with the moves `ms` of the Peer to come. -/
def stalled (k : Nat) (ms : List PeerMove) (s : State) : State :=
  { s with
    pollk := s.pollk + k
    peer := ms
    trace := List.replicate k ⟨.readScl false, false, s.sda⟩ ++ s.trace }

@[simp] theorem stalled_cfg (k : Nat) (ms : List PeerMove) (s : State) :
    (stalled k ms s).cfg = s.cfg := rfl
@[simp] theorem stalled_pollk (k : Nat) (ms : List PeerMove) (s : State) :
    (stalled k ms s).pollk = s.pollk + k := rfl
@[simp] theorem stalled_peer (k : Nat) (ms : List PeerMove) (s : State) :
    (stalled k ms s).peer = ms := rfl

theorem stalled_zero {s : State} {ms : List PeerMove} (h : Lets 0 s.peer ms) : stalled 0 ms s = s := by
  have hp : s.peer = ms := by
    rcases h with h | ⟨h, rfl⟩
    · exact h
    · exact h
  subst hp
  rfl

theorem stalled_stalled (k j : Nat) (qs ms : List PeerMove) (s : State) :
    stalled j ms (stalled k qs s) = stalled (k + j) ms s := by
  have e : stalled j ms (stalled k qs s) = { s with
      pollk := s.pollk + k + j
      peer := ms
      trace := List.replicate j ⟨.readScl false, false, s.sda⟩ ++
        (List.replicate k ⟨.readScl false, false, s.sda⟩ ++ s.trace) } := rfl
  rw [e, ← List.append_assoc, List.replicate_append_replicate, Nat.add_assoc, Nat.add_comm j k]
  rfl

/-- A read of 0. -/
theorem made_readScl_low {s : State} (h : s.scl = false) (ms : List PeerMove) :
    made .readScl ms s = stalled 1 ms s := by
  have hw : (MicroOp.write .readScl s).scl = false := h
  rw [made, commit_of_low h hw]
  simp only [MicroOp.write, MicroOp.event, h, stalled]
  rfl

/-- A poll that makes `k` reads of 0 and has reads left is the same poll after them. -/
theorem run_stalled (k : Nat) {s : State} {ms : List PeerMove} (h : s.scl = false)
    (hl : Lets k s.peer ms) (hb : s.pollk + k < pollBound s.cfg) (c : Kont) (rest : List Work) :
    run (proceed c (plain .readScl :: rest) none s) =
      run (proceed c (plain .readScl :: rest) none (stalled k ms s)) := by
  induction k generalizing s with
  | zero => rw [stalled_zero hl]
  | succ k ih =>
    obtain ⟨qs, l1, l2⟩ := Lets.split (n := 1) (m := k) (Nat.add_comm k 1 ▸ hl)
    have hf : MicroOp.flow .readScl s = .again [plain .readScl] := by
      simp only [MicroOp.flow, h]
      rw [if_neg nofun, if_neg (by omega)]
    have hu : run (proceed c (plain .readScl :: rest) none s) =
        run (proceed c (plain .readScl :: rest) none (stalled 1 qs s)) := by
      rw [run_proceed_lets c _ rest l1, afterOp]
      simp only [plain, flow_setPeer, hf, commit_op_setPeer]
      rw [← made_readScl_low h]
      rfl
    rw [hu, ih (s := stalled 1 qs s) h l2 (by rw [stalled_pollk, stalled_cfg]; omega), stalled_stalled,
      Nat.add_comm 1 k]

/-- From `s` the micro-steps `ws` end their operation with a time-out in state `t`. -/
def TimesOut (ws : List Work) (s t : State) : Prop := ∀ (k : Kont) (rest : List Work),
  run (proceed k (ws ++ rest) none s) = run (returnOp k .clockHighTimeout none t)

theorem TimesOut.append {xs : List Work} {s t : State} (h : TimesOut xs s t) (ys : List Work) :
    TimesOut (xs ++ ys) s t := fun k rest => by rw [List.append_assoc, h]

theorem Goes.timesOut {xs ys : List Work} {s t u : State} (h : Goes xs s t) (h' : TimesOut ys t u) :
    TimesOut (xs ++ ys) s u := fun k rest => by rw [List.append_assoc, h, h']

theorem TimesOut.returns {ws : List Work} {s t : State} (h : TimesOut ws s t) :
    Returns ws s .clockHighTimeout t := fun k => List.append_nil ws ▸ h k []

/-- Another device holds SCL low, and no Peer step is to come. -/
structure State.HeldLow (s : State) : Prop where
  quiet : s.peer = []
  held : s.peerSclLow = true

theorem State.HeldLow.scl {s : State} (h : s.HeldLow) : s.scl = false := by
  simp [State.scl, h.held]

theorem State.HeldLow.made {s : State} (h : s.HeldLow) (op : MicroOp) : (made op [] s).HeldLow :=
  ⟨rfl, (opWrite_peerSclLow op s).trans h.held⟩

theorem State.HeldLow.goes {s : State} (h : s.HeldLow) {op : MicroOp} (hf : op.flow s = .next none) :
    Goes [plain op] s (Machine.made op [] s) := goes_op (by rw [h.quiet]; exact .silent 1) hf

/-- The state after a poll that a held clock makes time out, from before its μSCL_REL. -/
def timedOutFrom (s : State) : State := stalled (pollBound s.cfg) [] (made .sclRel [] s)

/-- The last read of a poll. -/
theorem timesOut_last {s : State} (h : s.HeldLow) (hb : s.pollk + 1 = pollBound s.cfg) :
    TimesOut [plain .readScl] s (stalled 1 [] s) := fun k rest => by
  have hf : MicroOp.flow .readScl s = .stop .clockHighTimeout := by
    simp only [MicroOp.flow, h.scl]
    rw [if_neg nofun, if_pos (by omega)]
  rw [List.cons_append, List.nil_append, run_proceed_lets k _ rest (ms := []) (by rw [h.quiet]; exact .silent 1),
    afterOp]
  simp only [plain, flow_setPeer, hf, commit_op_setPeer]
  rw [← made_readScl_low h.scl]
  rfl

theorem timesOut_poll {s : State} (h : s.HeldLow) :
    TimesOut [plain .sclRel, plain .readScl] s (timedOutFrom s) := by
  obtain ⟨p, hp⟩ : ∃ p, pollBound s.cfg = p + 1 := ⟨_, rfl⟩
  have hm := h.made .sclRel
  have hlast := timesOut_last (s := stalled p [] (made .sclRel [] s)) ⟨rfl, hm.held⟩
    (by show 0 + p + 1 = pollBound s.cfg; omega)
  rw [stalled_stalled, ← hp] at hlast
  refine (h.goes (op := .sclRel) rfl).timesOut (ys := [plain .readScl]) fun k rest => ?_
  rw [List.cons_append, List.nil_append, run_stalled p hm.scl (by rw [hm.quiet]; exact .silent p)]
  · exact hlast k rest
  · show 0 + p < pollBound s.cfg
    omega

/-! ## The raw commands under a held clock -/

theorem timesOut_start {s : State} (h : s.HeldLow) (m : Option Phase) :
    TimesOut (startProg m) s (timedOutFrom s) := (timesOut_poll h).append _

theorem timesOut_stop {s : State} (h : s.HeldLow) : ∃ t, TimesOut stopProg s t :=
  ⟨_, (h.goes (op := .sdaForce) rfl).timesOut ((timesOut_poll (h.made _)).append _)⟩

theorem timesOut_bits {s : State} (h : s.HeldLow) (n : BitCount) : ∃ t, TimesOut (bitsProg n) s t :=
  ⟨_, ((h.goes (op := .beginBits n) rfl).cons ((h.made _).goes (op := .wait .preClockHigh) rfl)).timesOut
    ((timesOut_poll ((h.made _).made _)).append _)⟩

theorem timesOut_transmit {s : State} (h : s.HeldLow) {ph : TxPhase} (b : Byte) (m : Option Phase)
    (hc : checkCode (.transmit ph) s = .ok) : ∃ t, TimesOut (transmitProg ph b m) s t := by
  have hf : MicroOp.flow (.check (.transmit ph)) s = .next none := by
    rw [MicroOp.flow, hc]
    rfl
  have h1 := h.made (.check (.transmit ph))
  have h2 := h1.made .sclLow
  obtain ⟨t, ht⟩ := timesOut_bits (h2.made (.stage b)) .eight
  exact ⟨t, ((h.goes hf).cons ((h1.goes (op := .sclLow) rfl).cons (h2.goes (op := .stage b) rfl))).timesOut
    (ht.append _)⟩

/-- A raw command whose operation times out. -/
theorem timesOut_finish {ws : List Work} {s : State} (h : ∃ t, TimesOut ws s t) (op : OpKind) :
    (run (proceed (.finish op) ws none s)).result = some .clockHighTimeout := by
  obtain ⟨t, ht⟩ := h
  rw [ht.returns, run_returnOp_finish]
  rfl

theorem launched_timesOut {i : Instr} {s : State} (h : s.HeldLow) (hi : i.isRaw = true)
    (hc : ∀ ph b, i = .transmit ph b ∨ (i = .send b ∧ ph = .data) → checkCode (.transmit ph) s = .ok) :
    (run (launched i s)).result = some .clockHighTimeout := by
  cases i with
  | bitx n =>
    obtain ⟨t, ht⟩ := timesOut_bits h n
    rw [launched, bitTransferProg_eq]
    exact timesOut_finish ⟨t, ht.append _⟩ _
  | start => exact timesOut_finish ⟨_, timesOut_start h none⟩ _
  | stop => exact timesOut_finish (timesOut_stop h) _
  | transmit ph b => exact timesOut_finish (timesOut_transmit h b none (hc ph b (.inl rfl))) _
  | send b => exact timesOut_finish (timesOut_transmit h b none (hc .data b (.inr ⟨rfl, rfl⟩))) _
  | receive n => exact timesOut_finish ⟨_, (timesOut_start h _).append _⟩ _
  | startSending => exact timesOut_finish ⟨_, (timesOut_start h _).append _⟩ _
  | _ => cases hi

/-- START under a held clock, in full. -/
theorem finish_timedOutFrom {s : State} (h : s.HeldLow) (hu : s.upc = none) (op : OpKind) :
    finish op .clockHighTimeout none (timedOutFrom s) = { s with
      sclDrv := .rel
      pollk := pollBound s.cfg
      phase := .error
      result := some .clockHighTimeout
      value := none
      trace := List.replicate (pollBound s.cfg) ⟨.readScl false, false, s.sda⟩ ++
        ⟨.sclRel, false, s.sda⟩ :: s.trace } := by
  have hrel : made .sclRel [] s = { s with
      sclDrv := .rel, pollk := 0, peer := [], trace := ⟨.sclRel, false, s.sda⟩ :: s.trace } := by
    rw [made, commit_of_low h.scl (by simp [MicroOp.write, State.scl, h.held])]
    rfl
  have hq := h.quiet
  rw [timedOutFrom, hrel]
  simp only [finish, stalled, Nat.zero_add, hu, ← hq]
  rfl

theorem raw_not_member {i : Instr} (h : i.isRaw = true) : i.isMember = false := by
  cases i with
  | sSend | sSendRepeated | sValid | sReceive | sStop => cases h
  | _ => rfl

/-- Settles O36: the account of a command that times out, and the raw commands under a held clock. -/
theorem heldClockTimesOutAfterPollBoundReads : Obligations.HeldClockTimesOutAfterPollBoundReads := by
  refine ⟨fun i s t hu ho hp hf h hr => timedOut_events hu ho hp hf h hr,
    fun i s hu hi ho hp hq hl hc => ⟨_, exec_launched hu (ho.trans (raw_not_member hi).symm) hp,
      launched_timesOut ⟨hq, hl⟩ hi hc⟩, fun s hu ho hq hl => ?_⟩
  rw [exec_start hu ho, (timesOut_start ⟨hq, hl⟩ none).returns, run_returnOp_finish,
    finish_timedOutFrom ⟨hq, hl⟩ hu]

end Sys2Proof.Machine
end

section
/-! PROOFS. A stretch of the clock that is tolerated: the poll goes on when the Peer lets SCL rise, and START, STOP
and BITX complete with OK. -/

namespace Sys2Proof.Machine

/-! ## A stretched poll (`41_bit_transfer.md` rule R172) -/

/-- The state in which the Peer, having held SCL low through `k` reads, has let it rise. -/
def unstretched (k : Nat) (ms : List PeerMove) (s : State) : State :=
  moved (.scl false) ms (stalled k (.scl false :: ms) s)

theorem goes_stretched {k : Nat} {s t : State} {ms : List PeerMove} {rest : List Work}
    (h : s.peerSclLow = true) (hb : s.pollk + k < pollBound s.cfg)
    (hp : s.peer = passes k ++ .scl false :: ms) (ht : Goes (plain .readScl :: rest) (unstretched k ms s) t) :
    Goes (plain .readScl :: rest) s t := fun c tail => by
  have hlow : s.scl = false := by simp [State.scl, h]
  rw [List.cons_append, run_stalled k hlow (.inl hp) hb]
  exact goes_move (m := .scl false) rfl nofun ht c tail

/-- The master has released SCL, no other device holds a line, and the Peer makes no more move. -/
structure State.Risen (s : State) : Prop where
  released : s.sclDrv = .rel
  alone : s.peerSclLow = false
  free : s.peerSdaLow = false
  quiet : s.peer = []

theorem State.Risen.scl {s : State} (h : s.Risen) : s.scl = true := by
  simp [State.scl, State.pullsScl, h.released, h.alone]

/-- A micro-step with no Peer move left. -/
theorem goes_quiet {op : MicroOp} {s : State} (hq : s.peer = []) (hf : op.flow s = .next none) :
    Goes [plain op] s (made op [] s) := goes_op (hq ▸ .silent 1) hf

/-- Start from its poll's last read on, with SDA free. -/
theorem goes_start_risen {s : State} (h : s.Risen) (hs : s.pullsSda = false) :
    ∃ t, Goes [plain .readScl, plain .sdaForce, plain (.wait .preStart), plain .sclLow, plain .sdaUnforce,
      plain (.check .startMade)] s t ∧ t.pollk = s.pollk := by
  have hscl := h.scl
  obtain ⟨hd, hc, hf, hq⟩ := h
  have hmade : (made (.check .startMade) [] (made .sdaUnforce [] (made .sclLow [] (made (.wait .preStart) []
      (made .sdaForce [] (made .readScl [] s)))))).startDet = true := by
    rw [State.pullsSda] at hs
    simp [made, commit, MicroOp.write, State.scl, State.sda, State.pullsScl, State.pullsSda,
      startEdge, hd, hc, hf, hs]
  refine ⟨_, (goes_readScl hscl (hq ▸ .silent 1)).cons ((goes_quiet (op := .sdaForce) rfl rfl).cons
    ((goes_quiet (op := .wait .preStart) rfl rfl).cons ((goes_quiet (op := .sclLow) rfl rfl).cons
      ((goes_quiet (op := .sdaUnforce) rfl rfl).cons (goes_check_startMade hmade (.silent 1)))))), ?_⟩
  simp [stamp, made, MicroOp.write, hscl]

/-- START while the Peer holds SCL low through `k` reads. -/
theorem goes_start_stretched {k : Nat} {s : State} (hl : s.peerSclLow = true) (hf : s.peerSdaLow = false)
    (hs : s.pullsSda = false) (hk : k < pollBound s.cfg) (hp : s.peer = passes (k + 1) ++ [.scl false]) :
    ∃ t, Goes (startProg none) s t ∧ t.pollk = k := by
  have hrel := goes_op (op := .sclRel) (ms := passes k ++ [.scl false]) (.inl hp) rfl
  obtain ⟨t, ht, hpk⟩ := goes_start_risen (s := unstretched k [] (made .sclRel (passes k ++ [.scl false]) s))
    ⟨rfl, rfl, hf, rfl⟩ hs
  exact ⟨t, hrel.cons (goes_stretched hl (by show 0 + k < pollBound s.cfg; omega) rfl ht),
    hpk.trans (Nat.zero_add k)⟩

/-- Stop from its poll's last read on, with the master alone holding SDA low. -/
theorem goes_stop_risen {s : State} (h : s.Risen) (hforce : s.sdaForce = true)
    (hdir : s.sdaDir = .outward) (hmsb : s.shreg.msb = true) :
    ∃ t, Goes [plain .readScl, plain (.wait .preStop), plain .sdaUnforce, plain (.wait .idle),
      plain (.check .stopMade)] s t ∧ t.pollk = s.pollk ∧ t.stopDet = true := by
  have hscl := h.scl
  obtain ⟨hd, hc, hf, hq⟩ := h
  have hmade : (made (.check .stopMade) [] (made (.wait .idle) [] (made .sdaUnforce [] (made (.wait .preStop) []
      (made .readScl [] s))))).stopDet = true := by
    simp [made, commit, MicroOp.write, State.scl, State.sda, State.pullsScl, State.pullsSda,
      stopEdge, hd, hc, hf, hforce, hdir, hmsb]
  refine ⟨_, (goes_readScl hscl (hq ▸ .silent 1)).cons ((goes_quiet (op := .wait .preStop) rfl rfl).cons
    ((goes_quiet (op := .sdaUnforce) rfl rfl).cons ((goes_quiet (op := .wait .idle) rfl rfl).cons
      (goes_check_stopMade hmade (.silent 1))))), ?_, hmade⟩
  simp [made, MicroOp.write, hscl]

/-- STOP while the Peer holds SCL low through `k` reads. -/
theorem goes_stop_stretched {k : Nat} {s : State} (hl : s.peerSclLow = true) (hf : s.peerSdaLow = false)
    (hmsb : s.shreg.msb = true) (hk : k < pollBound s.cfg)
    (hp : s.peer = passes (k + 2) ++ [.scl false]) :
    ∃ t, Goes stopProg s t ∧ t.pollk = k ∧ t.stopDet = true := by
  have hforce := goes_op (op := .sdaForce) (ms := passes (k + 1) ++ [.scl false]) (.inl hp) rfl
  have hrel := goes_op (op := .sclRel) (s := made .sdaForce (passes (k + 1) ++ [.scl false]) s)
    (ms := passes k ++ [.scl false]) (.inl rfl) rfl
  obtain ⟨t, ht, hpk, hstop⟩ := goes_stop_risen (s := unstretched k [] (made .sclRel (passes k ++ [.scl false])
    (made .sdaForce (passes (k + 1) ++ [.scl false]) s))) ⟨rfl, rfl, hf, rfl⟩ rfl rfl hmsb
  exact ⟨t, hforce.cons (hrel.cons (goes_stretched hl (by show 0 + k < pollBound s.cfg; omega) rfl ht)),
    hpk.trans (Nat.zero_add k), hstop⟩

/-! ## Stretched pulses (`41_bit_transfer.md` rule R173) -/

/-- A micro-step that the Peer lets be made. -/
theorem goes_pass {op : MicroOp} {s : State} {ms : List PeerMove} (hp : s.peer = .pass :: ms)
    (hf : op.flow s = .next none) : Goes [plain op] s (made op ms s) := goes_op (.inl hp) hf

/-- The end of a pulse from its poll's last read on. -/
theorem goes_pulse_risen {s : State} {ms : List PeerMove} (hscl : s.scl = true)
    (hp : s.peer = passes 4 ++ ms) : ∃ t,
    Goes [plain .readScl, plain (.wait .postClockHigh), plain .sclLow] s t ∧ t.pollk = s.pollk ∧
      t.cnt = s.cnt ∧ t.cfg = s.cfg ∧ t.phase = s.phase ∧ t.peer = .pass :: ms := by
  refine ⟨_, (goes_readScl (ms := passes 3 ++ ms) hscl (.inl hp)).cons
    ((goes_pass (op := .wait .postClockHigh) (ms := passes 2 ++ ms) rfl rfl).cons
      (goes_pass (op := .sclLow) (ms := .pass :: ms) rfl rfl)), ?_, ?_, ?_, ?_, ?_⟩ <;>
  simp [made, MicroOp.write, hscl]

/-- A pulse up to its falling edge that the Peer stretches through `k` reads. -/
theorem goes_stretchedHead {k : Nat} {s : State} {ms : List PeerMove} (hk : k < pollBound s.cfg)
    (hp : s.peer = stretchTurn k ++ ms) : ∃ t, Goes pulseHead s t ∧ t.pollk = k ∧ t.cnt = s.cnt ∧
      t.cfg = s.cfg ∧ t.phase = s.phase ∧ t.peer = .pass :: ms := by
  generalize hqs : PeerMove.scl false :: (passes 4 ++ ms) = qs
  have hturn : s.peer = .scl true :: (passes (k + 2) ++ qs) := by
    rw [hp, stretchTurn, ← hqs]
    simp
  have hwait := goes_pass (op := .wait .preClockHigh) (s := moved (.scl true) (passes (k + 2) ++ qs) s)
    (ms := passes (k + 1) ++ qs) rfl rfl
  have hrel := goes_pass (op := .sclRel) (s := made (.wait .preClockHigh) (passes (k + 1) ++ qs)
    (moved (.scl true) (passes (k + 2) ++ qs) s)) (ms := passes k ++ qs) rfl rfl
  subst hqs
  obtain ⟨t, ht, h1, h2, h3, h4, h5⟩ := goes_pulse_risen (ms := ms) (s := unstretched k (passes 4 ++ ms)
    (made .sclRel (passes k ++ .scl false :: (passes 4 ++ ms)) (made (.wait .preClockHigh)
      (passes (k + 1) ++ .scl false :: (passes 4 ++ ms))
        (moved (.scl true) (passes (k + 2) ++ .scl false :: (passes 4 ++ ms)) s)))) rfl rfl
  exact ⟨t, goes_move hturn nofun (hwait.cons (hrel.cons (goes_stretched rfl
    (by show 0 + k < pollBound s.cfg; omega) rfl ht))), h1.trans (Nat.zero_add k), h2, h3, h4, h5⟩

/-- The pulses still to make, CNT of them, each stretched through fewer than POLL_BOUND reads. -/
theorem goes_pulses_stretched (k : Nat) (ks : List Nat) {s : State} {ms : List PeerMove}
    (hc : s.cnt = ks.length + 1) (hk : ∀ j ∈ k :: ks, j < pollBound s.cfg)
    (hp : s.peer = (k :: ks).flatMap stretchTurn ++ ms) : ∃ t, Goes pulseProg s t ∧
      t.pollk = (k :: ks).getLastD 0 ∧ t.phase = s.phase ∧ t.peer = ms := by
  induction ks generalizing k s with
  | nil =>
    obtain ⟨u, hu, h1, h2, -, h4, h5⟩ := goes_stretchedHead (ms := ms) (hk k (by simp)) (by simpa using hp)
    have hf : MicroOp.flow .shift u = .next none := by
      simp [MicroOp.flow, h2, hc]
    exact ⟨_, hu.append (goes_pass h5 hf), h1, h4, rfl⟩
  | cons j ks ih =>
    obtain ⟨u, hu, h1, h2, h3, h4, h5⟩ := goes_stretchedHead
      (ms := (j :: ks).flatMap stretchTurn ++ ms) (hk k (by simp))
      (by rw [hp, List.flatMap_cons, List.append_assoc])
    have hf : MicroOp.flow .shift u = .again pulseProg := by
      simp [MicroOp.flow, h2, hc]
    obtain ⟨t, ht, hpk, hph, hq⟩ := ih j (s := made .shift ((j :: ks).flatMap stretchTurn ++ ms) u)
      (by simp [made, MicroOp.write, h2, hc])
      (fun i hi => by
        have := hk i (List.mem_cons_of_mem _ hi)
        rwa [← h3] at this) rfl
    exact ⟨t, hu.append (goes_again (.inl h5) hf ht), by simpa using hpk, hph.trans h4, hq⟩

/-- BITX with every one of its pulses stretched. -/
theorem bitx_stretched {n : BitCount} {s : State} {ks : List Nat} (hlen : ks.length = pulses n)
    (hk : ∀ k ∈ ks, k < pollBound s.cfg) (hp : s.peer = .pass :: ks.flatMap stretchTurn) :
    ∃ t, run (proceed (.finish .bitx) (bitTransferProg n .give none) none s) = t ∧
      t.result = some .ok ∧ t.pollk = ks.getLastD 0 ∧ t.phase = s.phase ∧ t.peer = [] := by
  obtain ⟨k, ks, rfl⟩ : ∃ k ks', ks = k :: ks' := by
    cases ks with
    | nil => cases n <;> cases hlen
    | cons k ks => exact ⟨k, ks, rfl⟩
  obtain ⟨t, ht, hpk, hph, hq⟩ := goes_pulses_stretched k ks (ms := [])
    (s := made (.beginBits n) ((k :: ks).flatMap stretchTurn) s) hlen.symm hk (List.append_nil _).symm
  have hbits : Goes (bitsProg n) s (made (.wait .postTransfer) [] t) :=
    (goes_pass hp rfl).cons (ht.append (goes_quiet hq rfl))
  rw [bitTransferProg_eq, hbits, run_preset_give rfl]
  exact ⟨_, rfl, rfl, hpk, hph, rfl⟩

/-- Settles O37: no command times out without a poll of POLL_BOUND reads of 0; and the stretched polls of START,
STOP and BITX go on. -/
theorem stretchWithinPollBoundIsTolerated : Obligations.StretchWithinPollBoundIsTolerated := by
  refine ⟨fun i s t es hu ho hp hf h ht hno => no_timeout_of_tolerated hu ho hp hf h ht hno,
    fun s k hu ho hl hf hs hk hp => ?_, fun s k hu ho hph hl hf hmsb hk hp => ?_,
    fun n s ks hu ho hph hlen hk hp => ?_⟩
  · obtain ⟨t, ht, hpk⟩ := goes_start_stretched hl hf hs hk hp
    exact ⟨finish .start .ok none t, by rw [exec_start hu ho, ht.returns, run_returnOp_finish], rfl, hpk, rfl⟩
  · obtain ⟨t, ht, hpk, hstop⟩ := goes_stop_stretched hl hf hmsb hk hp
    exact ⟨finish .stop .ok none t, by rw [exec_stop hu ho hph, ht.returns, run_returnOp_finish], rfl, hpk,
      rfl, hstop⟩
  · obtain ⟨t, ht, h⟩ := bitx_stretched hlen hk hp
    exact ⟨t, by rw [exec_bitx n hu ho hph, ht], h⟩

end Sys2Proof.Machine
end

section
/-! PROOFS. BITX for every Peer, and the bits that it shifts in from one that never stretches the clock: each is the
SDA level at the rising edge of SCL that its pulse shows on the wire. -/

namespace Sys2Proof.Machine

/-! ## The bits in SHREG (`20_memory.md` rule R83) -/

theorem msbFirst_shiftIn (v : Byte) (b : Bool) : msbFirst (shiftIn v b) = (msbFirst v).drop 1 ++ [b] := by
  simp only [msbFirst, shiftIn_getLsbD]
  rfl

/-- SHREG after shifting in `bs`: its bits and these, but for as many of the first. -/
theorem msbFirst_foldl_shiftIn (bs : List Bool) (v : Byte) :
    msbFirst (bs.foldl shiftIn v) = (msbFirst v ++ bs).drop bs.length := by
  induction bs generalizing v with
  | nil => exact (List.append_nil _).symm
  | cons b bs ih =>
    rw [List.foldl_cons, ih, msbFirst_shiftIn, List.append_assoc, List.length_cons, Nat.add_comm,
      ← List.drop_drop]
    rfl

/-- The last bits of SHREG are those shifted in. -/
theorem drop_msbFirst_foldl_shiftIn {bs : List Bool} {n : Nat} (v : Byte) (h : bs.length = n)
    (hn : n ≤ 8) : (msbFirst (bs.foldl shiftIn v)).drop (8 - n) = bs := by
  rw [msbFirst_foldl_shiftIn, List.drop_drop, h, show n + (8 - n) = (msbFirst v).length from by
    rw [Nat.add_sub_cancel' hn]; rfl, List.drop_left]

/-! ## A micro-step after the turn of a Peer that never stretches the clock -/

/-- Such a Peer's turn, from `s` to `u`. -/
structure Unstretching (s u : State) : Prop where
  master : u.master = s.master
  never : u.neverStretched
  scl : u.scl = s.scl
  latch : u.latch = s.latch
  wire : Carries s.scl s u []

theorem sclAfter_still {scl : Bool} {es : List Event} (h : ∀ e ∈ es, e.scl = scl) :
    sclAfter scl es = scl := by
  induction es with
  | nil => rfl
  | cons e es ih =>
    rw [sclAfter, h e (List.mem_cons_self ..)]
    exact ih fun x hx => h x (List.mem_cons_of_mem _ hx)

theorem unstretching_takeTurn {s : State} (h : s.neverStretched) :
    Unstretching s (takeTurn s.peer s) := by
  obtain ⟨hn, hc, hl, es, ht, he⟩ := takeTurn_neverStretched s.peer s h.1 h.2
  have hr : ∀ e ∈ es.reverse, e.scl = s.scl := fun e hm => (he e (List.mem_reverse.1 hm)).1
  refine ⟨takeTurn_master _ s, hn, hc, hl, es, ht, ?_, (sclAfter_still hr).trans hc.symm⟩
  rw [← List.append_nil es.reverse, riseSamples_append_still hr]
  rfl

/-- A micro-step shows SDA where SCL rises. -/
theorem carries_op (op : MicroOp) (u : State) : Carries u.scl u (commit u (op.write u) (op.event u))
    (if !u.scl && (op.write u).scl then [(op.write u).sda] else []) := by
  refine ⟨[⟨op.event u, (op.write u).scl, (op.write u).sda⟩], congrArg _ (opWrite_trace op u), ?_, rfl⟩
  simp [riseSamples]

theorem neverStretched_op {u : State} (h : u.neverStretched) (op : MicroOp) :
    (commit u (op.write u) (op.event u)).neverStretched :=
  ⟨(opWrite_peerSclLow op u).trans h.1, (opWrite_peer op u).symm ▸ h.2⟩

/-- A micro-step is made after the Peer's turn. -/
theorem goes_turn {op : MicroOp} {s : State} (hf : op.flow (takeTurn s.peer s) = .next none) :
    Goes [plain op] s (commit (takeTurn s.peer s) (op.write (takeTurn s.peer s))
      (op.event (takeTurn s.peer s))) := fun k rest => by
  rw [List.cons_append, List.nil_append, run_proceed_step, afterOp]
  simp only [plain, hf]
  rfl

/-- From `s` to `t` nothing is sampled, and the Peer does not stretch the clock later. -/
structure Unsampled (s t : State) : Prop where
  never : t.neverStretched
  latch : t.latch = s.latch
  wire : Carries s.scl s t []

/-- A micro-step that does not release SCL, once it is made. -/
theorem unsampled_op {op : MicroOp} {s u : State} (h : Unstretching s u)
    (hd : (op.write u).sclDrv = u.sclDrv ∨ (op.write u).sclDrv = .low) :
    Unsampled s (commit u (op.write u) (op.event u)) := by
  have hrise : (!u.scl && (op.write u).scl) = false := by
    rcases hd with hd | hd
    · rw [scl_congr hd (opWrite_peerSclLow op u)]
      cases u.scl <;> rfl
    · simp [State.scl, State.pullsScl, hd]
  have hw := carries_op op u
  rw [hrise, h.scl] at hw
  refine ⟨neverStretched_op h.never op, ?_, h.wire.trans (h.scl ▸ hw)⟩
  rw [commit_latch, hrise, opWrite_latch]
  exact h.latch

/-- A wait. -/
theorem goes_wait_unsampled {s : State} (h : s.neverStretched) (d : DelayName) :
    ∃ t, Goes [plain (.wait d)] s t ∧ Unsampled s t ∧ t.master = s.master :=
  have hu := unstretching_takeTurn h
  ⟨_, goes_turn rfl, unsampled_op (op := .wait d) hu (.inl rfl), hu.master⟩

/-- SCL falls. -/
theorem goes_sclLow_unsampled {s : State} (h : s.neverStretched) :
    ∃ t, Goes [plain .sclLow] s t ∧ Unsampled s t ∧ t.master = { s.master with sclDrv := .low } := by
  have hu := unstretching_takeTurn h
  refine ⟨_, goes_turn rfl, unsampled_op (op := .sclLow) hu (.inr rfl), ?_⟩
  rw [← hu.master]
  rfl

/-- The transfer begins. -/
theorem goes_beginBits_unsampled {s : State} (h : s.neverStretched) (n : BitCount) :
    ∃ t, Goes [plain (.beginBits n)] s t ∧ Unsampled s t ∧ t.master = { s.master with cnt := pulses n } := by
  have hu := unstretching_takeTurn h
  refine ⟨_, goes_turn rfl, unsampled_op (op := .beginBits n) hu (.inl rfl), ?_⟩
  rw [← hu.master]
  rfl

theorem write_readScl_high {u : State} (h : u.scl = true) : MicroOp.write .readScl u = u := by
  simp [MicroOp.write, h]

/-- A poll is high at its first read. -/
theorem goes_readScl_unsampled {s : State} (h : s.neverStretched) (hd : s.sclDrv = .rel) :
    ∃ t, Goes [plain .readScl] s t ∧ Unsampled s t ∧ t.master = s.master := by
  have hu := unstretching_takeTurn h
  have hscl : (takeTurn s.peer s).scl = true := by
    rw [hu.scl, neverStretched_scl h, hd]
    rfl
  refine ⟨_, goes_turn (by simp [MicroOp.flow, hscl]), unsampled_op (op := .readScl) hu (.inl rfl), ?_⟩
  rw [write_readScl_high hscl]
  exact hu.master

/-- What a pulse shifts in without a rising edge: LATCH as it is, when SCL is released on entry (rule R168,
corner case a). -/
def State.unclocked (s : State) : List Bool := if s.sclDrv = .low then [] else [s.latch]

/-- SCL is released: the wire shows one bit if SCL was low, and LATCH holds it. -/
theorem goes_sclRel_sampled {s : State} (h : s.neverStretched) :
    ∃ t bits, Goes [plain .sclRel] s t ∧ t.neverStretched ∧ Carries s.scl s t bits ∧
      s.unclocked ++ bits = [t.latch] ∧ t.master = { s.master with sclDrv := .rel, pollk := 0 } := by
  have hu := unstretching_takeTurn h
  have hg := goes_turn (op := .sclRel) (s := s) rfl
  generalize takeTurn s.peer s = u at hu hg
  have hrel : (MicroOp.write .sclRel u).scl = true := by
    simp [MicroOp.write, State.scl, State.pullsScl, hu.never.1]
  refine ⟨_, _, hg, neverStretched_op hu.never _, hu.wire.trans (carries_op .sclRel u), ?_, ?_⟩
  · rw [List.nil_append, commit_latch, hrel, Bool.and_true, opWrite_latch, hu.latch, hu.scl,
      neverStretched_scl h, State.unclocked]
    cases s.sclDrv <;> rfl
  · rw [← hu.master]
    rfl

theorem Unsampled.trans {s t u : State} (h : Unsampled s t) (h' : Unsampled t u) : Unsampled s u :=
  ⟨h'.never, h'.latch.trans h.latch, h.wire.trans h'.wire⟩

/-- The first pulse's missing bit is the same after what leaves SCL_DRV. -/
theorem Unsampled.unclocked {s t : State} (h : Unsampled s t) (hd : t.sclDrv = s.sclDrv) :
    t.unclocked = s.unclocked := by
  rw [State.unclocked, State.unclocked, hd, h.latch]

/-! ## The pulses (`41_bit_transfer.md` rules R173 and R174) -/

/-- From `s` to `t`, SCL held low at the end, the wire shows the `n` bits that are shifted in, but for what the first
pulse shifts in without a rising edge. -/
structure Shows (n : Nat) (s t : State) (bits : List Bool) : Prop where
  never : t.neverStretched
  low : t.sclDrv = .low
  wire : Carries s.scl s t bits
  length : (s.unclocked ++ bits).length = n
  shreg : t.shreg = (s.unclocked ++ bits).foldl shiftIn s.shreg

/-- A pulse up to its falling edge: LATCH holds the bit. -/
theorem goes_pulseHead_sampled {s : State} (h : s.neverStretched) : ∃ t bits, Goes pulseHead s t ∧
    t.neverStretched ∧ t.sclDrv = .low ∧ Carries s.scl s t bits ∧ s.unclocked ++ bits = [t.latch] ∧
      t.shreg = s.shreg ∧ t.cnt = s.cnt := by
  obtain ⟨t1, g1, h1, m1⟩ := goes_wait_unsampled h .preClockHigh
  obtain ⟨t2, bits, g2, n2, w2, hb, m2⟩ := goes_sclRel_sampled h1.never
  obtain ⟨t3, g3, h3, m3⟩ := goes_readScl_unsampled n2 (drivers_of_master m2).1
  obtain ⟨t4, g4, h4, m4⟩ := goes_wait_unsampled h3.never .postClockHigh
  obtain ⟨t5, g5, h5, m5⟩ := goes_sclLow_unsampled h4.never
  have hend := h3.trans (h4.trans h5)
  have hm : t5.master = { s.master with sclDrv := .low, pollk := 0 } := by
    rw [m5, m4, m3, m2, m1]
  refine ⟨t5, bits, g1.cons (g2.cons (g3.cons (g4.cons g5))), hend.never, (drivers_of_master hm).1, ?_, ?_,
    (drivers_of_master hm).2.2.2, cnt_of_master hm rfl⟩
  · simpa using h1.wire.trans (w2.trans hend.wire)
  · rw [← h1.unclocked (master_sclDrv m1), hb, hend.latch]

/-- A micro-step that puts more in front of what follows, made after the Peer's turn. -/
theorem goes_turn_again {op : MicroOp} {more : List Work} {s t : State}
    (hf : op.flow (takeTurn s.peer s) = .again more)
    (ht : Goes more (commit (takeTurn s.peer s) (op.write (takeTurn s.peer s))
      (op.event (takeTurn s.peer s))) t) : Goes [plain op] s t := fun k rest => by
  rw [List.cons_append, List.nil_append, run_proceed_step, afterOp]
  simp only [plain, hf]
  exact ht k rest

/-- The state after the shift that ends a pulse. -/
def shifted (s : State) : State :=
  commit (takeTurn s.peer s) (MicroOp.write .shift (takeTurn s.peer s)) (MicroOp.event .shift (takeTurn s.peer s))

theorem unsampled_shifted {s : State} (h : s.neverStretched) : Unsampled s (shifted s) :=
  unsampled_op (op := .shift) (unstretching_takeTurn h) (.inl rfl)

theorem shifted_master {s : State} (h : s.neverStretched) : (shifted s).master =
    { s.master with shreg := shiftIn s.shreg s.latch, cnt := s.cnt - 1 } := by
  have hu := unstretching_takeTurn h
  rw [shifted, shift_master, hu.master, hu.latch, master_shreg hu.master, master_cnt hu.master]
  rfl

/-- A pulse up to its shift, and the bit that it shows. -/
theorem goes_pulse_shows {s : State} (h : s.neverStretched) : ∃ u bits, Goes pulseHead s u ∧
    (takeTurn u.peer u).cnt = s.cnt ∧ (shifted u).cnt = s.cnt - 1 ∧ Shows 1 s (shifted u) bits := by
  obtain ⟨u, bits, hu, hn, hl, hw, hb, hs, hc⟩ := goes_pulseHead_sampled h
  have hshift := unsampled_shifted hn
  have hm := shifted_master hn
  obtain ⟨hd, -, -, hr⟩ := drivers_of_master hm
  refine ⟨u, bits, hu, (master_cnt (takeTurn_master u.peer u)).trans hc, ?_, hshift.never, hd.trans hl,
    List.append_nil bits ▸ hw.trans hshift.wire, by rw [hb]; rfl, by rw [hb, hr, ← hs]; rfl⟩
  rw [← hc]
  exact cnt_eq_of_master hm

theorem Shows.trans {n m : Nat} {s t u : State} {xs ys : List Bool} (h : Shows n s t xs) (h' : Shows m t u ys) :
    Shows (n + m) s u (xs ++ ys) := by
  have hc : t.unclocked = [] := if_pos h.low
  have hl := h'.length
  have hs := h'.shreg
  rw [hc, List.nil_append] at hl hs
  refine ⟨h'.never, h'.low, h.wire.trans h'.wire, ?_, ?_⟩
  · rw [← List.append_assoc, List.length_append, h.length, hl]
  · rw [← List.append_assoc, List.foldl_append, ← h.shreg, hs]

/-- The pulses still to make, CNT of them. -/
theorem goes_pulses_shows (c : Nat) {s : State} (h : s.neverStretched) (hc : s.cnt = c + 1) :
    ∃ t bits, Goes pulseProg s t ∧ Shows (c + 1) s t bits := by
  induction c generalizing s with
  | zero =>
    obtain ⟨u, bits, hu, hcu, -, hone⟩ := goes_pulse_shows h
    exact ⟨_, bits, hu.append (goes_turn (by simp [MicroOp.flow, hcu, hc])), hone⟩
  | succ c ih =>
    obtain ⟨u, bits, hu, hcu, hcs, hone⟩ := goes_pulse_shows h
    obtain ⟨t, more, ht, hmore⟩ := ih hone.never (hcs.trans (by rw [hc]; rfl))
    have hf : MicroOp.flow .shift (takeTurn u.peer u) = .again pulseProg := by
      simp [MicroOp.flow, hcu, hc]
    exact ⟨t, bits ++ more, hu.append (goes_turn_again hf ht), Nat.add_comm 1 (c + 1) ▸ hone.trans hmore⟩

/-- `BitTransfer(n)` up to its μPRESET. -/
theorem goes_bits_shows (n : BitCount) {s : State} (h : s.neverStretched) :
    ∃ t bits, Goes (bitsProg n) s t ∧ Shows (pulses n) s t bits := by
  have hp : pulses n = pulses n - 1 + 1 := by cases n <;> rfl
  obtain ⟨t1, g1, h1, m1⟩ := goes_beginBits_unsampled h n
  obtain ⟨t2, bits, g2, h2⟩ := goes_pulses_shows (pulses n - 1) h1.never ((cnt_eq_of_master m1).trans hp)
  obtain ⟨t3, g3, h3, m3⟩ := goes_wait_unsampled h2.never .postTransfer
  obtain ⟨hd, -, -, hr⟩ := drivers_of_master m1
  have hu : t1.unclocked = s.unclocked := h1.unclocked hd
  have hlen := h2.length
  have hsh := h2.shreg
  rw [hu, ← hp] at hlen
  rw [hu, show t1.shreg = s.shreg from hr] at hsh
  refine ⟨t3, bits, g1.cons (g2.append g3), h3.never, (master_sclDrv m3).trans h2.low, ?_, hlen,
    (master_shreg m3).trans hsh⟩
  simpa using h1.wire.trans (h2.wire.trans h3.wire)

/-! ## BITX -/

/-- The events of a Peer that never stretches the clock, and of μPRESET, show no bit. -/
theorem carries_preset {s : State} (h : s.neverStretched) :
    Carries s.scl s (commit (takeTurn s.peer s) (MicroOp.write (.preset .give) (takeTurn s.peer s)) .preset) [] :=
  (unsampled_op (op := .preset .give) (unstretching_takeTurn h) (.inl rfl)).wire

/-- BITX from a Peer that never stretches the clock: OK, with the bits of the wire. -/
theorem bitx_neverStretched (n : BitCount) {s : State} (h : s.neverStretched) : ∃ v es,
    (run (proceed (.finish .bitx) (bitTransferProg n .give none) none s)).result = some .ok ∧
    (run (proceed (.finish .bitx) (bitTransferProg n .give none) none s)).value = some (.byte v) ∧
    (run (proceed (.finish .bitx) (bitTransferProg n .give none) none s)).trace = es ++ s.trace ∧
      (msbFirst v).drop (8 - pulses n) = s.unclocked ++ riseSamples s.scl es.reverse := by
  obtain ⟨t, bits, ht, hs⟩ := goes_bits_shows n h
  obtain ⟨es, he, hb, -⟩ := hs.wire.trans (carries_preset hs.never)
  rw [bitTransferProg_eq, ht, run_preset_give_turn]
  refine ⟨t.shreg, es, rfl, rfl, he, ?_⟩
  rw [hb, List.append_nil, hs.shreg]
  exact drop_msbFirst_foldl_shiftIn _ hs.length (by cases n <;> decide)

/-- Where μPRESET leaves the drivers, CNT and PHASE when all the pulses were made. -/
theorem preset_of_bits {s t u : State} {p : Nat} {sh : Byte} (hu : u.master = t.master)
    (ht : t.master = { s.master with sclDrv := .low, pollk := p, shreg := sh, cnt := 0 }) :
    let x := commit u (MicroOp.write (.preset .give) u) .preset
    x.phase = s.phase ∧ x.shreg = 0xFF ∧ x.sdaDir = .inward ∧ x.sclDrv = .low ∧ x.cnt = 0 := by
  have hm := (preset_master .give u).trans (congrArg
    (fun x : State => { x with shreg := 0xFF, sdaDir := .inward }) (hu.trans ht))
  obtain ⟨hd, -, hi, hr⟩ := drivers_of_master hm
  exact ⟨phase_of_master hm rfl, hr, hi, hd, cnt_eq_of_master hm⟩

/-- Settles O32: by `does_bits` for every Peer; the bits of one that never stretches the clock are those of
`bitx_neverStretched`, which has the same VALUE and the same events. -/
theorem bitxOutcomes : Obligations.BitxOutcomes := by
  intro n s hu ho hp
  have hx := exec_bitx n hu ho hp
  obtain ⟨-, -, -, ⟨es, he⟩, -⟩ := commandsKeepConfigAndHistory _ _ _ hx
  have hwire := bitx_neverStretched n (s := s)
  refine ⟨_, es, hx, ?_⟩
  rw [bitTransferProg_eq] at he hwire ⊢
  rcases does_bits n s with ⟨t, ⟨p, sh, hsh, ht⟩, e⟩ | ⟨r, t, ⟨rfl, p, sh, c, h1, hc, hsh, ht⟩, e⟩
  · rw [e, run_preset_give_turn] at he hwire ⊢
    obtain ⟨hph, hr, hi, hd, hc⟩ := preset_of_bits (takeTurn_master t.peer t) ht
    refine ⟨rfl, he, .inl ⟨rfl, hph, hr, hi, hd, hc, t.shreg, rfl, ?_, ?_⟩⟩
    · rintro rfl
      rw [show t.shreg = sh from (drivers_of_master ht).2.2.2]
      exact hsh
    · intro hn
      obtain ⟨v, es', -, hv, he', hbits⟩ := hwire hn
      obtain rfl : t.shreg = v := by simpa using hv
      obtain rfl := List.append_cancel_right (he.symm.trans he')
      exact hbits
  · rw [e, run_returnOp_finish] at he hwire ⊢
    obtain ⟨hd, -, hi, hr⟩ := drivers_of_master ht
    obtain rfl : t.cnt = c := cnt_eq_of_master ht
    refine ⟨rfl, he, .inr ⟨fun hn => ?_, rfl, rfl, rfl, hd, hi, h1, hc, ?_⟩⟩
    · obtain ⟨-, -, hok, -⟩ := hwire hn
      cases hok
    · exact (hr : t.shreg = sh) ▸ hsh

end Sys2Proof.Machine
end

section
/-! PROOFS. START and STOP: their results and drivers for every Peer, and their flags and events when the Peer
makes no move. -/

namespace Sys2Proof.Machine

/-! ## Operations with no Peer move left -/

/-- An operation that returns has one code to return, and one value of each flag to leave. -/
theorem Returns.flags_unique {ws : List Work} {s t t' : State} {r r' : FaultCode} (h : Returns ws s r t)
    (h' : Returns ws s r' t') : r = r' ∧ t.startDet = t'.startDet ∧ t.stopDet = t'.stopDet := by
  have e : finish .start r none t = finish .start r' none t' := by
    rw [← run_returnOp_finish, ← run_returnOp_finish, ← h, ← h']
  have hr := congrArg State.result e
  have hstart := congrArg State.startDet e
  have hstop := congrArg State.stopDet e
  exact ⟨Option.some.inj hr, hstart, hstop⟩

/-- Micro-steps that go on, and then the rest of the operation, which returns. -/
theorem Goes.append_returns {xs ys : List Work} {s t u : State} {r : FaultCode} (h : Goes xs s t)
    (h' : Returns ys t r u) : Returns (xs ++ ys) s r u := fun k => by rw [h, h']

/-- A μCHECK that ends its operation returns its code. -/
theorem returns_check_quiet (c : Check) {s : State} (hq : s.peer = []) :
    Returns [plain (.check c)] s (checkCode c s) (made (.check c) [] s) := by
  by_cases hc : checkCode c s = .ok
  · have hf : MicroOp.flow (.check c) s = .next none := by simp [MicroOp.flow, Flow.ofCode, hc]
    rw [hc]
    exact (goes_quiet hq hf).returns
  · have hf : MicroOp.flow (.check c) s = .stop (checkCode c s) := by simp [MicroOp.flow, Flow.ofCode, hc]
    intro k
    rw [run_proceed_lets k _ [] (ms := []) (hq ▸ .silent 1), afterOp]
    simp only [plain, flow_setPeer, hf, commit_op_setPeer]
    rfl

/-- A micro-step leaves STOP_DET when it does not write it and raises no SDA under a high SCL. -/
theorem made_stopDet {op : MicroOp} {s : State} (hw : (op.write s).stopDet = s.stopDet)
    (he : s.scl = false ∨ (op.write s).sda = s.sda ∨ (op.write s).sda = false) :
    (made op [] s).stopDet = s.stopDet := by
  show ((op.write s).stopDet || stopEdge s.scl s.sda (op.write s).scl (op.write s).sda) = s.stopDet
  rw [hw]
  rcases he with h | h | h
  · simp [h, stopEdge]
  · simp [h, stopEdge_still]
  · simp [h, stopEdge]

/-- The state before Start's check, when no other device holds SCL and the Peer makes no move. -/
def startReached (s : State) : State :=
  made .sdaUnforce [] (made .sclLow [] (made (.wait .preStart) [] (made .sdaForce []
    (made .readScl [] (made .sclRel [] s)))))

/-- `Start()` with no Peer step and SCL free (`42_conditions.md` rule R200). -/
theorem returns_start_unheld {s : State} (hq : s.peer = []) (hl : s.peerSclLow = false) :
    Returns (startProg none) s (checkCode .startMade (startReached s))
      (made (.check .startMade) [] (startReached s)) := by
  have hhigh : (made .sclRel [] s).scl = true := by
    simp [made, MicroOp.write, State.scl, State.pullsScl, hl]
  have h : Goes [plain .sclRel, plain .readScl, plain .sdaForce, plain (.wait .preStart), plain .sclLow,
      plain .sdaUnforce] s (startReached s) :=
    (goes_quiet hq rfl).cons ((goes_readScl hhigh (.silent 1)).cons ((goes_quiet rfl rfl).cons
      ((goes_quiet rfl rfl).cons ((goes_quiet rfl rfl).cons (goes_quiet rfl rfl)))))
  exact h.append_returns (returns_check_quiet .startMade rfl)

/-- SDA is released only after SCL has fallen. -/
theorem startReached_stopDet (s : State) : (startReached s).stopDet = s.stopDet :=
  have same {op : MicroOp} {t : State} (hw : (op.write t).stopDet = t.stopDet)
    (hd : (op.write t).sda = t.sda) : (made op [] t).stopDet = t.stopDet := made_stopDet hw (.inr (.inl hd))
  have forced {t : State} : (made .sdaForce [] t).stopDet = t.stopDet := made_stopDet rfl (.inr (.inr rfl))
  have released {t : State} (hl : t.scl = false) : (made .sdaUnforce [] t).stopDet = t.stopDet :=
    made_stopDet rfl (.inl hl)
  (released rfl).trans <| (same rfl rfl).trans <| (same rfl rfl).trans <| forced.trans <|
    (same rfl rfl).trans (same rfl rfl)

/-- `Start()` with no Peer step leaves STOP_DET, and a time-out leaves START_DET (rules R200 and R201). -/
theorem start_flags_quiet {s : State} (hq : s.peer = []) : ∃ r t, Returns (startProg none) s r t ∧
    t.stopDet = s.stopDet ∧ (r = .clockHighTimeout → t.startDet = s.startDet) := by
  cases hl : s.peerSclLow with
  | true =>
    refine ⟨_, _, (timesOut_start ⟨hq, hl⟩ none).returns, ?_, fun _ => ?_⟩ <;>
    simp [timedOutFrom, stalled, made, commit, MicroOp.write, startEdge, stopEdge, State.scl, hl]
  | false =>
    refine ⟨_, _, returns_start_unheld hq hl, ?_, fun h => ?_⟩
    · rw [made_check]
      exact startReached_stopDet s
    · simp only [checkCode] at h
      split at h <;> cases h

/-- The state before Stop's check, when no other device holds SCL and the Peer makes no move. -/
def stopReached (s : State) : State :=
  made (.wait .idle) [] (made .sdaUnforce [] (made (.wait .preStop) [] (made .readScl []
    (made .sclRel [] (made .sdaForce [] s)))))

/-- `Stop()` with no Peer step and SCL free (`42_conditions.md` rule R205). -/
theorem returns_stop_unheld {s : State} (hq : s.peer = []) (hl : s.peerSclLow = false) :
    Returns stopProg s (checkCode .stopMade (stopReached s))
      (made (.check .stopMade) [] (stopReached s)) := by
  have hhigh : (made .sclRel [] (made .sdaForce [] s)).scl = true := by
    simp [made, MicroOp.write, State.scl, State.pullsScl, hl]
  have h : Goes [plain .sdaForce, plain .sclRel, plain .readScl, plain (.wait .preStop),
      plain .sdaUnforce, plain (.wait .idle)] s (stopReached s) :=
    (goes_quiet hq rfl).cons ((goes_quiet rfl rfl).cons ((goes_readScl hhigh (.silent 1)).cons
      ((goes_quiet rfl rfl).cons ((goes_quiet rfl rfl).cons (goes_quiet rfl rfl)))))
  exact h.append_returns (returns_check_quiet .stopMade rfl)

/-- `Stop()` with no Peer step sets START_DET when its first micro-step pulls SDA low while both lines are high
(rule R205, corner case a). -/
theorem stop_startDet_quiet {s : State} (hq : s.peer = []) : ∃ r t, Returns stopProg s r t ∧
    t.startDet = (s.startDet || (s.scl && s.sda)) := by
  cases hl : s.peerSclLow with
  | true =>
    have h : s.HeldLow := ⟨hq, hl⟩
    refine ⟨_, _, ((h.goes (op := .sdaForce) rfl).timesOut
      ((timesOut_poll (h.made _)).append _)).returns, ?_⟩
    simp [timedOutFrom, stalled, made, commit, MicroOp.write, startEdge, State.scl, hl]
  | false =>
    refine ⟨_, _, returns_stop_unheld hq hl, ?_⟩
    rw [made_check]
    simp [stopReached, made, commit, MicroOp.write, startEdge, State.scl, State.sda, State.pullsScl,
      State.pullsSda, hl]

/-! ## START (`42_conditions.md` rules R200 and R201) -/

/-- How `Start()` from `s` ends, for every Peer: it returns `r` in state `t`. -/
structure StartEnds (s : State) (r : FaultCode) (t : State) : Prop where
  shreg : t.shreg = s.shreg
  cnt : t.cnt = s.cnt
  outcome :
    ((r = .ok ∧ t.startDet = true ∨ r = .missingStart ∧ t.startDet = false) ∧
      t.sclDrv = .low ∧ t.sdaForce = false ∧ t.sdaDir = .outward) ∨
    (r = .clockHighTimeout ∧ t.sclDrv = .rel ∧ t.sdaForce = s.sdaForce ∧ t.sdaDir = s.sdaDir)

theorem returns_startEnds (s : State) : ∃ r t, Returns (startProg none) s r t ∧ StartEnds s r t := by
  refine (does_start none s).returns ?_ ?_
  · rintro t ⟨hd, p, ht⟩
    obtain ⟨hscl, hforce, hdir, hsh⟩ := drivers_of_master ht
    exact ⟨hsh, cnt_of_master ht rfl, .inl ⟨.inl ⟨rfl, hd⟩, hscl, hforce, hdir⟩⟩
  · rintro r t (⟨rfl, p, ht⟩ | ⟨rfl, hd, p, ht⟩)
    · obtain ⟨hscl, hforce, hdir, hsh⟩ := drivers_of_master ht
      exact ⟨hsh, cnt_of_master ht rfl, .inr ⟨rfl, hscl, hforce, hdir⟩⟩
    · obtain ⟨hscl, hforce, hdir, hsh⟩ := drivers_of_master ht
      exact ⟨hsh, cnt_of_master ht rfl, .inl ⟨.inr ⟨rfl, hd⟩, hscl, hforce, hdir⟩⟩

/-- Settles O34: what `Start()` returns and leaves for every Peer, and its flags with no Peer step. -/
theorem startOutcomes : Obligations.StartOutcomes := by
  intro s hu ho
  obtain ⟨r, t, hr, hsh, hcnt, hout⟩ := returns_startEnds s
  have hflags : s.peer = [] →
      t.stopDet = s.stopDet ∧ (r = .clockHighTimeout → t.startDet = s.startDet) := by
    intro hq
    obtain ⟨r', t', hr', hstop, hstart⟩ := start_flags_quiet hq
    obtain ⟨rfl, hd1, hd2⟩ := hr.flags_unique hr'
    exact ⟨hd2.trans hstop, fun h => hd1.trans (hstart h)⟩
  refine ⟨finish .start r none t, by rw [exec_start hu ho, hr, run_returnOp_finish], rfl, rfl, hsh, hcnt,
    fun hq => (hflags hq).1, ?_⟩
  rcases hout with ⟨⟨rfl, hd⟩ | ⟨rfl, hd⟩, hscl, hforce, hdir⟩ | ⟨rfl, hscl, hforce, hdir⟩
  · exact .inl ⟨rfl, rfl, hscl, hforce, hdir, hd⟩
  · exact .inr (.inl ⟨rfl, rfl, hscl, hforce, hdir, hd⟩)
  · exact .inr (.inr ⟨rfl, rfl, hscl, hforce, hdir, fun hq => (hflags hq).2 rfl⟩)

/-- Settles O35: Start's seven micro-steps on a free bus, with no Peer move left. -/
theorem startOnAFreeBus : Obligations.StartOnAFreeBus := by
  intro s hu ho hq hb
  rw [exec_start hu ho, (goes_start none hb (ms := []) (hq ▸ .silent 7)).returns, run_returnOp_finish]
  simp only [finish, stamp, startMadeFrom, hu, hq]
  rfl

/-! ## STOP (`42_conditions.md` rules R205 and R206) -/

/-- How `Stop()` from `s` ends, for every Peer: it returns `r` in state `t`. -/
structure StopEnds (s : State) (r : FaultCode) (t : State) : Prop where
  kept : t.kept = s.kept
  shreg : t.shreg = s.shreg
  cnt : t.cnt = s.cnt
  released : t.sclDrv = .rel
  outward : t.sdaDir = .outward
  outcome :
    (r = .ok ∧ t.sdaForce = false ∧ t.stopDet = true) ∨
    (r = .missingStop ∧ t.sdaForce = false ∧ t.stopDet = false) ∨
    (r = .clockHighTimeout ∧ t.sdaForce = true)

theorem returns_stopEnds (s : State) : ∃ r t, Returns stopProg s r t ∧ StopEnds s r t := by
  refine (does_stop s).returns ?_ ?_
  · rintro t ⟨hd, p, ht⟩
    obtain ⟨hscl, hforce, hdir, hsh⟩ := drivers_of_master ht
    exact ⟨kept_of_master ht rfl, hsh, cnt_of_master ht rfl, hscl, hdir, .inl ⟨rfl, hforce, hd⟩⟩
  · rintro r t (⟨rfl, p, ht⟩ | ⟨rfl, hd, p, ht⟩)
    · obtain ⟨hscl, hforce, hdir, hsh⟩ := drivers_of_master ht
      exact ⟨kept_of_master ht rfl, hsh, cnt_of_master ht rfl, hscl, hdir, .inr (.inr ⟨rfl, hforce⟩)⟩
    · obtain ⟨hscl, hforce, hdir, hsh⟩ := drivers_of_master ht
      exact ⟨kept_of_master ht rfl, hsh, cnt_of_master ht rfl, hscl, hdir, .inr (.inl ⟨rfl, hforce, hd⟩)⟩

/-- Settles O38: what `Stop()` returns and leaves for every Peer, and START_DET with no Peer step. -/
theorem stopOutcomes : Obligations.StopOutcomes := by
  intro s hu ho hp
  obtain ⟨r, t, hr, -, hsh, hcnt, hscl, hdir, hout⟩ := returns_stopEnds s
  refine ⟨finish .stop r none t, by rw [exec_stop hu ho hp, hr, run_returnOp_finish], rfl, rfl, hsh, hcnt,
    hscl, hdir, fun hq => ?_, ?_⟩
  · obtain ⟨r', t', hr', hd⟩ := stop_startDet_quiet hq
    exact (hr.flags_unique hr').2.1.trans hd
  · rcases hout with ⟨rfl, hforce, hd⟩ | ⟨rfl, hforce, hd⟩ | ⟨rfl, hforce⟩
    · exact .inl ⟨rfl, rfl, hforce, hd⟩
    · exact .inr (.inl ⟨rfl, rfl, hforce, hd⟩)
    · exact .inr (.inr ⟨rfl, rfl, hforce⟩)

/-- Stop's seven micro-steps with SCL held low by the master alone, SDA free and SHREG[7] = 1. -/
theorem made_stop_of_low {s : State} (hlow : s.sclDrv = .low) (halone : s.peerSclLow = false)
    (hfree : s.peerSdaLow = false) (hmsb : s.shreg.msb = true) :
    made (.check .stopMade) [] (stopReached s) = stopMadeFrom [] s := by
  simp [stopReached, made, commit, stopMadeFrom, MicroOp.write, MicroOp.event, State.scl, State.sda,
    State.pullsScl, State.pullsSda, startEdge, stopEdge, delayOf, hlow, halone, hmsb, hfree]

/-- STOP at the end of a transfer, in full. -/
theorem exec_stop_of_low {s : State} (hu : s.upc = none) (ho : s.sessOpen = false)
    (hp : s.phase ≠ .error) (hq : s.peer = []) (hlow : s.sclDrv = .low) (halone : s.peerSclLow = false)
    (hfree : s.peerSdaLow = false) (hmsb : s.shreg.msb = true) :
    exec .stop s = .next (finish .stop .ok none (stopMadeFrom [] s)) := by
  have hmade := made_stop_of_low hlow halone hfree hmsb
  have hcode : checkCode .stopMade (stopReached s) = .ok := by
    have hd : (made (.check .stopMade) [] (stopReached s)).stopDet = true := by rw [hmade]; rfl
    rw [made_check] at hd
    exact if_pos hd
  have hr := returns_stop_unheld hq halone
  rw [hcode, hmade] at hr
  rw [exec_stop hu ho hp, hr, run_returnOp_finish]

/-- Settles O39: Stop's micro-steps at the end of a transfer, and the drivers that they leave. -/
theorem stopReleasesTheBus : Obligations.StopReleasesTheBus := by
  intro s hu ho hp hq hlow halone hfree hmsb
  refine ⟨_, exec_stop_of_low hu ho hp hq hlow halone hfree hmsb, rfl, rfl, rfl, rfl, ?_, ?_, rfl⟩
  · simp [stopMadeFrom, State.scl, State.pullsScl, halone]
  · simp [stopMadeFrom, State.sda, State.pullsSda, hfree, hmsb]

end Sys2Proof.Machine
end

section
/-! PROOFS. S_STOP as STOP followed by one μSESS (`45_session.md` rule R282). -/

namespace Sys2Proof.Machine

/-- S_STOP in a faulted session touches no hardware. -/
theorem sStop_faulted {s : State} {f : FaultCode} {n : Nat} (hu : s.upc = none) (ho : s.sessOpen = true)
    (hs : s.sessFault = some f) (hn : s.sessStep = some n) (hf : f ≠ .ok) :
    ∃ t, exec .sStop s = .next t ∧ t.upc = none ∧ t.sessOpen = false ∧ t.sessStep = some n ∧
      t.sessFault = some f ∧ t.result = some f ∧ t.value = some (.status f n) ∧ t.phase = s.phase ∧
      t.sclDrv = s.sclDrv ∧ t.sdaForce = s.sdaForce ∧ t.sdaDir = s.sdaDir := by
  obtain ⟨u, _, hm, -, -, -, e⟩ := run_sess_after_turn [.openTo false] none .status s
  rw [commit_writeAll] at e
  have hx := exec_sStop_faulted hu ho (by simpa [hs] using hf)
  rw [e] at hx
  have hfu : u.sessFault = some f := (master_sessFault hm).trans hs
  have hnu : u.sessStep = some n := (master_sessStep hm).trans hn
  refine ⟨_, hx, rfl, rfl, hnu, hfu, hfu, ?_, (master_phase hm :), (master_sclDrv hm :),
    (master_sdaForce hm :), (master_sdaDir hm :)⟩
  simp [finishS, SessGive.value, writeAll, SessAssign.write, hfu, hnu]

/-- The end of an S_STOP of a session at step `n` whose operation returned `r`, from the state `u` of its
μSESS. -/
def sStopDone (r : FaultCode) (n : Nat) (u : State) : State :=
  { u with
    sessOpen := false, sessFault := some r, result := some r, value := some (.status r n), upc := none
    phase := nextPhase .stop r u.phase
    trace := ⟨.sess [.openTo false, .foldFault r], u.scl, u.sda⟩ :: u.trace }

/-- S_STOP with no fault yet: what `Stop()` returns, the Peer's turn, and one μSESS. -/
theorem exec_sStop_returns {s t : State} {r : FaultCode} {n : Nat} (hu : s.upc = none)
    (ho : s.sessOpen = true) (hs : s.sessFault = some .ok) (hn : s.sessStep = some n)
    (hk : t.kept = s.kept) (h : Returns stopProg s r t) :
    ∃ u ps, u.master = t.master ∧ u.trace = ps ++ t.trace ∧
      (∀ e ∈ ps, e.kind.byEngine = false) ∧ (t.peer = [] → u = t ∧ ps = []) ∧
      exec .sStop s = .next (sStopDone r n u) ∧ u.sessStep = some n := by
  obtain ⟨u, ps, hm, ht, hp, hq, e⟩ := run_sess_after_turn [.openTo false, .foldFault r]
    (some (.stop, r)) .status t
  obtain ⟨-, -, kf, kn⟩ := registers_of_kept hk
  have hf : u.sessFault = some .ok := (master_sessFault hm).trans (kf.trans hs)
  have hnu : u.sessStep = some n := (master_sessStep hm).trans (kn.trans hn)
  refine ⟨u, ps, hm, ht, hp, hq, ?_, hnu⟩
  rw [exec_sStop_ok hu ho hs, h]
  refine congrArg _ (e.trans ?_)
  rw [commit_writeAll]
  simp [sStopDone, finishS, writeAll, SessAssign.write, SessGive.value, hf, hnu]

/-- STOP from the same state with the session closed, by what `Stop()` returns. -/
theorem exec_stop_closed {s t : State} {r : FaultCode} (hu : s.upc = none) (hp : s.phase ≠ .error)
    (h : Returns stopProg s r t) :
    exec .stop { s with sessOpen := false } = .next ((finish .stop r none t).withOpen false) := by
  rw [exec_stop (s := { s with sessOpen := false }) hu rfl hp]
  exact congrArg _ (h.finish_withOpen .stop false)

/-- Settles O58: with no fault yet S_STOP is STOP and one μSESS; in a faulted session, one μSESS. -/
theorem sStopGivesTheStatus : Obligations.SStopGivesTheStatus := by
  intro s f n hu ho hs hn
  by_cases hf : f = .ok
  · subst hf
    obtain ⟨r, t, hr, hk, -, -, hscl, -, hout⟩ := returns_stopEnds s
    obtain ⟨u, ps, hm, ht, hpeer, hq, hx, hnu⟩ := exec_sStop_returns hu ho hs hn hk hr
    refine ⟨_, r, hx, rfl, rfl, hnu, rfl, rfl, rfl, ?_, fun _ hp y hy => ?_⟩
    · have hd : u.sclDrv = .rel := (master_sclDrv hm).trans hscl
      rcases hout with ⟨rfl, hforce, -⟩ | ⟨rfl, -, -⟩ | ⟨rfl, -⟩
      · exact .inl ⟨rfl, rfl, rfl, hd, (master_sdaForce hm).trans hforce⟩
      · exact .inr (.inl ⟨rfl, by simp, rfl⟩)
      · exact .inr (.inl ⟨rfl, by simp, rfl⟩)
    · rw [exec_stop_closed hu hp hr, Host.Outcome.next.injEq] at hy
      subst hy
      refine ⟨ps, rfl, congrArg (nextPhase .stop r) (master_phase hm :), (master_sclDrv hm :),
        (master_sdaForce hm :), (master_sdaDir hm :), (master_shreg hm :), (master_cnt hm :),
        (master_pollk hm :), (master_rx hm :), hpeer, congrArg _ ht, fun hy => ?_⟩
      obtain ⟨rfl, rfl⟩ := hq hy
      exact ⟨rfl, rfl⟩
  · obtain ⟨t, hx, hupc, hopen, hstep, hfault, hres, hval, hdrivers⟩ := sStop_faulted hu ho hs hn hf
    exact ⟨t, f, hx, hupc, hopen, hstep, hfault, hres, hval, .inr (.inr ⟨hf, rfl, hdrivers⟩),
      fun h => absurd h hf⟩

end Sys2Proof.Machine
end

section
/-! PROOFS. TRANSMIT and SEND when the Peer makes no move: the pre-check that ends them, and the NACK that a silent
Peer leaves on the wire. -/

namespace Sys2Proof.Machine

/-- With no Peer move left, a micro-step whose control stops ends its operation. -/
theorem returns_stop_quiet {w : Work} {rest : List Work} {s : State} {r : FaultCode} (hq : s.peer = [])
    (hf : w.op.flow s = .stop r) : Returns (w :: rest) s r (made w.op [] s) := fun k => by
  rw [run_proceed_lets k w rest (ms := []) (hq ▸ .silent 1), afterOp]
  simp only [flow_setPeer, hf, commit_op_setPeer]
  rfl

/-! ## The pre-checks (`43_byte_engine.md` rules R221 and R222) -/

/-- TRANSMIT's conditions as one chain over both phases. -/
theorem checkCode_transmit_eq (ph : TxPhase) (s : State) : checkCode (.transmit ph) s =
    if ph = .address ∧ s.startDet = false then .missingStart
    else if ph = .data ∧ s.startDet = true then .unexpectedStart
    else if ph = .data ∧ s.stopDet = true then .unexpectedStop
    else if s.shreg.msb ≠ s.sda then .dataCollision
    else .ok := by
  cases ph <;> simp [checkCode, State.coll]

/-- A pre-check that fails ends the transmission in the state of its event. -/
theorem returns_transmit_failed {ph : TxPhase} (b : Byte) {s : State} (hq : s.peer = [])
    (hc : checkCode (.transmit ph) s ≠ .ok) : Returns (transmitProg ph b none) s
      (checkCode (.transmit ph) s) { s with
        peer := [], trace := ⟨.check (.transmit ph), s.scl, s.sda⟩ :: s.trace } := by
  have hf : MicroOp.flow (.check (.transmit ph)) s = .stop (checkCode (.transmit ph) s) := if_neg hc
  rw [transmitProg_eq, ← made_check]
  exact returns_stop_quiet hq hf

/-- Settles O40: the first condition that fails ends the command, and `finish` writes RESULT, VALUE and PHASE. -/
theorem transmitChecksInOrder : Obligations.TransmitChecksInOrder := by
  intro i ph b s r hu ho hp hq hi hr hne
  rw [← checkCode_transmit_eq ph s] at hr
  subst hr
  rw [exec_transmits hu ho hp hi (returns_transmit_failed b hq hne)]
  simp only [finish, nextPhase_of_ne_ok hne, hu, hq]
  rfl

/-! ## The NACK of a silent Peer (`43_byte_engine.md` rule R220, corner case d) -/

/-- The byte is sent and the master lets SDA go, which no other device takes low. -/
theorem goes_release_quiet {s : State} (h : s.Clocking) (hq : s.peer = []) (hfree : s.peerSdaLow = false) :
    ∃ t, Goes [plain (.preset .drop), plain .sdaIn] s t ∧ Transfers s t [] ∧ t.sda = true ∧
      t.peer = [] := by
  have h1 := transfers_made (op := .preset .drop) h [] h.low h.unforced rfl
  have h2 := transfers_made (op := .sdaIn) h1.clocking [] h1.clocking.low h1.clocking.unforced rfl
  refine ⟨_, (goes_quiet hq rfl).cons (goes_quiet rfl rfl), h1.trans h2, ?_, rfl⟩
  rw [sda_of_inward rfl]
  exact congrArg (!·) hfree

/-- BitTransfer of one bit with no Peer move left: it samples SDA as it is. -/
theorem goes_bit_quiet {s : State} (h : s.Clocking) (hq : s.peer = []) :
    ∃ t, Goes (bitsProg .one) s t ∧ Transfers s t [s.sda] ∧ t.noCondition ∧
      t.shreg.getLsbD 0 = s.sda ∧ t.peer = [] := by
  have hb := (transfers_beginBits h .one []).clocking
  have hp := transfers_pulse hb []
  obtain ⟨hgo, htr, hn⟩ := bits_of_pulses h (hq ▸ .silent 1) (goes_pulse_last hb rfl (.silent 6)) hp
    (goes_quiet rfl rfl) (transfers_wait hp.clocking .postTransfer [])
  exact ⟨_, hgo, htr, hn, shiftIn_getLsbD _ _ 0, rfl⟩

/-- A μPRESET that reads 1 returns the NACK of the phase. -/
theorem returns_nack {ph : TxPhase} {m : Option Phase} {s : State} (hq : s.peer = [])
    (hb : s.shreg.getLsbD 0 = true) : Returns [{ op := .preset (.ack ph), mark := m }] s (nackCode ph)
      (made (.preset (.ack ph)) [] s) := by
  refine returns_stop_quiet hq ?_
  show Flow.ofCode (if s.shreg.getLsbD 0 = true then nackCode ph else .ok) = _
  rw [if_pos hb]
  cases ph <;> rfl

/-- `Transmit(b, isAddr)` to a silent Peer, with its pre-checks passing and the bus free. -/
theorem returns_transmit_silent {ph : TxPhase} (b : Byte) {s : State}
    (hcode : checkCode (.transmit ph) s = .ok) (halone : s.peerSclLow = false)
    (hfree : s.peerSdaLow = false) (hforce : s.sdaForce = false) (hq : s.peer = []) :
    ∃ t, Returns (transmitProg ph b none) s (nackCode ph) t ∧ Carries s.scl s t (msbFirst b ++ [true]) ∧
      t.noCondition := by
  obtain ⟨t1, g1, h1, w1, -, -, d1, b1, f1, q1⟩ :=
    goes_stage b (ms := []) hcode halone hforce (hq ▸ .silent 3)
  obtain ⟨t2, g2, h2, -, -, -, f2, q2⟩ :=
    goes_bits_driven .eight (ms := []) h1 d1 (f1.trans hfree) (by rw [q1]; exact .silent _)
  obtain ⟨t3, g3, h3, hsda, q3⟩ := goes_release_quiet h2.clocking q2 f2
  obtain ⟨t4, g4, h4, n4, hlsb, q4⟩ := goes_bit_quiet h3.clocking q3
  have h5 := transfers_made (op := .preset (.ack ph)) h4.clocking [] h4.clocking.low h4.clocking.unforced rfl
  refine ⟨_, ((g1.append g2).append (g3.append g4)).append_returns (returns_nack q4 (hlsb.trans hsda)),
    w1.trans ?_, h5.noCondition n4⟩
  have hw := (h2.trans (h3.trans (h4.trans h5))).wire
  rw [b1, hsda] at hw
  rw [h1.scl]
  exact hw

/-- Settles O43: the byte's pulses carry its bits, and the ACK's pulse the 1 of a line that no device takes low. -/
theorem transmitReadsNackFromASilentPeer : Obligations.TransmitReadsNackFromASilentPeer := by
  intro ph b s hu ho hph halone hfree hforce hchecks hb hq
  obtain ⟨t, hr, ⟨es, he, hbits, -⟩, hstart, hstop⟩ := returns_transmit_silent b
    (checkCode_transmit_ok hb hchecks) halone hfree hforce hq
  refine ⟨finish (.transmit ph) (nackCode ph) none t, es, ?_, ?_, hstart, hstop, he, hbits⟩
  · rw [exec_transmit ph b hu ho hph, hr, run_returnOp_finish]
  · cases ph <;> rfl

end Sys2Proof.Machine
end

section
/-! PROOFS. S_SEND as TRANSMIT data followed by one μSESS (`45_session.md` rule R274). -/

namespace Sys2Proof.Machine

/-- An operation that returns has one code to return, and one value of each driver to leave. -/
theorem Returns.drivers_unique {ws : List Work} {s t t' : State} {r r' : FaultCode} (h : Returns ws s r t)
    (h' : Returns ws s r' t') :
    r = r' ∧ t.sclDrv = t'.sclDrv ∧ t.shreg = t'.shreg ∧ t.sdaDir = t'.sdaDir := by
  have e : finish .start r none t = finish .start r' none t' := by
    rw [← run_returnOp_finish, ← run_returnOp_finish, ← h, ← h']
  have hscl := congrArg State.sclDrv e
  have hshreg := congrArg State.shreg e
  have hdir := congrArg State.sdaDir e
  exact ⟨(h.flags_unique h').1, hscl, hshreg, hdir⟩

/-- How a data send ends, for every Peer. -/
theorem returns_send_ends (b : Byte) (s : State) : ∃ r t, Returns (transmitProg .data b none) s r t ∧
    t.kept = s.kept ∧
    ((r = .ok ∧ t.sclDrv = .low ∧ t.shreg = 0xFF ∧ t.sdaDir = .inward) ∨ r ∈ sendFaults) := by
  obtain ⟨r, t, h, hk, hr, -⟩ := returns_send b s
  refine ⟨r, t, h, hk, ?_⟩
  rcases hr with rfl | hr
  · obtain ⟨r', t', h', -, hends⟩ := returns_transmit_ends .data b s
    obtain ⟨rfl, hscl, hshreg, hdir⟩ := h.drivers_unique h'
    rcases hends with ⟨-, hlow, hff, hin, -⟩ | ⟨hr, -⟩ | ⟨hr, -⟩
    · exact .inl ⟨rfl, hscl.trans hlow, hshreg.trans hff, hdir.trans hin⟩
    · cases hr
    · simp [preCheckCodes] at hr
  · exact .inr hr

/-- The end of an S_SEND of a session at step `n` whose operation returned `r`, from the state `u` of its
μSESS. -/
def sSendDone (r : FaultCode) (n : Nat) (u : State) : State :=
  { u with
    sessOpen := true, sessFault := some r, sessStep := some ((n + 1) % 2 ^ stepWidth u.cfg)
    result := some r, value := none, upc := none
    phase := nextPhase .send r u.phase
    trace := ⟨.sess [.stepUp, .foldFault r], u.scl, u.sda⟩ :: u.trace }

/-- S_SEND with no fault yet: what its operation returns, the Peer's turn, and one μSESS. -/
theorem exec_sSend_returns {b : Byte} {s t : State} {r : FaultCode} {n : Nat} (hu : s.upc = none)
    (ho : s.sessOpen = true) (hs : s.sessFault = some .ok) (hn : s.sessStep = some n)
    (hk : t.kept = s.kept) (h : Returns (transmitProg .data b none) s r t) :
    ∃ u ps, u.master = t.master ∧ u.trace = ps ++ t.trace ∧
      (∀ e ∈ ps, e.kind.byEngine = false) ∧ (t.peer = [] → u = t ∧ ps = []) ∧
      exec (.sSend b) s = .next (sSendDone r n u) := by
  obtain ⟨u, ps, hm, ht, hp, hq, e⟩ := run_sess_after_turn [.stepUp, .foldFault r]
    (some (.send, r)) .nothing t
  obtain ⟨-, ko, kf, kn⟩ := registers_of_kept hk
  have hopen : u.sessOpen = true := (master_sessOpen hm).trans (ko.trans ho)
  have hfault : u.sessFault = some .ok := (master_sessFault hm).trans (kf.trans hs)
  have hstep : u.sessStep = some n := (master_sessStep hm).trans (kn.trans hn)
  refine ⟨u, ps, hm, ht, hp, hq, ?_⟩
  rw [exec_sSend_ok b hu ho hs, h]
  refine congrArg _ (e.trans ?_)
  rw [commit_writeAll]
  simp [sSendDone, finishS, writeAll, SessAssign.write, SessGive.value, stepMod, hopen, hfault, hstep]

/-- TRANSMIT data from the same state with the session closed, by what its operation returns. -/
theorem exec_transmit_closed {b : Byte} {s t : State} {r : FaultCode} (hu : s.upc = none)
    (hp : s.phase ≠ .error) (h : Returns (transmitProg .data b none) s r t) :
    exec (.transmit .data b) { s with sessOpen := false } =
      .next ((finish (.transmit .data) r none t).withOpen false) := by
  rw [exec_transmit .data b (s := { s with sessOpen := false }) hu rfl hp]
  exact congrArg _ (h.finish_withOpen (.transmit .data) false)

/-- Settles O52: S_SEND is TRANSMIT data and one μSESS, in which the step goes up and the code is kept. -/
theorem sSendForwards : Obligations.SSendForwards := by
  intro b s n hu ho hs hn
  obtain ⟨r, t, hr, hk, hout⟩ := returns_send_ends b s
  obtain ⟨u, ps, hm, ht, hpeer, hq, hx⟩ := exec_sSend_returns hu ho hs hn hk hr
  have hcfg : u.cfg = s.cfg := (master_cfg hm).trans (registers_of_kept hk).1
  have hstep : (sSendDone r n u).sessStep = some ((n + 1) % 2 ^ stepWidth s.cfg) := by
    rw [← hcfg]
    rfl
  refine ⟨_, r, hx, rfl, rfl, rfl, hstep, rfl, rfl, ?_, fun y hp hy => ?_⟩
  · rcases hout with ⟨rfl, hlow, hff, hin⟩ | hr
    · exact .inl ⟨rfl, rfl, (master_sclDrv hm).trans hlow, (master_shreg hm).trans hff,
        (master_sdaDir hm).trans hin⟩
    · have hne : r ≠ .ok := by rintro rfl; simp [sendFaults] at hr
      exact .inr ⟨hr, nextPhase_of_ne_ok hne .send u.phase⟩
  · rw [exec_transmit_closed hu hp hr, Host.Outcome.next.injEq] at hy
    subst hy
    refine ⟨ps, rfl, congrArg (nextPhase .send r) (master_phase hm :), (master_sclDrv hm :),
      (master_sdaForce hm :), (master_sdaDir hm :), (master_shreg hm :), (master_cnt hm :),
      (master_pollk hm :), (master_rx hm :), hpeer, congrArg _ ht, fun hy => ?_⟩
    obtain ⟨rfl, rfl⟩ := hq hy
    refine ⟨?_, rfl⟩
    rw [← hcfg]
    rfl

end Sys2Proof.Machine
end

section
/-! PROOFS. START_SENDING's outcomes for every Peer and to a Peer that ACKs, and S_OPEN as START_SENDING followed by
one μSESS. -/

namespace Sys2Proof.Machine

/-! ## START_SENDING (`44_orchestrator.md` rule R255) -/

/-- How `StartSending()` ends, for every Peer: it returns `r` in state `t`. -/
def StartSendingEnds (r : FaultCode) (t : State) : Prop :=
  (r = .ok ∧ t.sclDrv = .low ∧ t.shreg = 0xFF ∧ t.sdaDir = .inward ∧ t.sdaForce = false ∧ t.cnt = 0) ∨
  r ∈ faultsOf .startSending

/-- Start's faults and the address byte's are the row's codes; OK leaves what the address byte leaves, and
SDA_FORCE as Start cleared it. -/
theorem returns_startSending (cfg : Config) (s : State) :
    ∃ r t, Returns (startSendingProg cfg) s r t ∧ StartSendingEnds r t := by
  have hstart : Does (startProg (some .started)) s (fun t => t.sdaForce = false) StartSendingEnds := by
    refine (does_start _ s).imp ?_ ?_
    · rintro t ⟨-, p, ht⟩
      exact (drivers_of_master ht).2.1
    · rintro r t (⟨rfl, -⟩ | ⟨rfl, -⟩) <;> exact .inr (by decide)
  have haddress : ∀ u : State, u.sdaForce = false →
      Does (transmitProg .address (addressPrefix cfg .send) (some .addressSent)) u
        (StartSendingEnds .ok) StartSendingEnds := by
    refine fun u hu => (does_transmit _ _ _ u).imp ?_ ?_
    · rintro t ⟨p, ht⟩
      obtain ⟨hscl, hforce, hdir, hshreg⟩ := drivers_of_master ht
      exact .inl ⟨rfl, hscl, hshreg, hdir, hforce.trans hu, cnt_eq_of_master ht⟩
    · rintro r t (⟨hr, -⟩ | ⟨rfl, -⟩ | ⟨rfl, -⟩)
      · simp only [preCheckCodes, List.mem_cons, List.not_mem_nil, or_false] at hr
        rcases hr with rfl | rfl <;> exact .inr (by decide)
      · exact .inr (by decide)
      · exact .inr (by decide)
  exact (hstart.append haddress).returns (fun _ h => h) fun _ _ h => h

/-- START_SENDING, by what its operation returns. -/
theorem exec_startSending_returns {s t : State} {r : FaultCode} (hu : s.upc = none)
    (ho : s.sessOpen = false) (h : Returns (startSendingProg s.cfg) s r t) :
    exec .startSending s = .next (finish .startSending r none t) := by
  rw [exec_startSending hu ho, h, run_returnOp_finish]

/-- Settles O46: what `StartSending()` returns and leaves, with `finish`'s RESULT, VALUE and PHASE. -/
theorem startSendingOutcomes : Obligations.StartSendingOutcomes := by
  intro s hu ho
  obtain ⟨r, t, hr, hends⟩ := returns_startSending s.cfg s
  refine ⟨_, exec_startSending_returns hu ho hr, rfl, rfl, ?_⟩
  rcases hends with ⟨rfl, hends⟩ | hmem
  · exact .inl ⟨rfl, rfl, hends⟩
  · have hne : r ≠ .ok := fun h => absurd (h ▸ hmem) (by decide)
    exact .inr ⟨nextPhase_of_ne_ok hne .startSending t.phase, r, rfl, hmem⟩

/-- Settles O47: Start on a free bus, and the address byte to a Peer that ACKs. -/
theorem startSendingAddressesTheDevice : Obligations.StartSendingAddressesTheDevice := by
  intro s hu ho hfree hp
  obtain ⟨t, hgoes, ⟨es, htrace, hbits, -⟩, hrested, -, -, hpeer⟩ :=
    goes_address_acked (addressPrefix s.cfg .send) hfree (hp.trans (List.append_nil _).symm)
  obtain ⟨hstart, hstop⟩ := hrested.noCondition
  exact ⟨_, es, exec_startSending_returns hu ho hgoes.returns, rfl, rfl, hstart, hstop, hpeer, htrace, hbits⟩

/-! ## S_OPEN (`45_session.md` rule R272) -/

/-- The end of an S_OPEN at step `n` whose operation returned `r`, from the state `u` of its μSESS. -/
def sOpenDone (r : FaultCode) (n : Nat) (u : State) : State :=
  { u with
    sessOpen := true, sessFault := some r, sessStep := some n, result := some r, value := none, upc := none
    phase := nextPhase .startSending r u.phase
    trace := ⟨.sess [.openTo true, .stepTo n, .faultTo r], u.scl, u.sda⟩ :: u.trace }

/-- S_OPEN: what `StartSending()` returns, the Peer's turn, and one μSESS. -/
theorem exec_sOpen_returns (step0 : Half) {s t : State} {r : FaultCode} (hu : s.upc = none)
    (ho : s.sessOpen = false) (h : Returns (startSendingProg s.cfg) s r t) :
    ∃ u ps, u.master = t.master ∧ u.trace = ps ++ t.trace ∧
      (∀ e ∈ ps, e.kind.byEngine = false) ∧ (t.peer = [] → u = t ∧ ps = []) ∧
      exec (.sOpen step0) s = .next (sOpenDone r (openingStep s.cfg step0) u) := by
  obtain ⟨u, ps, hm, ht, hp, hq, e⟩ := run_sess_after_turn
    [.openTo true, .stepTo (openingStep s.cfg step0), .faultTo r] (some (.startSending, r)) .nothing t
  refine ⟨u, ps, hm, ht, hp, hq, ?_⟩
  rw [commit_writeAll] at e
  rw [exec_sOpen step0 hu ho, h]
  exact congrArg _ e

/-- Settles O51: both commands run `StartSending()`, and S_OPEN's μSESS comes after the Peer's turn. -/
theorem sOpenPerformsStartSending : Obligations.SOpenPerformsStartSending := by
  intro step0 s x y hu ho hx hy
  obtain ⟨r, t, hr, -⟩ := returns_startSending s.cfg s
  obtain ⟨u, ps, hm, ht, hpeer, hq, hx'⟩ := exec_sOpen_returns step0 hu ho hr
  rw [hx, Host.Outcome.next.injEq] at hx'
  rw [exec_startSending_returns hu ho hr, Host.Outcome.next.injEq] at hy
  subst hx' hy
  refine ⟨r, _, ps, rfl, rfl, rfl, rfl, rfl, rfl, congrArg (nextPhase .startSending r) (master_phase hm :),
    (master_sclDrv hm :), (master_sdaForce hm :), (master_sdaDir hm :), (master_shreg hm :),
    (master_cnt hm :), (master_pollk hm :), (master_rx hm :), hpeer, congrArg _ ht, fun hy => ?_⟩
  obtain ⟨rfl, rfl⟩ := hq hy
  exact ⟨rfl, rfl⟩

end Sys2Proof.Machine
end

section
/-! PROOFS. Which commands leave which session registers, and the session invariant after every command. -/

namespace Sys2Proof.Machine

/-! ## The session registers (`45_session.md` rules R271, R278, R280, R282 and R287) -/

/-- `t` has the three session registers of `s`. -/
def SameSession (s t : State) : Prop :=
  t.sessOpen = s.sessOpen ∧ t.sessFault = s.sessFault ∧ t.sessStep = s.sessStep

theorem SameSession.trans {s t u : State} (h : SameSession s t) (h' : SameSession t u) :
    SameSession s u := by
  obtain ⟨ho, hf, hn⟩ := h
  obtain ⟨ho', hf', hn'⟩ := h'
  exact ⟨ho'.trans ho, hf'.trans hf, hn'.trans hn⟩

theorem SameSession.of_master {s t : State} (h : t.master = s.master) : SameSession s t :=
  ⟨master_sessOpen h, master_sessFault h, master_sessStep h⟩

theorem sameSession_peerStep (m : PeerMove) (s : State) : SameSession s (peerStep m s) :=
  .of_master (peerStep_master m s)

/-- Only a μSESS writes a session register: a micro-step of an operation leaves them. -/
theorem sameSession_afterOp (k : Kont) (w : Work) (rest : List Work) (s : State) :
    SameSession s (afterOp k w rest s) := by
  unfold afterOp
  split <;> exact ⟨by simp, by simp, by simp⟩

/-- A raw command has no μSESS. -/
theorem sameSession_engineStep {s : State} (h : runsRaw s.upc = true) : SameSession s (engineStep s) := by
  match hu : s.upc with
  | none => simp [engineStep, hu, SameSession]
  | some (.sess as e) => rw [hu] at h; cases h
  | some (.op w rest k) => rw [engineStep_op hu]; exact sameSession_afterOp k w rest s

/-- A raw command's run leaves the session registers. -/
theorem sameSession_run {s : State} (h : runsRaw s.upc = true) : SameSession s (run s) :=
  (run_induct_agents (P := fun t => runsRaw t.upc = true ∧ SameSession s t) (fun _ _ h => h)
    (fun t _ ⟨hr, hs⟩ => ⟨(engineStep_withOpen hr false).2, hs.trans (sameSession_engineStep hr)⟩)
    (fun t m ⟨hr, hs⟩ => ⟨by rwa [peerStep_upc], hs.trans (sameSession_peerStep m t)⟩)
    ⟨h, rfl, rfl, rfl⟩).2

theorem launched_runsRaw {i : Instr} (hi : i.isRaw = true) (s : State) :
    runsRaw (launched i s).upc = true := by
  cases i with
  | sOpen | sSend | sSendRepeated | sValid | sReceive | sStop => cases hi
  | _ => exact proceed_runsRaw ..

theorem sameSession_launched (i : Instr) (s : State) : SameSession s (launched i s) := by
  obtain ⟨x, e⟩ := launched_eq i s
  rw [e]
  exact ⟨rfl, rfl, rfl⟩

/-- A μSESS that closes its command leaves in the session registers what its assignments write. -/
theorem run_sess_session (as : List SessAssign) (o : Option (OpKind × FaultCode)) (g : SessGive)
    (s : State) : ∃ u, u.master = s.master ∧
      SameSession (writeAll as u) (run { s with upc := some (.sess as (.finish o g)) }) := by
  obtain ⟨u, hu, -, e⟩ := run_sess_finish as o g s
  exact ⟨u, hu, by rw [e]; exact ⟨rfl, rfl, rfl⟩⟩

/-- A μSESS with no assignment leaves the session registers. -/
theorem sameSession_run_sess_nil (g : SessGive) (s : State) :
    SameSession s (run { s with upc := some (.sess [] (.finish none g)) }) := by
  obtain ⟨u, hu, h⟩ := run_sess_session [] none g s
  exact (SameSession.of_master hu).trans h

/-- A μSESS that closes the session leaves SESS_STEP. -/
theorem run_sess_close_sessStep (as : List SessAssign) (has : as = [] ∨ ∃ r, as = [.foldFault r])
    (o : Option (OpKind × FaultCode)) (g : SessGive) (s : State) :
    (run { s with upc := some (.sess (.openTo false :: as) (.finish o g)) }).sessStep = s.sessStep := by
  obtain ⟨u, hu, -, -, hn⟩ := run_sess_session (.openTo false :: as) o g s
  have hw : (writeAll (.openTo false :: as) u).sessStep = u.sessStep := by
    rcases has with rfl | ⟨r, rfl⟩ <;> rfl
  exact hn.trans (hw.trans (master_sessStep hu))

theorem run_sSend_sessOpen (b : Byte) (s : State) : (run (launched (.sSend b) s)).sessOpen = s.sessOpen := by
  rw [launched]
  split
  · obtain ⟨r, t, hr, hk, -⟩ := returns_transmit .data b s
    rw [hr, run_returnOp_sSend_sessOpen]
    exact (registers_of_kept hk).2.1
  · exact (sameSession_run_sess_nil .nothing s).1

theorem run_repeatLoop_sessOpen (n : Nat) (b : Byte) (s : State) :
    (run (repeatLoop n b s)).sessOpen = s.sessOpen := by
  refine run_repeatLoop_induct (P := fun t => t.sessOpen = s.sessOpen) ?_ ?_ n rfl
  · intro v hv _
    obtain ⟨r, t, hr, hk, -⟩ := returns_transmit .data b v
    have ht : t.sessOpen = v.sessOpen := (registers_of_kept hk).2.1
    exact ⟨r, t, hr, fun u hu => (master_sessOpen hu).trans (ht.trans hv)⟩
  · intro v u hv hu
    exact (master_sessOpen hu).trans hv

/-- S_RECEIVE and S_STOP leave SESS_STEP: their operation keeps it, and their μSESS closes the session. -/
theorem run_launched_sessStep {i : Instr} (hi : (∃ n, i = .sReceive n) ∨ i = .sStop) (s : State) :
    (run (launched i s)).sessStep = s.sessStep := by
  rcases hi with ⟨n, rfl⟩ | rfl <;> rw [launched] <;> split
  · obtain ⟨r, t, hr, hk, -⟩ := orderly_receive s.cfg n s
    rw [hr, ← (registers_of_kept hk).2.2.2]
    exact run_sess_close_sessStep _ (.inr ⟨r, rfl⟩) _ _ t
  · exact run_sess_close_sessStep [] (.inl rfl) _ _ s
  · obtain ⟨r, t, hr, hk, -⟩ := orderly_stop s
    rw [hr, ← (registers_of_kept hk).2.2.2]
    exact run_sess_close_sessStep _ (.inr ⟨r, rfl⟩) _ _ t
  · exact run_sess_close_sessStep [] (.inl rfl) _ _ s

/-- Settles O21: a raw command has no μSESS, and a session command's μSESS writes what it lists. -/
theorem sessionRegisterFrame : Obligations.SessionRegisterFrame := by
  intro i s t h
  obtain ⟨-, rfl | ⟨-, -, rfl⟩⟩ := exec_cases h
  · exact ⟨fun _ => ⟨rfl, rfl, rfl⟩, fun _ => rfl, fun _ => rfl⟩
  refine ⟨?_, ?_, fun hi => run_launched_sessStep hi s⟩
  · rintro (hi | rfl)
    · exact (sameSession_launched i s).trans (sameSession_run (launched_runsRaw hi s))
    · exact sameSession_run_sess_nil .valid s
  · rintro (⟨b, rfl⟩ | ⟨c, b, rfl⟩)
    · exact run_sSend_sessOpen b s
    · exact run_repeatLoop_sessOpen c.toNat b s

/-- Settles O29: a command from a state of the invariant ends in one. -/
theorem sessionFaultMatchesPhase : Obligations.SessionFaultMatchesPhase := by
  intro i s t h he ho
  have ht : t.Inv := inv_exec h he
  exact ⟨ht.sessOk ho, ht.sessFaulted ho⟩

end Sys2Proof.Machine
end

section
/-! PROOFS. S_VALID, and a session that has faulted: one μSESS that touches no hardware. -/

namespace Sys2Proof.Machine

/-! ## With no Peer move left -/

/-- With no Peer move left, a μSESS of a command that ran no operation adds its assignments and its event, and
`finishS` ends the command. -/
theorem run_sess_quiet (as : List SessAssign) (g : SessGive) {s : State} (hp : s.peer = []) :
    run { s with upc := some (.sess as (.finish none g)) } =
      finishS none g { writeAll as s with trace := ⟨.sess as, s.scl, s.sda⟩ :: s.trace } := by
  obtain ⟨u, ps, -, -, -, hq, e⟩ := run_sess_after_turn as none g s
  obtain ⟨rfl, -⟩ := hq hp
  rw [e, commit_writeAll]

/-! ## A faulted session (`45_session.md` rules R274, R276, R280, R282 and R286) -/

/-- In a faulted session a send makes one μSESS with no assignment. -/
theorem exec_send_faulted {i : Instr} {s : State}
    (hi : (∃ b, i = .sSend b) ∨ (∃ c b, i = .sSendRepeated c b)) (hu : s.upc = none)
    (ho : s.sessOpen = true) (hf : s.sessFault ≠ some .ok) :
    exec i s = .next (run { s with upc := some (.sess [] (.finish none .nothing)) }) := by
  rcases hi with ⟨b, rfl⟩ | ⟨c, b, rfl⟩
  · exact exec_sSend_faulted b hu ho hf
  · rw [exec_sSendRepeated c b hu ho, repeatLoop_closing b (.inr hf)]

/-- Settles O53: with no Peer move left, the one μSESS is made in the state before the command. -/
theorem faultedSessionTouchesNoHardware : Obligations.FaultedSessionTouchesNoHardware := by
  intro s f n hu ho hs hne hn hp
  have hf : s.sessFault ≠ some .ok := by simpa [hs] using hne
  refine ⟨fun i hi => ?_, fun k => ?_, ?_⟩
  · rw [exec_send_faulted hi hu ho hf, run_sess_quiet [] .nothing hp]
    simp [finishS, SessGive.value, writeAll, hs, hu]
  · rw [exec_sReceive_faulted k hu ho hf, run_sess_quiet [.openTo false] .nothing hp]
    simp [finishS, SessGive.value, writeAll, SessAssign.write, hs, hu]
  · rw [exec_sStop_faulted hu ho hf, run_sess_quiet [.openTo false] .status hp]
    simp [finishS, SessGive.value, writeAll, SessAssign.write, hs, hn, hu]

/-- Settles O54: the one μSESS is made after the Peer's turn, which leaves the master's part of the state. -/
theorem firstFaultWins : Obligations.FirstFaultWins := by
  intro i s f n hu ho hs hne hn hi
  have hf : s.sessFault ≠ some .ok := by simpa [hs] using hne
  have hmem : i.isMember = true := by rcases hi with ⟨b, rfl⟩ | ⟨c, b, rfl⟩ <;> rfl
  have hx := exec_send_faulted hi hu ho hf
  have hcount := microStepCounts.2.2 i s _ hu ho hmem hf hx
  obtain ⟨u, -, hm, -, -, -, e⟩ := run_sess_after_turn [] none .nothing s
  rw [e] at hx hcount
  have hfu : u.sessFault = some f := (master_sessFault hm).trans hs
  exact ⟨_, hx, rfl, hfu, (master_sessOpen hm).trans ho, hfu, (master_sessStep hm).trans hn,
    (master_phase hm :), (master_rx hm :), (master_sclDrv hm :), (master_sdaForce hm :),
    (master_sdaDir hm :), (master_shreg hm :), hcount⟩

/-! ## S_VALID (`45_session.md` rule R278) -/

/-- Settles O56: S_VALID makes one μSESS with no assignment. -/
theorem sValidAnswersTheStickyFault : Obligations.SValidAnswersTheStickyFault := by
  intro s f hu ho hs
  have hx := exec_sValid hu ho
  refine ⟨?_, fun hp => ?_⟩
  · obtain ⟨u, -, hm, -, -, -, e⟩ := run_sess_after_turn [] none .valid s
    rw [e] at hx
    have hfu : u.sessFault = some f := (master_sessFault hm).trans hs
    exact ⟨_, hx, rfl, hfu, by simp [SessGive.value, writeAll, hfu, beq_eq_decide], (master_phase hm :),
      (master_sessOpen hm).trans ho, hfu, (master_sessStep hm :), (master_rx hm :), (master_sclDrv hm :),
      (master_sdaForce hm :), (master_sdaDir hm :), (master_shreg hm :), (master_cnt hm :),
      (master_pollk hm :)⟩
  · rw [hx, run_sess_quiet [] .valid hp]
    simp [finishS, SessGive.value, writeAll, hs, hu, beq_eq_decide]

end Sys2Proof.Machine
end

section
/-! PROOFS. S_OPEN's outcomes for every Peer, and the session commands to a Peer that answers. -/

namespace Sys2Proof.Machine

/-- Settles O50: S_OPEN's μSESS opens the session with the code that `StartSending()` returned. -/
theorem sOpenOutcomes : Obligations.SOpenOutcomes := by
  intro step0 s hu ho
  obtain ⟨r, t, hr, hends⟩ := returns_startSending s.cfg s
  obtain ⟨u, -, hm, -, -, -, hx⟩ := exec_sOpen_returns step0 hu ho hr
  refine ⟨_, r, hx, rfl, rfl, rfl, rfl, rfl, rfl, ?_⟩
  rcases hends with ⟨rfl, hscl, hshreg, hdir, -, -⟩ | hmem
  · exact .inl ⟨rfl, rfl, (master_sclDrv hm).trans hscl, (master_shreg hm).trans hshreg,
      (master_sdaDir hm).trans hdir⟩
  · have hne : r ≠ .ok := fun h => absurd (h ▸ hmem) (by decide)
    exact .inr ⟨hmem, nextPhase_of_ne_ok hne .startSending u.phase⟩

/-! ## To a Peer that answers (`45_session.md` rules R272, R274 and R282) -/

/-- S_OPEN on a free bus, to a Peer that ACKs: the address byte and the ACK are on the wire. -/
theorem sOpen_acked (step0 : Half) {s : State} (hu : s.upc = none) (ho : s.sessOpen = false)
    (hb : s.busFree) (hp : s.peer = ackStart) :
    ∃ u, exec (.sOpen step0) s = .next (sOpenDone .ok (openingStep s.cfg step0) u) ∧
      Carries true s (sOpenDone .ok (openingStep s.cfg step0) u)
        (msbFirst (addressPrefix s.cfg .send) ++ [false]) := by
  obtain ⟨t, hgoes, hwire, -, -, -, hq⟩ :=
    goes_address_acked (addressPrefix s.cfg .send) hb (hp.trans (List.append_nil _).symm)
  obtain ⟨u, _, -, -, -, hquiet, hx⟩ := exec_sOpen_returns step0 hu ho hgoes.returns
  obtain ⟨rfl, -⟩ := hquiet hq
  exact ⟨u, hx, List.append_nil (_ ++ [false]) ▸ hwire.trans (Carries.still rfl rfl)⟩

/-- S_SEND with its pre-checks passing, to a Peer that ACKs: the byte and the ACK are on the wire. -/
theorem sSend_acked (b : Byte) {s : State} {n : Nat} (hu : s.upc = none) (ho : s.sessOpen = true)
    (h : s.ReadyToSend) (hn : s.sessStep = some n) (hp : s.peer = ackTurn) :
    ∃ u, exec (.sSend b) s = .next (sSendDone .ok n u) ∧ u.cfg = s.cfg ∧
      Carries s.scl s (sSendDone .ok n u) (msbFirst b ++ [false]) := by
  obtain ⟨t, hgoes, hwire, -, hk, -, hq⟩ := goes_transmit_acked b none
    (checkCode_transmit_ok h.noCollision (.inr ⟨rfl, h.noCondition⟩)) h.alone h.free h.unforced
    (hp.trans (List.append_nil _).symm)
  obtain ⟨u, _, -, -, -, hquiet, hx⟩ := exec_sSend_returns hu ho h.noFault hn hk hgoes.returns
  obtain ⟨rfl, -⟩ := hquiet hq
  exact ⟨u, hx, (registers_of_kept hk).1,
    List.append_nil (_ ++ [false]) ▸ hwire.trans (Carries.still rfl rfl)⟩

/-- `Stop()` at the end of a transfer returns OK, whichever command runs it. -/
theorem returns_stop_of_low {s : State} (hq : s.peer = []) (hlow : s.sclDrv = .low)
    (halone : s.peerSclLow = false) (hfree : s.peerSdaLow = false) (hmsb : s.shreg.msb = true) :
    Returns stopProg s .ok (stopMadeFrom [] s) := by
  have hmade := made_stop_of_low hlow halone hfree hmsb
  have hdet : (stopReached s).stopDet = true := by
    have hd : (made (.check .stopMade) [] (stopReached s)).stopDet = true := by rw [hmade]; rfl
    rwa [made_check] at hd
  have hcode : checkCode .stopMade (stopReached s) = .ok := if_pos hdet
  exact hcode ▸ hmade ▸ returns_stop_unheld hq halone

/-- S_STOP at the end of a transfer. -/
theorem exec_sStop_of_low {s : State} {n : Nat} (hu : s.upc = none) (ho : s.sessOpen = true)
    (hs : s.sessFault = some .ok) (hn : s.sessStep = some n) (hq : s.peer = []) (hlow : s.sclDrv = .low)
    (halone : s.peerSclLow = false) (hfree : s.peerSdaLow = false) (hmsb : s.shreg.msb = true) :
    exec .sStop s = .next (sStopDone .ok n (stopMadeFrom [] s)) := by
  obtain ⟨u, _, -, -, -, hquiet, hx, -⟩ := exec_sStop_returns hu ho hs hn
    (t := stopMadeFrom [] s) rfl (returns_stop_of_low hq hlow halone hfree hmsb)
  obtain ⟨rfl, -⟩ := hquiet rfl
  exact hx

/-- Settles O59: the address byte and the data byte to a Peer that ACKs, and Stop at the end of a transfer. -/
theorem sessionCommandsCompleteWithOk : Obligations.SessionCommandsCompleteWithOk := by
  refine ⟨fun step0 s hu ho hb hp => ?_, ?_, ?_⟩
  · obtain ⟨u, hx, es, htrace, hbits, -⟩ := sOpen_acked step0 hu ho hb hp
    exact ⟨_, es, hx, rfl, rfl, rfl, rfl, rfl, htrace, hbits⟩
  · intro b s n hu ho hs hn halone hfree hforce hstart hstop hmsb hp
    obtain ⟨u, hx, hcfg, es, htrace, hbits, -⟩ :=
      sSend_acked b hu ho ⟨hs, halone, hfree, hforce, ⟨hstart, hstop⟩, hmsb⟩ hn hp
    exact ⟨_, es, hx, rfl, rfl, by rw [← hcfg]; rfl, rfl, htrace, hbits⟩
  · intro s n hu ho hs hn hq hlow halone hfree hmsb
    refine ⟨_, exec_sStop_of_low hu ho hs hn hq hlow halone hfree hmsb, rfl, rfl, rfl, rfl, rfl, ?_, ?_⟩
    · simp [sStopDone, stopMadeFrom, State.scl, State.pullsScl, halone]
    · simp [sStopDone, stopMadeFrom, State.sda, State.pullsSda, hfree, hmsb]

end Sys2Proof.Machine
end

section
/-! PROOFS. The refusal table, and that no step stops the machine (`60_exceptions.md` rules R300 and R311 to
R315): a command is refused for its row's reason, or launched, and a launched command makes a micro-step. -/

namespace Sys2Proof.Machine

/-! ## A command that runs makes a micro-step -/

/-- A launch has a first micro-step. -/
theorem launched_upc_ne_none (i : Instr) (s : State) : (launched i s).upc ≠ none := by
  cases i with
  | sSend b => rw [launched]; split <;> nofun
  | sReceive n => rw [launched]; split <;> nofun
  | sStop => rw [launched]; split <;> nofun
  | sSendRepeated count b => exact (repeatLoop_returning count.toNat b s none none).2
  | _ => nofun

/-- The engine's step of a running command is one micro-step. -/
theorem makes_engineStep {s : State} (h : s.upc ≠ none) : ∃ k, Makes [k] s (engineStep s) := by
  match hu : s.upc with
  | none => exact absurd hu h
  | some (.sess as e) =>
    have ht : (engineStep s).trace = (commit s (writeAll as s) (.sess as)).trace := by
      simp only [engineStep, hu, sessEnd_trace]
    obtain ⟨es, he, hk⟩ := makes_sess as s
    exact ⟨_, es, ht.trans he, hk⟩
  | some (.op w rest k) =>
    have ht : (engineStep s).trace = (commit s (w.op.write s) (w.op.event s)).trace := by
      rw [engineStep_op hu, afterOp]
      split <;> simp
    obtain ⟨es, he, hk⟩ := makes_op w.op none s
    exact ⟨_, es, ht.trans he, hk⟩

/-- A running command makes at least one micro-step before its end. -/
theorem microSteps_lt_run {s : State} (h : s.upc ≠ none) : s.microSteps < (run s).microSteps := by
  obtain ⟨k, hstep⟩ := makes_engineStep (s := takeTurn s.peer s) (by simpa using h)
  obtain ⟨es, hes⟩ := run_trace (engineStep (takeTurn s.peer s))
  have hrun : Makes (engineKinds es) (engineStep (takeTurn s.peer s)) (run s) :=
    ⟨es, by rw [run_turn h, hes], rfl⟩
  rw [(((makes_takeTurn s.peer s).trans hstep).trans hrun).microSteps]
  simp

/-! ## The words and their reasons -/

/-- A word that no row selects is no command. -/
theorem refuseReason_of_unselected {w : Word} (h : ∀ r ∈ opcodeTable, r.selects w = false) (s : State) :
    refuseReason w s = some .illegalCommand := by
  cases hd : decode w with
  | error e => cases e; simp [refuseReason, hd]
  | ok i =>
    obtain ⟨r, hr, hs⟩ := (wordIsCommandIffOneRowSelectsIt.1 w).1 ⟨i, hd⟩
    rw [h r hr] at hs
    cases hs

/-- A word with a reason is refused. -/
theorem issueWord_refused {w : Word} {s : State} {r : RefuseReason} (hu : s.upc = none)
    (h : refuseReason w s = some r) : issueWord w s = .next (refuse s) := by
  unfold issueWord
  split
  · rfl
  · rename_i i hd
    rw [refuseReason_ok hd] at h
    exact exec_refused hu h

/-- A word with no reason is a command, which its issue executes. -/
theorem issueWord_of_no_reason {w : Word} {s : State} (h : refuseReason w s = none) :
    ∃ i, decode w = .ok i ∧ issueWord w s = exec i s := by
  cases hd : decode w with
  | error e => cases e; simp [refuseReason, hd] at h
  | ok i => exact ⟨i, rfl, by rw [issueWord, hd]⟩

/-- Settles O16: the reason of each row is `refusal_eq`'s, and what has none is launched, which makes a
micro-step. -/
theorem refusalTable : Obligations.RefusalTable := by
  refine ⟨fun i s hu => ?_, fun w s => ⟨fun h => refuseReason_of_unselected h s, fun i h =>
    refuseReason_ok h s⟩, fun s w rest hu hw => ?_⟩
  · have refused : ∀ r, refusal (commandClass i) s = some r →
        refusal (commandClass i) s = some r ∧ exec i s = .next { s with refused := true } :=
      fun r hr => ⟨hr, exec_refused hu hr⟩
    refine ⟨fun ho hm => refused _ ?_, fun ho hp hc => refused _ ?_, fun ho hm => refused _ ?_,
      fun ho hp => ⟨refusal_eq_none ho hp, _, exec_launched hu ho hp, ?_, by simp⟩⟩
    · simp [refusal_eq, ho, hm]
    · simp [refusal_eq, ho, hp, hc, isMember_of_continues hc]
    · simp [refusal_eq, ho, hm]
    · have hlt := microSteps_lt_run (launched_upc_ne_none i s)
      rwa [State.microSteps, launched_trace] at hlt
  · rw [step_issue hu hw]
    exact ⟨fun r h => issueWord_refused (s := { s with cmds := rest }) hu h,
      fun h => issueWord_of_no_reason (s := { s with cmds := rest }) h⟩

/-- Settles O28: the machine runs its command to the end, idles, refuses a word, or runs its command. -/
theorem invariantStepNeverStops : Obligations.InvariantStepNeverStops := by
  intro s
  cases hu : s.upc with
  | some p => exact ⟨run s, by simp only [step, hu]⟩
  | none =>
    cases hw : s.cmds with
    | nil => exact ⟨_, step_idle hu hw⟩
    | cons w rest =>
      rw [step_issue hu hw]
      cases hr : refuseReason w { s with cmds := rest } with
      | some r => exact ⟨_, issueWord_refused hu hr⟩
      | none =>
        obtain ⟨i, -, e⟩ := issueWord_of_no_reason hr
        obtain ⟨t, ht, -⟩ := everyCommandEnds i { s with cmds := rest } hu
        exact ⟨t, e.trans ht⟩

end Sys2Proof.Machine
end

section
/-! PROOFS. The results each command can return: an operation returns OK or a code of its row, whichever command
runs it, and the command's RESULT is that code, or the sticky fault of a faulted session. -/

namespace Sys2Proof.Machine

/-! ## The codes that an operation returns (`60_exceptions.md` rule R302) -/

/-- Run from `s`, the operation `ws` keeps the registers of `State.kept` and returns OK or one of the codes
`fs`. -/
def ReturnsOneOf (fs : List FaultCode) (ws : List Work) (s : State) : Prop :=
  ∃ r t, Returns ws s r t ∧ t.kept = s.kept ∧ (r = .ok ∨ r ∈ fs)

theorem returnsOneOf_start (s : State) : ReturnsOneOf (faultsOf .start) (startProg none) s := by
  refine (does_start none s).returns ?_ ?_
  · rintro t ⟨-, p, ht⟩
    exact ⟨kept_of_master ht rfl, .inl rfl⟩
  · rintro r t (⟨rfl, p, ht⟩ | ⟨rfl, -, p, ht⟩) <;> exact ⟨kept_of_master ht rfl, .inr (by decide)⟩

theorem returnsOneOf_stop (s : State) : ReturnsOneOf (faultsOf .stop) stopProg s := by
  obtain ⟨r, t, hr, hends⟩ := returns_stopEnds s
  refine ⟨r, t, hr, hends.kept, ?_⟩
  rcases hends.outcome with ⟨rfl, -⟩ | ⟨rfl, -⟩ | ⟨rfl, -⟩
  · exact .inl rfl
  · exact .inr (by decide)
  · exact .inr (by decide)

/-- TRANSMIT's row: the codes of its pre-checks, the time-out and the NACK of its phase. -/
theorem faultsOf_transmit (ph : TxPhase) (b : Byte) :
    faultsOf (.transmit ph b) = preCheckCodes ph ++ [.clockHighTimeout, nackCode ph] := by
  cases ph <;> rfl

theorem returnsOneOf_transmit (ph : TxPhase) (b : Byte) (s : State) :
    ReturnsOneOf (faultsOf (.transmit ph b)) (transmitProg ph b none) s := by
  rw [faultsOf_transmit]
  refine (does_transmit ph b none s).returns ?_ ?_
  · rintro t ⟨p, ht⟩
    exact ⟨kept_of_master ht rfl, .inl rfl⟩
  · rintro r t (⟨hr, ht⟩ | ⟨rfl, p, sh, c, d, -, -, ht⟩ | ⟨rfl, p, ht⟩)
    · exact ⟨kept_of_master ht rfl, .inr (List.mem_append_left _ hr)⟩
    · exact ⟨kept_of_master ht rfl, .inr (by simp)⟩
    · exact ⟨kept_of_master ht rfl, .inr (by simp)⟩

theorem returnsOneOf_startSending (cfg : Config) (s : State) :
    ReturnsOneOf (faultsOf .startSending) (startSendingProg cfg) s := by
  obtain ⟨r, t, hr, hk, -⟩ := orderly_startSending cfg s
  obtain ⟨r', t', hr', hends⟩ := returns_startSending cfg s
  obtain ⟨rfl, -⟩ := hr.flags_unique hr'
  exact ⟨r, t, hr, hk, hends.imp_left And.left⟩

theorem returnsOneOf_receive (cfg : Config) (n : Half) (s : State) :
    ReturnsOneOf (faultsOf (.receive n)) (receiveProg cfg n) s := by
  refine (does_receive cfg n s).returns ?_ ?_
  · rintro t ⟨hk, -⟩
    exact ⟨hk, .inl rfl⟩
  · rintro r t ⟨hk, ⟨rfl, -⟩ | ⟨hr, -⟩ | ⟨rfl, -⟩ | ⟨rfl, -⟩⟩
    · exact ⟨hk, .inr (by simp [faultsOf])⟩
    · have hr' : r = .missingStart ∨ r = .dataCollision := by simpa [preCheckCodes] using hr
      exact ⟨hk, .inr (by rcases hr' with rfl | rfl <;> simp [faultsOf])⟩
    · exact ⟨hk, .inr (by simp [faultsOf])⟩
    · exact ⟨hk, .inr (by simp [faultsOf])⟩

/-! ## The RESULT of a command -/

/-- RESULT holds OK or one of the codes `fs`. -/
def ResultOneOf (fs : List FaultCode) (t : State) : Prop :=
  ∃ r, t.result = some r ∧ (r = .ok ∨ r ∈ fs)

/-- The RESULT of a raw command is what its operation returns. -/
theorem ReturnsOneOf.result_finish {fs : List FaultCode} {ws : List Work} {s : State}
    (h : ReturnsOneOf fs ws s) (op : OpKind) :
    ResultOneOf fs (run (proceed (.finish op) ws none s)) := by
  obtain ⟨r, t, hr, -, hcode⟩ := h
  rw [hr, run_returnOp_finish]
  exact ⟨r, rfl, hcode⟩

/-- So is the RESULT of a session command whose μSESS leaves that code as the sticky fault. -/
theorem ReturnsOneOf.result_sess {fs : List FaultCode} {ws : List Work} {s : State} {k : Kont}
    (h : ReturnsOneOf fs ws s)
    (hk : ∀ r t, t.sessFault = s.sessFault → ∃ as o g,
      returnOp k r none t = { t with upc := some (.sess as (.finish o g)) } ∧
      (writeAll as t).sessFault = some r) :
    ResultOneOf fs (run (proceed k ws none s)) := by
  obtain ⟨r, t, hr, hkept, hcode⟩ := h
  obtain ⟨as, o, g, e, hf⟩ := hk r t (registers_of_kept hkept).2.2.1
  obtain ⟨u, hu, -, hres, -⟩ := run_sess_account as o g t
  rw [hr, e, hu]
  exact ⟨r, hres.trans hf, hcode⟩

/-- Folded into the sticky fault OK, a code becomes the sticky fault (`45_session.md` rule R270). -/
theorem writeAll_foldFault {a : SessAssign} {u : State} (r : FaultCode)
    (h : (a.write u).sessFault = some .ok) : (writeAll [a, .foldFault r] u).sessFault = some r :=
  congrArg (Option.map fun f => if f = FaultCode.ok then r else f) h

/-- BITX returns OK with its last micro-step, or the time-out of a pulse (`41_bit_transfer.md` rule R176). -/
theorem resultOneOf_bitx (n : BitCount) (s : State) : ResultOneOf (faultsOf (.bitx n))
    (run (proceed (.finish .bitx) (bitTransferProg n .give none) none s)) := by
  rw [bitTransferProg_eq]
  rcases does_bits n s with ⟨t, -, e⟩ | ⟨r, t, ⟨rfl, -⟩, e⟩
  · rw [e, run_preset_give_turn]
    exact ⟨.ok, rfl, .inl rfl⟩
  · rw [e, run_returnOp_finish]
    exact ⟨_, rfl, .inr (List.mem_singleton_self _)⟩

/-- S_SEND_REPEATED returns the code of its last send: the first fault, or OK (`45_session.md` rule R276). -/
theorem resultOneOf_repeatLoop (c : Nat) (b : Byte) {s : State} (hf : s.sessFault = some .ok) :
    ResultOneOf sendFaults (run (repeatLoop c b s)) := by
  induction c generalizing s with
  | zero =>
    obtain ⟨t, e, -, hr, -⟩ := run_repeatLoop_closes b hf (.inl rfl)
    exact ⟨.ok, e ▸ hr, .inl rfl⟩
  | succ c ih =>
    obtain ⟨r, v, hret, hk, hcode, -⟩ := returns_send b s
    have hfu : (takeTurn v.peer v).sessFault = some .ok :=
      (master_sessFault (takeTurn_master v.peer v)).trans ((registers_of_kept hk).2.2.1.trans hf)
    have hfd : (sendDone r (takeTurn v.peer v)).sessFault = some r := by rw [sendDone_eq hfu]
    rw [run_repeatLoop_next hf hret]
    by_cases hr : r = .ok
    · exact ih (hr ▸ hfd)
    · obtain ⟨t, e, -, hres, -⟩ := run_repeatLoop_closes (n := c) b hfd (.inr hr)
      exact ⟨r, e ▸ hres, hcode⟩

/-- Every command that runs, in no faulted session, returns OK or a code of its row. -/
theorem resultOneOf_launched (i : Instr) {s : State} (hf : i.isMember = true → s.sessFault = some .ok) :
    ResultOneOf (faultsOf i) (run (launched i s)) := by
  cases i with
  | bitx n => exact resultOneOf_bitx n s
  | start => exact (returnsOneOf_start s).result_finish _
  | stop => exact (returnsOneOf_stop s).result_finish _
  | transmit ph b => exact (returnsOneOf_transmit ph b s).result_finish _
  | receive n => exact (returnsOneOf_receive s.cfg n s).result_finish _
  | startSending => exact (returnsOneOf_startSending s.cfg s).result_finish _
  | send b => exact (returnsOneOf_transmit .data b s).result_finish _
  | sOpen step0 =>
    exact (returnsOneOf_startSending s.cfg s).result_sess fun r t _ => ⟨_, _, _, rfl, rfl⟩
  | sSend b =>
    rw [launched, if_pos (hf rfl)]
    exact (returnsOneOf_transmit .data b s).result_sess fun r t ht =>
      ⟨_, _, _, rfl, writeAll_foldFault (a := .stepUp) r (ht.trans (hf rfl))⟩
  | sSendRepeated c b => exact resultOneOf_repeatLoop c.toNat b (hf rfl)
  | sValid =>
    obtain ⟨t, ht, -, hr, -⟩ := run_sess_account [] none .valid s
    rw [launched, ht]
    exact ⟨.ok, hr.trans (hf rfl), .inl rfl⟩
  | sReceive n =>
    rw [launched, if_pos (hf rfl)]
    exact (returnsOneOf_receive s.cfg n s).result_sess fun r t ht =>
      ⟨_, _, _, rfl, writeAll_foldFault (a := .openTo false) r (ht.trans (hf rfl))⟩
  | sStop =>
    rw [launched, if_pos (hf rfl)]
    exact (returnsOneOf_stop s).result_sess fun r t ht =>
      ⟨_, _, _, rfl, writeAll_foldFault (a := .openTo false) r (ht.trans (hf rfl))⟩

/-- Settles O30: a session command of a faulted session repeats the sticky fault; every other command that runs
returns OK or a code of its row. -/
theorem faultsByCommand : Obligations.FaultsByCommand := by
  intro i s t hu ho hp h
  rw [exec_launched hu ho hp, Host.Outcome.next.injEq] at h
  subst h
  by_cases hf : i.isMember = true → s.sessFault = some .ok
  · exact .inl (resultOneOf_launched i hf)
  · obtain ⟨hm, hf⟩ := Classical.not_imp.1 hf
    obtain ⟨_, -, hres⟩ := run_launched_faulted hm hf
    exact .inr ⟨hm, hres⟩

end Sys2Proof.Machine
end

section
/-! PROOFS. Where each command leaves the clock when it returns OK (`70_reset_and_hazards.md` rule R353): an operation
that returns OK leaves one level of SCL_DRV, whichever command runs it, and neither `finish`, a μSESS nor an idle
machine writes it. -/

namespace Sys2Proof.Machine

/-! ## The operations -/

/-- Run from `s`, the operation `ws` keeps the registers of `State.kept`, and it leaves SCL_DRV at `d` when it
returns OK. -/
def OkLeavesScl (d : SclDrv) (ws : List Work) (s : State) : Prop :=
  ∃ r t, Returns ws s r t ∧ t.kept = s.kept ∧ (r = .ok → t.sclDrv = d)

theorem okLeavesScl_start (s : State) : OkLeavesScl .low (startProg none) s := by
  obtain ⟨r, t, hr, hk, -⟩ := returns_start s
  obtain ⟨r', t', hr', -, -, hends⟩ := returns_startEnds s
  obtain ⟨rfl, hscl, -⟩ := hr.drivers_unique hr'
  rcases hends with ⟨-, hlow, -⟩ | ⟨rfl, -⟩
  · exact ⟨r, t, hr, hk, fun _ => hscl.trans hlow⟩
  · exact ⟨_, t, hr, hk, nofun⟩

theorem okLeavesScl_stop (s : State) : OkLeavesScl .rel stopProg s := by
  obtain ⟨r, t, hr, hends⟩ := returns_stopEnds s
  exact ⟨r, t, hr, hends.kept, fun _ => hends.released⟩

theorem okLeavesScl_transmit (ph : TxPhase) (b : Byte) (s : State) :
    OkLeavesScl .low (transmitProg ph b none) s := by
  obtain ⟨r, t, hr, hk, -⟩ := returns_transmit ph b s
  obtain ⟨r', t', hr', -, hends⟩ := returns_transmit_ends ph b s
  obtain ⟨rfl, hscl, -⟩ := hr.drivers_unique hr'
  rcases hends with ⟨-, hlow, -⟩ | ⟨rfl, -⟩ | ⟨hpre, -⟩
  · exact ⟨r, t, hr, hk, fun _ => hscl.trans hlow⟩
  · exact ⟨_, t, hr, hk, nofun⟩
  · have hne : r ≠ .ok := by
      rintro rfl
      cases ph <;> simp [preCheckCodes] at hpre
    exact ⟨r, t, hr, hk, fun h => absurd h hne⟩

theorem okLeavesScl_startSending (cfg : Config) (s : State) :
    OkLeavesScl .low (startSendingProg cfg) s := by
  obtain ⟨r, t, hr, hk, -⟩ := orderly_startSending cfg s
  obtain ⟨r', t', hr', hends⟩ := returns_startSending cfg s
  obtain ⟨rfl, hscl, -⟩ := hr.drivers_unique hr'
  rcases hends with ⟨-, hlow, -⟩ | hmem
  · exact ⟨r, t, hr, hk, fun _ => hscl.trans hlow⟩
  · have hne : r ≠ .ok := fun h => absurd (h ▸ hmem) (by decide)
    exact ⟨r, t, hr, hk, fun h => absurd h hne⟩

theorem okLeavesScl_receive (cfg : Config) (n : Half) (s : State) :
    OkLeavesScl .rel (receiveProg cfg n) s := by
  refine (does_receive cfg n s).returns ?_ ?_
  · rintro t ⟨hk, -, hrel, -⟩
    exact ⟨hk, fun _ => hrel⟩
  · rintro r t ⟨hk, hr⟩
    refine ⟨hk, fun h => ?_⟩
    subst h
    simp [preCheckCodes] at hr

/-! ## The commands -/

/-- The level of SCL_DRV that rule R353 gives after an OK command, for the commands that it names. -/
def sclAfterOk : Instr → Option SclDrv
  | .bitx _ | .start | .transmit _ _ | .send _ | .startSending | .sOpen _ | .sSend _ => some .low
  | .stop | .receive _ | .sStop | .sReceive _ => some .rel
  | .sSendRepeated _ _ | .sValid => none

/-- A raw command leaves SCL_DRV as its operation does. -/
theorem OkLeavesScl.finish {d : SclDrv} {ws : List Work} {s : State} (h : OkLeavesScl d ws s) (op : OpKind)
    (hok : (run (proceed (.finish op) ws none s)).result = some .ok) :
    (run (proceed (.finish op) ws none s)).sclDrv = d := by
  obtain ⟨r, t, hr, -, hd⟩ := h
  rw [hr, run_returnOp_finish] at hok ⊢
  exact hd (Option.some.inj hok)

/-- So does a session command whose μSESS leaves the operation's code as the sticky fault. -/
theorem OkLeavesScl.sess {d : SclDrv} {ws : List Work} {s : State} {k : Kont} (h : OkLeavesScl d ws s)
    (hk : ∀ r t, t.sessFault = s.sessFault → ∃ as o g,
      returnOp k r none t = { t with upc := some (.sess as (.finish o g)) } ∧
      (writeAll as t).sessFault = some r)
    (hok : (run (proceed k ws none s)).result = some .ok) :
    (run (proceed k ws none s)).sclDrv = d := by
  obtain ⟨r, t, hr, hkept, hd⟩ := h
  obtain ⟨as, o, g, e, hf⟩ := hk r t (registers_of_kept hkept).2.2.1
  obtain ⟨u, hu, -, hres, -, hscl⟩ := run_sess_account as o g t
  rw [hr, e, hu] at hok ⊢
  exact hscl.trans (hd (Option.some.inj (hf.symm.trans (hres.symm.trans hok))))

/-- BITX returns OK with μPRESET, after the last pulse has taken SCL low (`41_bit_transfer.md` rule R174). -/
theorem run_bitx_sclDrv_of_ok (n : BitCount) (s : State)
    (hok : (run (launched (.bitx n) s)).result = some .ok) : (run (launched (.bitx n) s)).sclDrv = .low := by
  rw [launched, bitTransferProg_eq] at hok ⊢
  rcases does_bits n s with ⟨t, ⟨p, sh, -, ht⟩, e⟩ | ⟨r, t, ⟨rfl, -⟩, e⟩
  · rw [e, run_preset_give_turn]
    obtain ⟨-, -, -, hlow, -⟩ := preset_of_bits (takeTurn_master t.peer t) ht
    exact hlow
  · rw [e, run_returnOp_finish] at hok
    cases hok

/-- A session command that returns OK ran in a session with no fault yet (`45_session.md` rule R286). -/
theorem sessFault_of_result_ok {i : Instr} {s : State} (hm : i.isMember = true)
    (hok : (run (launched i s)).result = some .ok) : s.sessFault = some .ok := by
  by_contra hf
  obtain ⟨_, -, hres⟩ := run_launched_faulted hm hf
  exact hf (hres.symm.trans hok)

/-- Every command that rule R353 names leaves the clock as the rule says. -/
theorem run_launched_sclDrv {i : Instr} {d : SclDrv} {s : State} (hi : sclAfterOk i = some d)
    (hok : (run (launched i s)).result = some .ok) : (run (launched i s)).sclDrv = d := by
  cases i with cases hi
  | bitx n => exact run_bitx_sclDrv_of_ok n s hok
  | start => exact (okLeavesScl_start s).finish _ hok
  | stop => exact (okLeavesScl_stop s).finish _ hok
  | transmit ph b => exact (okLeavesScl_transmit ph b s).finish _ hok
  | receive n => exact (okLeavesScl_receive s.cfg n s).finish _ hok
  | startSending => exact (okLeavesScl_startSending s.cfg s).finish _ hok
  | send b => exact (okLeavesScl_transmit .data b s).finish _ hok
  | sOpen step0 =>
    exact (okLeavesScl_startSending s.cfg s).sess (fun r t _ => ⟨_, _, _, rfl, rfl⟩) hok
  | sSend b =>
    have hf := sessFault_of_result_ok rfl hok
    rw [launched, if_pos hf] at hok ⊢
    exact (okLeavesScl_transmit .data b s).sess (fun r t ht =>
      ⟨_, _, _, rfl, writeAll_foldFault (a := .stepUp) r (ht.trans hf)⟩) hok
  | sReceive n =>
    have hf := sessFault_of_result_ok rfl hok
    rw [launched, if_pos hf] at hok ⊢
    exact (okLeavesScl_receive s.cfg n s).sess (fun r t ht =>
      ⟨_, _, _, rfl, writeAll_foldFault (a := .openTo false) r (ht.trans hf)⟩) hok
  | sStop =>
    have hf := sessFault_of_result_ok rfl hok
    rw [launched, if_pos hf] at hok ⊢
    exact (okLeavesScl_stop s).sess (fun r t ht =>
      ⟨_, _, _, rfl, writeAll_foldFault (a := .openTo false) r (ht.trans hf)⟩) hok

/-- An idle step is at most a Peer step, which does not write the master's drivers (rule R166). -/
theorem idleStep_sclDrv (s : State) : (idleStep s).sclDrv = s.sclDrv := by
  unfold idleStep
  split
  · rfl
  · exact peerStep_sclDrv _ _

/-- Settles O31: a command that runs is its launch, run to its end, and an idle step keeps SCL_DRV. -/
theorem clockHeldBetweenCommands : Obligations.ClockHeldBetweenCommands := by
  refine ⟨fun i s t hu ho hp h hok => ?_, idleStep_sclDrv⟩
  rw [exec_launched hu ho hp, Host.Outcome.next.injEq] at h
  subst h
  constructor
  · rintro (⟨n, rfl⟩ | rfl | ⟨ph, b, rfl⟩ | ⟨b, rfl⟩ | rfl | ⟨n, rfl⟩ | ⟨b, rfl⟩) <;>
      exact run_launched_sclDrv rfl hok
  · rintro (rfl | ⟨n, rfl⟩ | rfl | ⟨n, rfl⟩) <;> exact run_launched_sclDrv rfl hok

end Sys2Proof.Machine
end
